-- ==== Sys2Proof/Word.lean ====
section
/-! DEFINITION. The widths that MXLEN fixes (00_scope.md R1 to R3) and the plain types of a register's contents: bytes,
integers, permission sets and the capability record (10_state.md R13). -/

namespace Sys2Proof

/-- MXLEN, 32 or 64 (00_scope.md R1). -/
inductive Mxlen where
  | rv32
  | rv64
deriving DecidableEq, Repr

namespace Mxlen

/-- MXLEN as a number of bits: the width of the address field (R1, R3, R14). -/
@[reducible] def bits : Mxlen → Nat
  | rv32 => 32
  | rv64 => 64

/-- MW, the width of the decoded B and T (R3). -/
@[reducible] def mw : Mxlen → Nat
  | rv32 => 10
  | rv64 => 14

/-- EW, the exponent width (R3). -/
@[reducible] def ew : Mxlen → Nat
  | rv32 => 5
  | rv64 => 6

/-- EW / 2 in integer division: the width of TE and of BE (R3). -/
@[reducible] def half : Mxlen → Nat
  | rv32 => 2
  | rv64 => 3

/-- CAP_MAX_E = MXLEN - MW + 2 (R3, R86). -/
@[reducible] def capMaxE : Mxlen → Nat
  | rv32 => 24
  | rv64 => 52

/-- The width of the AP field (R62; 8 for MXLEN=64 by D4, log 25). -/
@[reducible] def apWidth : Mxlen → Nat
  | rv32 => 5
  | rv64 => 8

/-- The width of the separate M field: none for MXLEN=32, where the M-bit lies inside AP (R13, R68). -/
@[reducible] def mWidth : Mxlen → Nat
  | rv32 => 0
  | rv64 => 1

/-- The width of L8: MXLEN=32 only (R3 `enableL8`, R87). -/
@[reducible] def l8Width : Mxlen → Nat
  | rv32 => 1
  | rv64 => 0

/-- The metadata bits that belong to SDP, CL and the reserved bits together (R46: 6, R47: 27). -/
@[reducible] def spare : Mxlen → Nat
  | rv32 => 6
  | rv64 => 27

/-- The bytes of a capability in memory, CLEN/8 = 2 * MXLEN / 8 (R2, R31). -/
@[reducible] def capBytes : Mxlen → Nat
  | rv32 => 8
  | rv64 => 16

end Mxlen

abbrev Byte := BitVec 8

/-- The number of a general register, 0 to 31 (10_state.md R19). -/
abbrev Reg := Fin 32

/-- A 12-bit immediate as it stands in the instruction word (30_encoding.md R56). -/
abbrev Imm12 := BitVec 12

/-- What fixes the widths of a capability's fields: MXLEN (R1) and SDPLEN (R3). -/
structure Format where
  mxlen : Mxlen
  sdplen : Nat
deriving DecidableEq, Repr

namespace Format

@[reducible] def xlen (f : Format) : Nat := f.mxlen.bits

/-- How many reserved bits the metadata word has, CL among them (R46, R47, R50). -/
@[reducible] def reservedWidth (f : Format) : Nat := f.mxlen.spare - f.sdplen

end Format

/-- An MXLEN-bit integer. -/
abbrev XWord (f : Format) := BitVec f.mxlen.bits

/-- The architectural permissions without LEVELS (40_permissions.md R60). -/
inductive Perm where
  | r
  | w
  | c
  | x
  | asr
  | lm
deriving DecidableEq, Repr

/-- A set of architectural permissions (R71). -/
structure Perms where
  r : Bool
  w : Bool
  c : Bool
  x : Bool
  asr : Bool
  lm : Bool
deriving DecidableEq, Repr, Inhabited

/-- The capability as a record (10_state.md R13). `tag` is out of band; every other field is part of the CLEN-bit value.
`tstored` is T[MW-3:0] with TE its low EW/2 bits, `bstored` is B[MW-1:0] with BE its low EW/2 bits (30_encoding.md R48);
`reserved` holds the reserved bits, CL's among them (R49, R50). A field MXLEN does not have is of width 0. -/
structure Cap (f : Format) where
  tag : Bool
  sdp : BitVec f.sdplen
  ap : BitVec f.mxlen.apWidth
  m : BitVec f.mxlen.mWidth
  ct : Bool
  ef : Bool
  l8 : BitVec f.mxlen.l8Width
  tstored : BitVec (f.mxlen.mw - 2)
  bstored : BitVec f.mxlen.mw
  reserved : BitVec f.reservedWidth
  address : BitVec f.mxlen.bits
deriving DecidableEq, Repr

end Sys2Proof
end

