-- ==== Sys2Proof/Syntax.lean ====
section
/-! DEFINITION. The instructions: one constructor per instruction of spec/opcode_table.json. LC and SC have two rows there, one
per MXLEN: each is one instruction (43_memory_access.md R158, R159) whose word depends on MXLEN (log 10). -/

namespace Sys2Proof

/-- The instructions of spec/opcode_table.json. Operand names are the table's: `cd`/`rd` destination, `cs1`, `cs2`, `rs2`
sources, `imm` the 12-bit immediate (30_encoding.md R56). -/
inductive Instr where
  /-- R74 -/
  | gcperm (rd cs1 : Reg)
  /-- R75 -/
  | acperm (cd cs1 rs2 : Reg)
  /-- R104 -/
  | gcbase (rd cs1 : Reg)
  /-- R121 -/
  | cadd (cd cs1 rs2 : Reg)
  /-- R122 -/
  | caddi (cd cs1 : Reg) (imm : Imm12)
  /-- R123 -/
  | scaddr (cd cs1 rs2 : Reg)
  /-- R124 -/
  | cbld (cd cs1 cs2 : Reg)
  /-- R125 -/
  | jalr (cd cs1 : Reg) (imm : Imm12)
  /-- R156, n = 1, signed -/
  | lb (rd cs1 : Reg) (imm : Imm12)
  /-- R156, n = 2, signed -/
  | lh (rd cs1 : Reg) (imm : Imm12)
  /-- R156, n = 4, signed -/
  | lw (rd cs1 : Reg) (imm : Imm12)
  /-- R156, n = 1, unsigned -/
  | lbu (rd cs1 : Reg) (imm : Imm12)
  /-- R156, n = 2, unsigned -/
  | lhu (rd cs1 : Reg) (imm : Imm12)
  /-- R156, n = 4, unsigned; MXLEN=64 only -/
  | lwu (rd cs1 : Reg) (imm : Imm12)
  /-- R156, n = 8; MXLEN=64 only -/
  | ld (rd cs1 : Reg) (imm : Imm12)
  /-- R157, n = 1 -/
  | sb (rs2 cs1 : Reg) (imm : Imm12)
  /-- R157, n = 2 -/
  | sh (rs2 cs1 : Reg) (imm : Imm12)
  /-- R157, n = 4 -/
  | sw (rs2 cs1 : Reg) (imm : Imm12)
  /-- R157, n = 8; MXLEN=64 only -/
  | sd (rs2 cs1 : Reg) (imm : Imm12)
  /-- R158 -/
  | lc (cd cs1 : Reg) (imm : Imm12)
  /-- R159 -/
  | sc (cs2 cs1 : Reg) (imm : Imm12)
deriving DecidableEq, Repr

end Sys2Proof
end

