-- ==== Sys2Proof/Config.lean ====
section
/-! DEFINITION. The parameters a machine is built with (00_scope.md R4), held as plain data, and the open functions of the
spec as constants without a body: nothing in Lean can evaluate them, so a statement holds for every value they may have. -/

namespace Sys2Proof

/-- CAP_ACCESS_WITHOUT_C: what a capability load or store does when the authorising capability lacks C (R4, R39, D31). -/
inductive WithoutC where
  | clearTag
  | fault
deriving DecidableEq, Repr

/-- `layout` (30_encoding.md R52): the lowest bit position of every metadata field inside the MXLEN-bit metadata word, and the
position of every reserved bit, lowest-numbered reserved bit first. T[MW-3:EW/2], TE, B[MW-1:EW/2] and BE are four fields. -/
structure Layout where
  sdp : Nat
  ap : Nat
  m : Nat
  ct : Nat
  ef : Nat
  l8 : Nat
  tHigh : Nat
  te : Nat
  bHigh : Nat
  be : Nat
  reserved : List Nat
deriving DecidableEq, Repr

/-- `decode` (R4, 30_encoding.md R54, D22): what the words of this machine stand for, as plain data. `words` lists words with the
instruction each stands for, or none; of the words not listed those of spec/opcode_table.json are admitted if `table` holds, and
none otherwise. Every function from words to optional instructions is one of these (log 8). -/
structure Decoder where
  table : Bool
  words : List (BitVec 32 × Option Instr)
deriving DecidableEq, Repr

/-- The decoder that admits exactly the rows of spec/opcode_table.json (log 8). -/
def Decoder.ofTable : Decoder := { table := true, words := [] }

/-- The decoder that admits no row: what D22 asks for until a row is confirmed. -/
def Decoder.unconfirmed : Decoder := { table := false, words := [] }

/-- The parameters of R4 that are data. No step changes them (log 1). TID is not among them: it is whether the hart has the six
registers (`Hart.tid`). -/
structure Params where
  format : Format
  layout : Layout
  decoder : Decoder
  hybrid : Bool
  levels : Bool
  withoutC : WithoutC
  retainInvalid : Bool
deriving DecidableEq, Repr

namespace Layout

/-- The fields of the metadata word as (lowest position, width) pairs (R46, R47). -/
def fields (l : Layout) (f : Format) : List (Nat × Nat) :=
  [(l.sdp, f.sdplen), (l.ap, f.mxlen.apWidth), (l.m, f.mxlen.mWidth), (l.ct, 1), (l.ef, 1), (l.l8, f.mxlen.l8Width),
   (l.tHigh, f.mxlen.mw - 2 - f.mxlen.half), (l.te, f.mxlen.half), (l.bHigh, f.mxlen.mw - f.mxlen.half), (l.be, f.mxlen.half)]

/-- Does the field hold the position? -/
def covers (fld : Nat × Nat) (pos : Nat) : Bool := decide (fld.1 ≤ pos) && decide (pos < fld.1 + fld.2)

/-- The constraints the text still fixes (R52, D5): every field lies in the metadata word, the fields are pairwise disjoint,
and the reserved bits are assigned, one each, to exactly the positions in no field. -/
def wf (l : Layout) (f : Format) : Bool :=
  (l.fields f).all (fun fld => decide (fld.1 + fld.2 ≤ f.mxlen.bits)) &&
  (List.range f.mxlen.bits).all (fun pos =>
    decide ((l.fields f).countP (covers · pos) + l.reserved.count pos = 1)) &&
  l.reserved.all (fun pos => decide (pos < f.mxlen.bits)) &&
  decide (l.reserved.length = f.reservedWidth)

end Layout

/-- The parameters are ones the spec admits: SDP fits the metadata word (R46, R47) and the layout obeys R52. -/
def Params.wf (p : Params) : Bool := decide (p.format.sdplen ≤ p.format.mxlen.spare) && p.layout.wf p.format

namespace Config

/-- FREE VALUE. `gcperm_pack` (R4, R74, D19): the MXLEN-bit result GCPERM gives for a permission set, an M-bit and SDP bits,
and the format of ACPERM's mask. Any value is allowed. Log 11. -/
opaque gcpermPack (f : Format) : Perms → Bool → BitVec f.sdplen → XWord f

/-- FREE VALUE. The proposal for `acperm_reduce` (R76, D20); `acpermReduce` keeps of it what P1 to P4 allow. Log 13. -/
opaque acpermFree (x : Mxlen) : Perms → Perms

/-- FREE VALUE. `cbld_extra` (R124, D29): the conditions of CBLD beyond the necessary ones. Log 14. -/
opaque cbldExtra (f : Format) : Cap f → Cap f → Bool

/-- FREE VALUE. `CHERI_CAUSE` (R131, D13): the exception number of CheriFault. No rule reads it. Log 31. -/
opaque cheriCause : Nat

end Config

end Sys2Proof
end

