-- ==== Sys2Proof/Machine/Capability.lean ====
section
/-! DEFINITION. The two distinguished capabilities (10_state.md R24, R25) and the capability in CLEN bits (30_encoding.md R45 to
R53), for every layout. -/

namespace Sys2Proof

/-- NULL: 0 in all fields (R24). -/
def Cap.null (f : Format) : Cap f :=
  { tag := false, sdp := 0, ap := 0, m := 0, ct := false, ef := false, l8 := 0, tstored := 0, bstored := 0, reserved := 0,
    address := 0 }

/-- The AP value of the Infinite capability (R25): 0x8 or, with HYBRID, 0x9 for MXLEN=32; 0x3F for MXLEN=64. -/
def infiniteAp (x : Mxlen) (hybrid : Bool) : Nat :=
  match x with
  | .rv32 => if hybrid then 0x09 else 0x08
  | .rv64 => 0x3F

/-- Infinite: all permissions, the whole address space (R25). The M field exists for MXLEN=64 only and is 1 with HYBRID. -/
def Cap.infinite (f : Format) (hybrid : Bool) : Cap f :=
  { tag := true, sdp := BitVec.allOnes f.sdplen, ap := BitVec.ofNat f.mxlen.apWidth (infiniteAp f.mxlen hybrid),
    m := BitVec.ofNat f.mxlen.mWidth hybrid.toNat, ct := false, ef := false, l8 := 0, tstored := 0, bstored := 0,
    reserved := 0, address := 0 }

/-- An integer in a capability-wide register: every metadata bit and the tag 0 (R20, D26). -/
def Cap.ofInt (f : Format) (v : XWord f) : Cap f := { Cap.null f with address := v }

/-- CT = 1 (42_address_and_sealing.md R116). -/
def Cap.isSealed {f : Format} (c : Cap f) : Bool := c.ct

/-! ## The stored T and B as fields (R48) -/

/-- TE: the low EW/2 bits of the stored T. -/
def Cap.te {f : Format} (c : Cap f) : BitVec f.mxlen.half := c.tstored.setWidth f.mxlen.half

/-- T[MW-3:EW/2]. -/
def Cap.tHigh {f : Format} (c : Cap f) : BitVec (f.mxlen.mw - 2 - f.mxlen.half) :=
  c.tstored.extractLsb' f.mxlen.half (f.mxlen.mw - 2 - f.mxlen.half)

/-- BE: the low EW/2 bits of the stored B. -/
def Cap.be {f : Format} (c : Cap f) : BitVec f.mxlen.half := c.bstored.setWidth f.mxlen.half

/-- B[MW-1:EW/2]. -/
def Cap.bHigh {f : Format} (c : Cap f) : BitVec (f.mxlen.mw - f.mxlen.half) :=
  c.bstored.extractLsb' f.mxlen.half (f.mxlen.mw - f.mxlen.half)

/-- Two fields side by side, the first in the more significant position (R6). -/
def joinFields {h n : Nat} (w : Nat) (high : BitVec n) (low : BitVec h) : BitVec w :=
  (high.setWidth w <<< h) ||| low.setWidth w

/-! ## The metadata word under a layout (R52) -/

/-- Put bit j of `v` at the j-th position of the list. -/
def spread : List Nat → Nat → Nat
  | [], _ => 0
  | pos :: rest, v => ((v % 2) <<< pos) ||| spread rest (v / 2)

/-- Bit j of the result is the bit of `w` at the j-th position of the list. -/
def gather : List Nat → Nat → Nat
  | [], _ => 0
  | pos :: rest, w => (w >>> pos) % 2 + 2 * gather rest w

/-- The metadata word: every field at its position of the layout (R45, R52). -/
def Cap.metadata {f : Format} (l : Layout) (c : Cap f) : XWord f :=
  (c.sdp.setWidth f.mxlen.bits <<< l.sdp) ||| (c.ap.setWidth f.mxlen.bits <<< l.ap) |||
  (c.m.setWidth f.mxlen.bits <<< l.m) ||| ((BitVec.ofBool c.ct).setWidth f.mxlen.bits <<< l.ct) |||
  ((BitVec.ofBool c.ef).setWidth f.mxlen.bits <<< l.ef) ||| (c.l8.setWidth f.mxlen.bits <<< l.l8) |||
  (c.tHigh.setWidth f.mxlen.bits <<< l.tHigh) ||| (c.te.setWidth f.mxlen.bits <<< l.te) |||
  (c.bHigh.setWidth f.mxlen.bits <<< l.bHigh) ||| (c.be.setWidth f.mxlen.bits <<< l.be) |||
  BitVec.ofNat f.mxlen.bits (spread l.reserved c.reserved.toNat)

/-- `cap_to_bits` as an unsigned number of CLEN bits: metadata in the most significant bits, address in the least (R45, R53). -/
def capToBits {f : Format} (l : Layout) (c : Cap f) : Nat :=
  (c.metadata l).toNat * 2 ^ f.mxlen.bits + c.address.toNat

/-- The capability of a metadata word, an address and the tag beside them (R53). -/
def Cap.ofWords {f : Format} (l : Layout) (tag : Bool) (meta_ address : XWord f) : Cap f :=
  { tag := tag
    sdp := meta_.extractLsb' l.sdp f.sdplen
    ap := meta_.extractLsb' l.ap f.mxlen.apWidth
    m := meta_.extractLsb' l.m f.mxlen.mWidth
    ct := meta_.getLsbD l.ct
    ef := meta_.getLsbD l.ef
    l8 := meta_.extractLsb' l.l8 f.mxlen.l8Width
    tstored := joinFields (f.mxlen.mw - 2) (meta_.extractLsb' l.tHigh (f.mxlen.mw - 2 - f.mxlen.half))
      (meta_.extractLsb' l.te f.mxlen.half)
    bstored := joinFields f.mxlen.mw (meta_.extractLsb' l.bHigh (f.mxlen.mw - f.mxlen.half))
      (meta_.extractLsb' l.be f.mxlen.half)
    reserved := BitVec.ofNat f.reservedWidth (gather l.reserved meta_.toNat)
    address := address }

/-- `bits_to_cap` of an unsigned number of CLEN bits, the tag carried beside (R53). -/
def bitsToCap {f : Format} (l : Layout) (tag : Bool) (bits : Nat) : Cap f :=
  Cap.ofWords l tag (BitVec.ofNat f.mxlen.bits (bits / 2 ^ f.mxlen.bits)) (BitVec.ofNat f.mxlen.bits bits)

end Sys2Proof
end

