-- ==== Sys2Proof/Machine/Bounds.lean ====
section
/-! DEFINITION. The decoding of the compressed bounds (41_bounds.md R87 to R98) in exact Nat and Int arithmetic, narrowed where
the rules narrow; the modular reading is D6 and D7 (log 29). -/

namespace Sys2Proof

/-! ## From the stored fields to E, B and T -/

/-- `{L8, TE, BE}` for MXLEN=32 and `{TE, BE}` for MXLEN=64, an EW-bit number (R88); L8 has width 0 for MXLEN=64. -/
def Cap.eStored {f : Format} (c : Cap f) : Nat :=
  c.l8.toNat * 2 ^ (2 * f.mxlen.half) + c.te.toNat * 2 ^ f.mxlen.half + c.be.toNat

/-- E, a signed integer (R88, R89). -/
def Cap.exponent {f : Format} (c : Cap f) : Int :=
  if c.ef then 0 else (f.mxlen.capMaxE : Int) - c.eStored

/-- Clear the low EW/2 bits (R87, R90: with EF=0 they hold exponent bits). -/
def clearLow (x : Mxlen) (v : Nat) : Nat := v / 2 ^ x.half * 2 ^ x.half

/-- B[MW-1:0] (R90). -/
def Cap.decB {f : Format} (c : Cap f) : Nat :=
  if c.ef then c.bstored.toNat else clearLow f.mxlen c.bstored.toNat

/-- T[MW-3:0] (R90). -/
def Cap.tLow {f : Format} (c : Cap f) : Nat :=
  if c.ef then c.tstored.toNat else clearLow f.mxlen c.tstored.toNat

/-- B[MW-3:0] (R90). -/
def Cap.bLow {f : Format} (c : Cap f) : Nat := c.decB % 2 ^ (f.mxlen.mw - 2)

/-- LCout (R90): with EF=0 the comparison is of the bits from EW/2 up. -/
def Cap.lCout {f : Format} (c : Cap f) : Nat :=
  if c.ef then (if c.tLow < c.bLow then 1 else 0)
  else (if c.tLow / 2 ^ f.mxlen.half < c.bLow / 2 ^ f.mxlen.half then 1 else 0)

/-- LMSB (R90): L8 with EF=1 (0 for MXLEN=64, which has no L8), 1 with EF=0. -/
def Cap.lMsb {f : Format} (c : Cap f) : Nat := if c.ef then c.l8.toNat else 1

/-- T[MW-1:0], its top two bits rebuilt by a 2-bit sum modulo 4 (R90). -/
def Cap.decT {f : Format} (c : Cap f) : Nat :=
  (c.decB / 2 ^ (f.mxlen.mw - 2) + c.lCout + c.lMsb) % 4 * 2 ^ (f.mxlen.mw - 2) + c.tLow

/-! ## Malformed bounds (R94) -/

def Cap.malformedMsb {f : Format} (c : Cap f) : Bool :=
  (decide (c.exponent = f.mxlen.capMaxE) && decide (c.decB ≠ 0)) ||
  (decide (c.exponent = (f.mxlen.capMaxE : Int) - 1) && decide (c.decB / 2 ^ (f.mxlen.mw - 1) ≠ 0))

/-- `enableL8` is MXLEN=32. -/
def Cap.malformedLsb {f : Format} (c : Cap f) : Bool :=
  decide (c.exponent < 0) || (decide (c.exponent = 0) && decide (f.mxlen = .rv32))

/-- `malformed(cap)`. -/
def Cap.malformed {f : Format} (c : Cap f) : Bool := !c.ef && (c.malformedMsb || c.malformedLsb)

/-! ## The corrections (R91 to R93), for numbers E, B, T and the address a -/

/-- A = a[E+MW-1:E]. -/
def middleA (x : Mxlen) (e a : Nat) : Nat := a / 2 ^ e % 2 ^ x.mw

/-- R = B - 2^(MW-2), modulo 2^MW. -/
def lowerR (x : Mxlen) (b : Nat) : Nat := (b + 2 ^ x.mw - 2 ^ (x.mw - 2)) % 2 ^ x.mw

/-- 1 where v < R. -/
def belowR (r v : Nat) : Int := if v < r then 1 else 0

/-- ct: +1 where only T is below R, -1 where only A is (R92). -/
def corrT (x : Mxlen) (e b t a : Nat) : Int := belowR (lowerR x b) t - belowR (lowerR x b) (middleA x e a)

/-- cb (R92). -/
def corrB (x : Mxlen) (e b a : Nat) : Int := belowR (lowerR x b) b - belowR (lowerR x b) (middleA x e a)

/-- The corrected upper section: the address bits from E+MW up plus the correction, modulo 2^width (R93). -/
def upperSection (x : Mxlen) (e a width : Nat) (corr : Int) : Nat :=
  ((((a / 2 ^ (e + x.mw) : Nat) : Int) + corr) % ((2 ^ width : Nat) : Int)).toNat

/-! ## Base and top (R96, R97) -/

/-- b before it is narrowed to MXLEN bits. -/
def rawBase (x : Mxlen) (e b a : Nat) : Nat :=
  if e + x.mw ≤ x.bits then
    (upperSection x e a (x.bits - (e + x.mw)) (corrB x e b a) * 2 ^ x.mw + b) * 2 ^ e
  else b * 2 ^ e % 2 ^ x.bits

/-- t before the top-bit correction, of MXLEN+1 bits. -/
def rawTop (x : Mxlen) (e b t a : Nat) : Nat :=
  if e + x.mw ≤ x.bits then
    (upperSection x e a (x.bits + 1 - (e + x.mw)) (corrT x e b t a) * 2 ^ x.mw + t) * 2 ^ e
  else t * 2 ^ e % 2 ^ (x.bits + 1)

/-- The test of R97: t[MXLEN:MXLEN-1] - b[MXLEN-1], 2-bit numbers modulo 4, is above 1 (D7). -/
def topBitWrong (x : Mxlen) (base top : Nat) : Bool :=
  decide (1 < (top / 2 ^ (x.bits - 1) % 4 + 4 - base / 2 ^ (x.bits - 1) % 2) % 4)

/-- t with its bit MXLEN inverted where R97 says so. -/
def fixTop (x : Mxlen) (e base top : Nat) : Nat :=
  if e < x.capMaxE - 1 ∧ topBitWrong x base top then (top + 2 ^ x.bits) % 2 ^ (x.bits + 1) else top

/-- The pair `bounds(cap)` returns (R96): b of MXLEN bits, t of MXLEN+1 bits. -/
structure Bounds (x : Mxlen) where
  base : BitVec x.bits
  top : BitVec (x.bits + 1)
deriving DecidableEq, Repr

/-- `bounds(cap)` (R96, R97); a malformed capability has (0, 0) (R95). -/
def Cap.bounds {f : Format} (c : Cap f) : Bounds f.mxlen :=
  if c.malformed then { base := 0, top := 0 }
  else
    let base := rawBase f.mxlen c.exponent.toNat c.decB c.address.toNat
    let top := rawTop f.mxlen c.exponent.toNat c.decB c.decT c.address.toNat
    { base := BitVec.ofNat f.mxlen.bits base
      top := BitVec.ofNat (f.mxlen.bits + 1) (fixTop f.mxlen c.exponent.toNat base top) }

/-- `in_bounds(cap, addr, n)` (R38, R105): b ≤ addr and addr + n ≤ t in the naturals. -/
def Cap.inBounds {f : Format} (c : Cap f) (addr n : Nat) : Bool :=
  decide (c.bounds.base.toNat ≤ addr) && decide (addr + n ≤ c.bounds.top.toNat)

/-- `representable(cap, a')` (42_address_and_sealing.md R110): the bounds decoded with the new address are the same. -/
def Cap.representable {f : Format} (c : Cap f) (a' : XWord f) : Bool :=
  decide (c.bounds = Cap.bounds { c with address := a' })

end Sys2Proof
end

