-- ==== Sys2Proof/Machine/Permissions.lean ====
section
/-! DEFINITION. The permission views of a capability and their reduction: AP, the M-bit, GCPERM's and ACPERM's formats and the
load-mutable filter (40_permissions.md). -/

namespace Sys2Proof

/-! ## Permission sets -/

def Perms.has (s : Perms) : Perm → Bool
  | .r => s.r
  | .w => s.w
  | .c => s.c
  | .x => s.x
  | .asr => s.asr
  | .lm => s.lm

def Perms.none : Perms := { r := false, w := false, c := false, x := false, asr := false, lm := false }

def Perms.inter (s u : Perms) : Perms :=
  { r := s.r && u.r, w := s.w && u.w, c := s.c && u.c, x := s.x && u.x, asr := s.asr && u.asr, lm := s.lm && u.lm }

def Perms.without (s u : Perms) : Perms :=
  { r := s.r && !u.r, w := s.w && !u.w, c := s.c && !u.c, x := s.x && !u.x, asr := s.asr && !u.asr, lm := s.lm && !u.lm }

/-- `s ⊆ u`. -/
def Perms.subset (s u : Perms) : Bool :=
  (!s.r || u.r) && (!s.w || u.w) && (!s.c || u.c) && (!s.x || u.x) && (!s.asr || u.asr) && (!s.lm || u.lm)

/-- The set with the one permission in it. -/
def Perms.only (q : Perm) : Perms :=
  { r := decide (q = .r), w := decide (q = .w), c := decide (q = .c), x := decide (q = .x), asr := decide (q = .asr),
    lm := decide (q = .lm) }

/-! ## Decoding AP -/

/-- The MXLEN=32 table of R63: the set of a legal AP value, nothing for a reserved one. -/
def apTable32 : Nat → Option Perms
  | 0x00 => some Perms.none
  | 0x01 => some { Perms.none with r := true }
  | 0x04 => some { Perms.none with w := true }
  | 0x05 => some { Perms.none with r := true, w := true }
  | 0x08 => some { r := true, w := true, c := true, lm := true, x := true, asr := true }
  | 0x09 => some { r := true, w := true, c := true, lm := true, x := true, asr := true }
  | 0x0A => some { r := true, w := false, c := true, lm := true, x := true, asr := false }
  | 0x0B => some { r := true, w := false, c := true, lm := true, x := true, asr := false }
  | 0x0C => some { r := true, w := true, c := true, lm := true, x := true, asr := false }
  | 0x0D => some { r := true, w := true, c := true, lm := true, x := true, asr := false }
  | 0x0E => some { r := true, w := true, c := false, lm := false, x := true, asr := false }
  | 0x0F => some { r := true, w := true, c := false, lm := false, x := true, asr := false }
  | 0x13 => some { Perms.none with r := true, c := true }
  | 0x1B => some { Perms.none with r := true, c := true, lm := true }
  | 0x1F => some { Perms.none with r := true, w := true, c := true, lm := true }
  | _ => Option.none

/-- The MXLEN=64 bits of R65; bits 6 and 7 grant nothing without LEVELS. -/
def apBits64 (ap : Nat) : Perms :=
  { c := ap.testBit 0, w := ap.testBit 1, r := ap.testBit 2, x := ap.testBit 3, asr := ap.testBit 4, lm := ap.testBit 5 }

/-- The permissions an AP value grants; a reserved MXLEN=32 value grants none (R70, R71). -/
def apPerms (x : Mxlen) (ap : Nat) : Perms :=
  match x with
  | .rv32 => (apTable32 ap).getD Perms.none
  | .rv64 => apBits64 ap

/-- `perms(cap)` (R71): the decoded set, whatever the tag. -/
def Cap.perms {f : Format} (c : Cap f) : Perms := apPerms f.mxlen c.ap.toNat

/-- `mbit(cap)` (R68): for MXLEN=32 AP[0] in quadrant 1 and 0 elsewhere; for MXLEN=64 the field M. -/
def Cap.mbit {f : Format} (c : Cap f) : Bool :=
  match f.mxlen with
  | .rv32 => decide (c.ap.toNat / 8 = 1) && c.ap.toNat.testBit 0
  | .rv64 => decide (c.m.toNat = 1)

/-! ## Encoding AP -/

/-- The AP value of R63 with the decoded set and the M-bit; 0x00 for a set that has none. -/
def apEncode32 (s : Perms) (m : Bool) : Nat :=
  if s = { Perms.none with r := true } then 0x01
  else if s = { Perms.none with w := true } then 0x04
  else if s = { Perms.none with r := true, w := true } then 0x05
  else if s = { r := true, w := true, c := true, lm := true, x := true, asr := true } then 0x08 + m.toNat
  else if s = { r := true, w := false, c := true, lm := true, x := true, asr := false } then 0x0A + m.toNat
  else if s = { r := true, w := true, c := true, lm := true, x := true, asr := false } then 0x0C + m.toNat
  else if s = { r := true, w := true, c := false, lm := false, x := true, asr := false } then 0x0E + m.toNat
  else if s = { Perms.none with r := true, c := true } then 0x13
  else if s = { Perms.none with r := true, c := true, lm := true } then 0x1B
  else if s = { Perms.none with r := true, w := true, c := true, lm := true } then 0x1F
  else 0x00

/-- The AP value of R65 with the decoded set, bits 7 and 6 zero. -/
def apEncode64 (s : Perms) : Nat :=
  s.c.toNat + 2 * s.w.toNat + 4 * s.r.toNat + 8 * s.x.toNat + 16 * s.asr.toNat + 32 * s.lm.toNat

/-- `ap_encode(p, m)` (R75). -/
def apEncode (x : Mxlen) (s : Perms) (m : Bool) : Nat :=
  match x with
  | .rv32 => apEncode32 s m
  | .rv64 => apEncode64 s

/-- The capability with the permission set, M-bit 0 unless X is kept (R67, R75). -/
def Cap.withPerms {f : Format} (c : Cap f) (s : Perms) : Cap f :=
  { c with
    ap := BitVec.ofNat f.mxlen.apWidth (apEncode f.mxlen s (s.x && c.mbit))
    m := BitVec.ofNat f.mxlen.mWidth (s.x && c.mbit).toNat }

/-! ## `acperm_reduce` (R76) -/

/-- The set is one ACPERM may leave: for MXLEN=32 one of the eleven of R63 (P2), for MXLEN=64 no ASR without X (P3). -/
def usefulSet (x : Mxlen) (s : Perms) : Bool :=
  match x with
  | .rv32 => decide (apTable32 (apEncode32 s false) = some s)
  | .rv64 => !s.asr || s.x

/-- `acperm_reduce` (R76): whatever `Config.acpermFree` proposes where that has P1 to P3, and the empty set where it has not.
Every function with P1 to P4 is one of these; nothing else is assumed of it (log 13). -/
def acpermReduce (x : Mxlen) (s : Perms) : Perms :=
  if (Config.acpermFree x s).subset s && usefulSet x (Config.acpermFree x s) then Config.acpermFree x s else Perms.none

/-! ## GCPERM's result and ACPERM's mask (R74, R75; logs 11, 12) -/

/-- What GCPERM reports of a capability (R74). -/
def Cap.packed {f : Format} (c : Cap f) : XWord f := Config.gcpermPack f c.perms c.mbit c.sdp

/-- The bits by which `gcperm_pack` reports a permission: set in the result for that permission alone and not for the empty
set. -/
def permReport (f : Format) (q : Perm) : XWord f :=
  Config.gcpermPack f (Perms.only q) false 0 &&& ~~~ Config.gcpermPack f Perms.none false 0

/-- The bits by which `gcperm_pack` reports SDP bit j. -/
def sdpReport (f : Format) (j : Nat) : XWord f :=
  Config.gcpermPack f Perms.none false (BitVec.ofNat f.sdplen (2 ^ j)) &&& ~~~ Config.gcpermPack f Perms.none false 0

/-- The mask names what the report bits say: all of them are set in it. -/
def maskNames {f : Format} (mask report : XWord f) : Bool := decide (mask &&& report = report)

/-- The permissions the mask keeps (R75). -/
def maskPerms {f : Format} (mask : XWord f) : Perms :=
  { r := maskNames mask (permReport f .r), w := maskNames mask (permReport f .w), c := maskNames mask (permReport f .c),
    x := maskNames mask (permReport f .x), asr := maskNames mask (permReport f .asr), lm := maskNames mask (permReport f .lm) }

/-- The SDP bits the mask keeps, as a number built from bit `n - 1` down (R75). -/
def maskSdpNat {f : Format} (mask : XWord f) : Nat → Nat
  | 0 => 0
  | n + 1 => (maskNames mask (sdpReport f n)).toNat * 2 ^ n + maskSdpNat mask n

/-- The SDP bits the mask keeps (R75). -/
def maskSdp {f : Format} (mask : XWord f) : BitVec f.sdplen := BitVec.ofNat f.sdplen (maskSdpNat mask f.sdplen)

/-- ACPERM's result (R75): AP reduced, SDP anded with the mask, the tag lost by a sealed source (R117). -/
def Cap.andPerms {f : Format} (c : Cap f) (mask : XWord f) : Cap f :=
  { c.withPerms (acpermReduce f.mxlen (c.perms.inter (maskPerms mask))) with
    sdp := c.sdp &&& maskSdp mask
    tag := c.tag && !c.isSealed }

/-! ## What a tagged capability's encoding must obey (R17 items 2 to 4) -/

/-- AP is a legal value: MXLEN=32 one of the fifteen of R63; MXLEN=64 bits 7 and 6 zero (R65, D4). -/
def Cap.apLegal {f : Format} (c : Cap f) : Bool :=
  match f.mxlen with
  | .rv32 => (apTable32 c.ap.toNat).isSome
  | .rv64 => decide (c.ap.toNat < 64)

/-- The M-bit is set only with HYBRID (R66), and for MXLEN=64 only beside X (R67). -/
def Cap.mLegal {f : Format} (hybrid : Bool) (c : Cap f) : Bool :=
  !c.mbit || (hybrid && c.perms.x)

/-- R17 items 2 to 4: reserved bits 0, AP legal, M-bit legal. -/
def Cap.encodingLegal {f : Format} (hybrid : Bool) (c : Cap f) : Bool :=
  decide (c.reserved = 0) && c.apLegal && c.mLegal hybrid

/-! ## The load-mutable rule (R77 to R80) -/

/-- The AP value of a loaded capability is not a legal one (R80): MXLEN=32 a reserved value, MXLEN=64 one with bit 7 or 6 set, which
no set `acperm_reduce` leaves encodes. A tagged capability has one only in a state that breaks R17 (90_conflicts.md C7; log 24). -/
def Cap.invalidPerms {f : Format} (c : Cap f) : Bool := !c.apLegal

/-- The condition of R77: the authority grants R and C but not LM, and the loaded capability is tagged and unsealed. -/
def lmFilters {f : Format} (auth loaded : Cap f) : Bool :=
  auth.perms.r && auth.perms.c && !auth.perms.lm && loaded.tag && !loaded.isSealed

/-- `load_filter` (R77, R80): the copy that reaches the register loses W and LM and what ACPERM's rules take with them. A value
with an illegal AP keeps it or loses all permissions, as RETAIN_INVALID_LOADED_PERMS says. -/
def loadFilter {f : Format} (retainInvalid : Bool) (auth loaded : Cap f) : Cap f :=
  if lmFilters auth loaded then
    if loaded.invalidPerms then
      if retainInvalid then loaded else loaded.withPerms Perms.none
    else
      loaded.withPerms (acpermReduce f.mxlen
        (loaded.perms.without { Perms.none with w := true, lm := true }))
  else loaded

end Sys2Proof
end

