-- ==== Sys2Proof/Machine/Flags.lean ====
section
/-! DEFINITION. The ISA has no status flag (10_state.md R23): the one bit an instruction computes beside its result is the tag.
Here are the tag computations: the address update, the sealed link, and the conditions of CBLD. -/

namespace Sys2Proof

/-- `set_addr(cap, a')` (42_address_and_sealing.md R115): every other field is copied; the tag survives only an unsealed,
well-formed source whose new address is representable (R111, R112, R117). -/
def Cap.setAddr {f : Format} (c : Cap f) (a' : XWord f) : Cap f :=
  { c with
    address := a'
    tag := c.tag && !c.isSealed && !c.malformed && c.representable a' }

/-- `seal_link(pcc, a')` (R126). -/
def Cap.sealLink {f : Format} (c : Cap f) (a' : XWord f) : Cap f :=
  { c with address := a', ct := true, tag := c.tag && c.representable a' }

/-- The conditions of CBLD that follow from the source (R124): `auth` is the superset capability, `src` the bits to rebuild. -/
def cbldNecessary {f : Format} (hybrid : Bool) (auth src : Cap f) : Bool :=
  auth.tag && !auth.isSealed && !src.malformed && src.encodingLegal hybrid &&
  decide (auth.bounds.base ≤ src.bounds.base) && decide (src.bounds.top ≤ auth.bounds.top) &&
  src.perms.subset auth.perms && decide (src.sdp &&& ~~~ auth.sdp = 0)

/-- CBLD's result (R124, D29): `src` with CT 0, tagged when the necessary conditions and `cbld_extra` hold. -/
def Cap.build {f : Format} (hybrid : Bool) (auth src : Cap f) : Cap f :=
  { src with ct := false, tag := cbldNecessary hybrid auth src && Config.cbldExtra f auth src }

end Sys2Proof
end

