-- ==== Sys2Proof/WellFormed.lean ====
section
/-! DEFINITION. Which instructions a machine of the given MXLEN has a word for: the table's `mxlen` lists and its one operand
constraint (30_encoding.md R54; 42_address_and_sealing.md R121). -/

namespace Sys2Proof

/-- Is the instruction one of those for MXLEN=64 only (43_memory_access.md R156, R157)? -/
def Instr.rv64Only : Instr → Bool
  | .lwu .. => true
  | .ld .. => true
  | .sd .. => true
  | .gcperm .. => false
  | .acperm .. => false
  | .gcbase .. => false
  | .cadd .. => false
  | .caddi .. => false
  | .scaddr .. => false
  | .cbld .. => false
  | .jalr .. => false
  | .lb .. => false
  | .lh .. => false
  | .lw .. => false
  | .lbu .. => false
  | .lhu .. => false
  | .sb .. => false
  | .sh .. => false
  | .sw .. => false
  | .lc .. => false
  | .sc .. => false

/-- CADD has no word with rs2 = 0: that pattern is a separate move (R121, K5; log 9). -/
def Instr.operandsEncodable : Instr → Bool
  | .cadd _ _ rs2 => decide (rs2 ≠ 0)
  | .gcperm .. => true
  | .acperm .. => true
  | .gcbase .. => true
  | .caddi .. => true
  | .scaddr .. => true
  | .cbld .. => true
  | .jalr .. => true
  | .lb .. => true
  | .lh .. => true
  | .lw .. => true
  | .lbu .. => true
  | .lhu .. => true
  | .lwu .. => true
  | .ld .. => true
  | .sb .. => true
  | .sh .. => true
  | .sw .. => true
  | .sd .. => true
  | .lc .. => true
  | .sc .. => true

/-- The instruction has a word on a machine of this MXLEN. -/
def Instr.wf (x : Mxlen) (i : Instr) : Bool :=
  (decide (x = .rv64) || !i.rv64Only) && i.operandsEncodable

end Sys2Proof
end

