-- ==== Sys2Proof/Decode.lean ====
section
/-! DEFINITION. The decoder of the opcode table, the decoder of a machine (a parameter, R4), and the encoder, from spec/opcode_table.json and 30_encoding.md R55 and R56. No row of the table is
from the source: rows of status `unverified_recollection` (GCPERM, ACPERM, GCBASE, CADD, CADDI, SCADDR, CBLD, LC, SC) and
`general_knowledge` (the others) are taken as they stand (PRESUMED, log 8). -/

namespace Sys2Proof

/-- Why the decoder refuses (R57). -/
inductive DecodeError where
  /-- fewer than the four bytes of an instruction -/
  | truncated
  /-- the CADD pattern with rs2 = 0, a separate move that the table has no row for (R121, K5; log 9) -/
  | caddWithoutIndex
  /-- a word no row of the table maps for this MXLEN -/
  | noRow
  /-- a word this machine's decoder maps to nothing, whatever the table says (R54, D22) -/
  | notAdmitted
deriving DecidableEq, Repr

/-! ## The fields of a word (R55) -/

def opcodeOf (w : BitVec 32) : BitVec 7 := w.extractLsb' 0 7
def funct3Of (w : BitVec 32) : BitVec 3 := w.extractLsb' 12 3
def funct7Of (w : BitVec 32) : BitVec 7 := w.extractLsb' 25 7
def rdOf (w : BitVec 32) : Reg := (w.extractLsb' 7 5).toFin
def rs1Of (w : BitVec 32) : Reg := (w.extractLsb' 15 5).toFin
def rs2Of (w : BitVec 32) : Reg := (w.extractLsb' 20 5).toFin

/-- The I-format immediate, bits [31:20] (R56). -/
def immIOf (w : BitVec 32) : Imm12 := w.extractLsb' 20 12

/-- The S-format immediate, bits [31:25] above bits [11:7] (R56). -/
def immSOf (w : BitVec 32) : Imm12 := w.extractLsb' 25 7 ++ w.extractLsb' 7 5

/-! ## The decoder -/

/-- opcode 0x33: the register-to-register rows (K5). GCPERM and GCBASE have 1 and 5 in the rs2 field. -/
def decodeOp (w : BitVec 32) : Except DecodeError Instr :=
  if funct7Of w = 0x06#7 then
    if funct3Of w = 0#3 then
      if rs2Of w = 0 then .error .caddWithoutIndex else .ok (.cadd (rdOf w) (rs1Of w) (rs2Of w))
    else if funct3Of w = 1#3 then .ok (.scaddr (rdOf w) (rs1Of w) (rs2Of w))
    else if funct3Of w = 2#3 then .ok (.acperm (rdOf w) (rs1Of w) (rs2Of w))
    else if funct3Of w = 5#3 then .ok (.cbld (rdOf w) (rs1Of w) (rs2Of w))
    else .error .noRow
  else if funct7Of w = 0x08#7 then
    if funct3Of w = 0#3 then
      if rs2Of w = 1 then .ok (.gcperm (rdOf w) (rs1Of w))
      else if rs2Of w = 5 then .ok (.gcbase (rdOf w) (rs1Of w))
      else .error .noRow
    else .error .noRow
  else .error .noRow

/-- opcode 0x03: the loads (K5, K6). funct3 3 is LC for MXLEN=32 and LD for MXLEN=64. -/
def decodeLoad (x : Mxlen) (w : BitVec 32) : Except DecodeError Instr :=
  if funct3Of w = 0#3 then .ok (.lb (rdOf w) (rs1Of w) (immIOf w))
  else if funct3Of w = 1#3 then .ok (.lh (rdOf w) (rs1Of w) (immIOf w))
  else if funct3Of w = 2#3 then .ok (.lw (rdOf w) (rs1Of w) (immIOf w))
  else if funct3Of w = 3#3 then
    match x with
    | .rv32 => .ok (.lc (rdOf w) (rs1Of w) (immIOf w))
    | .rv64 => .ok (.ld (rdOf w) (rs1Of w) (immIOf w))
  else if funct3Of w = 4#3 then .ok (.lbu (rdOf w) (rs1Of w) (immIOf w))
  else if funct3Of w = 5#3 then .ok (.lhu (rdOf w) (rs1Of w) (immIOf w))
  else if funct3Of w = 6#3 then
    match x with
    | .rv32 => .error .noRow
    | .rv64 => .ok (.lwu (rdOf w) (rs1Of w) (immIOf w))
  else .error .noRow

/-- opcode 0x23: the stores (K5, K6). funct3 3 is SC for MXLEN=32 and SD for MXLEN=64; funct3 4 is SC for MXLEN=64. -/
def decodeStore (x : Mxlen) (w : BitVec 32) : Except DecodeError Instr :=
  if funct3Of w = 0#3 then .ok (.sb (rs2Of w) (rs1Of w) (immSOf w))
  else if funct3Of w = 1#3 then .ok (.sh (rs2Of w) (rs1Of w) (immSOf w))
  else if funct3Of w = 2#3 then .ok (.sw (rs2Of w) (rs1Of w) (immSOf w))
  else if funct3Of w = 3#3 then
    match x with
    | .rv32 => .ok (.sc (rs2Of w) (rs1Of w) (immSOf w))
    | .rv64 => .ok (.sd (rs2Of w) (rs1Of w) (immSOf w))
  else if funct3Of w = 4#3 then
    match x with
    | .rv32 => .error .noRow
    | .rv64 => .ok (.sc (rs2Of w) (rs1Of w) (immSOf w))
  else .error .noRow

/-- The instruction the rows of the table give a 32-bit word on a machine of this MXLEN (R54). -/
def decode (x : Mxlen) (w : BitVec 32) : Except DecodeError Instr :=
  if opcodeOf w = 0x33#7 then decodeOp w
  else if opcodeOf w = 0x1B#7 then
    if funct3Of w = 2#3 then .ok (.caddi (rdOf w) (rs1Of w) (immIOf w)) else .error .noRow
  else if opcodeOf w = 0x67#7 then
    if funct3Of w = 0#3 then .ok (.jalr (rdOf w) (rs1Of w) (immIOf w)) else .error .noRow
  else if opcodeOf w = 0x03#7 then decodeLoad x w
  else if opcodeOf w = 0x0F#7 then
    match x with
    | .rv32 => .error .noRow
    | .rv64 => if funct3Of w = 4#3 then .ok (.lc (rdOf w) (rs1Of w) (immIOf w)) else .error .noRow
  else if opcodeOf w = 0x23#7 then decodeStore x w
  else .error .noRow

/-- The bytes of a word in memory, lowest address first: little-endian (R41, R55, D8). -/
def wordBytes (w : BitVec 32) : List Byte :=
  [w.extractLsb' 0 8, w.extractLsb' 8 8, w.extractLsb' 16 8, w.extractLsb' 24 8]

/-- What a list of words says of a word: nothing, or the instruction it stands for, or that it stands for none. -/
def lookupWord : List (BitVec 32 × Option Instr) → BitVec 32 → Option (Option Instr)
  | [], _ => none
  | (v, i) :: rest, w => if v = w then some i else lookupWord rest w

/-- `decode` of a machine with this decoder (R54, D22): its own words first, then the table where it admits the table. -/
def Decoder.decode (d : Decoder) (x : Mxlen) (w : BitVec 32) : Except DecodeError Instr :=
  match lookupWord d.words w with
  | some (some i) => .ok i
  | some none => .error .notAdmitted
  | none => if d.table then Sys2Proof.decode x w else .error .notAdmitted

/-- Decode the instruction at the head of a list of bytes and return the bytes after it; every instruction is four bytes
(D18). -/
def decodeBytes (d : Decoder) (x : Mxlen) : List Byte → Except DecodeError (Instr × List Byte)
  | b0 :: b1 :: b2 :: b3 :: rest =>
    match d.decode x (b3 ++ b2 ++ b1 ++ b0) with
    | .ok i => .ok (i, rest)
    | .error e => .error e
  | _ => .error .truncated

/-! ## The encoder -/

def regBits (r : Reg) : BitVec 5 := BitVec.ofFin r

/-- R format (R55). -/
def rWord (funct7 : BitVec 7) (rs2 rs1 : BitVec 5) (funct3 : BitVec 3) (rd : BitVec 5) (opcode : BitVec 7) : BitVec 32 :=
  funct7 ++ rs2 ++ rs1 ++ funct3 ++ rd ++ opcode

/-- I format (R55). -/
def iWord (imm : Imm12) (rs1 : BitVec 5) (funct3 : BitVec 3) (rd : BitVec 5) (opcode : BitVec 7) : BitVec 32 :=
  imm ++ rs1 ++ funct3 ++ rd ++ opcode

/-- S format (R55, R56). -/
def sWord (imm : Imm12) (rs2 rs1 : BitVec 5) (funct3 : BitVec 3) (opcode : BitVec 7) : BitVec 32 :=
  imm.extractLsb' 5 7 ++ rs2 ++ rs1 ++ funct3 ++ imm.extractLsb' 0 5 ++ opcode

/-- The word of an instruction that is well-formed for this MXLEN (`Instr.wf`). -/
def encode (x : Mxlen) : Instr → BitVec 32
  | .gcperm rd cs1 => rWord 0x08#7 1#5 (regBits cs1) 0#3 (regBits rd) 0x33#7
  | .acperm cd cs1 rs2 => rWord 0x06#7 (regBits rs2) (regBits cs1) 2#3 (regBits cd) 0x33#7
  | .gcbase rd cs1 => rWord 0x08#7 5#5 (regBits cs1) 0#3 (regBits rd) 0x33#7
  | .cadd cd cs1 rs2 => rWord 0x06#7 (regBits rs2) (regBits cs1) 0#3 (regBits cd) 0x33#7
  | .caddi cd cs1 imm => iWord imm (regBits cs1) 2#3 (regBits cd) 0x1B#7
  | .scaddr cd cs1 rs2 => rWord 0x06#7 (regBits rs2) (regBits cs1) 1#3 (regBits cd) 0x33#7
  | .cbld cd cs1 cs2 => rWord 0x06#7 (regBits cs2) (regBits cs1) 5#3 (regBits cd) 0x33#7
  | .jalr cd cs1 imm => iWord imm (regBits cs1) 0#3 (regBits cd) 0x67#7
  | .lb rd cs1 imm => iWord imm (regBits cs1) 0#3 (regBits rd) 0x03#7
  | .lh rd cs1 imm => iWord imm (regBits cs1) 1#3 (regBits rd) 0x03#7
  | .lw rd cs1 imm => iWord imm (regBits cs1) 2#3 (regBits rd) 0x03#7
  | .lbu rd cs1 imm => iWord imm (regBits cs1) 4#3 (regBits rd) 0x03#7
  | .lhu rd cs1 imm => iWord imm (regBits cs1) 5#3 (regBits rd) 0x03#7
  | .lwu rd cs1 imm => iWord imm (regBits cs1) 6#3 (regBits rd) 0x03#7
  | .ld rd cs1 imm => iWord imm (regBits cs1) 3#3 (regBits rd) 0x03#7
  | .sb rs2 cs1 imm => sWord imm (regBits rs2) (regBits cs1) 0#3 0x23#7
  | .sh rs2 cs1 imm => sWord imm (regBits rs2) (regBits cs1) 1#3 0x23#7
  | .sw rs2 cs1 imm => sWord imm (regBits rs2) (regBits cs1) 2#3 0x23#7
  | .sd rs2 cs1 imm => sWord imm (regBits rs2) (regBits cs1) 3#3 0x23#7
  | .lc cd cs1 imm =>
    match x with
    | .rv32 => iWord imm (regBits cs1) 3#3 (regBits cd) 0x03#7
    | .rv64 => iWord imm (regBits cs1) 4#3 (regBits cd) 0x0F#7
  | .sc cs2 cs1 imm =>
    match x with
    | .rv32 => sWord imm (regBits cs2) (regBits cs1) 3#3 0x23#7
    | .rv64 => sWord imm (regBits cs2) (regBits cs1) 4#3 0x23#7

/-! ## The host's question -/

/-- The instruction the decoder reads from the bytes of an instruction numbered as spec/opcode_table.json numbers its bits; the
bits from `nbits` up are zero. Decoder and MXLEN are those of `State.reset`, the table and 64 (log 10): LD and SD are read from the words that
stand for LC and SC at MXLEN=32. -/
def decodeTableWord (nbits w : Nat) : Option Instr :=
  match decodeBytes Decoder.ofTable .rv64 (wordBytes (BitVec.ofNat 32 (w % 2 ^ nbits))) with
  | .ok (i, _) => some i
  | .error _ => none

end Sys2Proof
end

