-- ==== Sys2Proof/Machine/State.lean ====
section
/-! DEFINITION. The state of the machine as plain data (10_state.md), the reasons a step can stop (60_exceptions.md R131), and
the state after reset (log 2 to log 6: the source gives no reset value, R28 and R145). -/

namespace Sys2Proof.Machine

/-! ## Memory (20_memory.md R30, R31) -/

/-- `size` byte addresses from `base` up that exist. -/
structure Region where
  base : Nat
  size : Nat
deriving DecidableEq, Repr

/-- Which addresses exist, the bytes as (address, byte) pairs, and the addresses of the CLEN-aligned words whose tag is 1. -/
structure Memory where
  map : List Region
  bytes : List Host.Cell
  tags : List Nat
deriving DecidableEq, Repr

/-- What an existing address that is not listed holds. Every launch memory of R30 has one list of this form, so the value
only matters for `State.reset` (log 5). -/
def Memory.unlisted : Byte := 0

/-- Does the byte exist (R30)? The map belongs to the launch state and no step changes it. -/
def Memory.present (m : Memory) (a : Nat) : Bool := m.map.any (fun r => decide (r.base ≤ a) && decide (a < r.base + r.size))

/-- Do all n bytes from a up exist? -/
def Memory.presentRange (m : Memory) (a : Nat) : Nat → Bool
  | 0 => true
  | n + 1 => m.present a && m.presentRange (a + 1) n

/-- The canonical form: addresses strictly rising, no listed byte equal to the unlisted one, every listed byte and every tagged
word exists, tags strictly rising and only of CLEN-aligned words (R31, R147), every region inside the address space (R30). -/
def Memory.wf (x : Mxlen) (m : Memory) : Bool :=
  decide ((m.bytes.map Prod.fst).Pairwise (· < ·)) &&
  m.bytes.all (fun cell => decide (cell.2 ≠ Memory.unlisted) && m.present cell.1) &&
  decide (m.tags.Pairwise (· < ·)) &&
  m.tags.all (fun a => decide (a % x.capBytes = 0) && m.presentRange a x.capBytes) &&
  m.map.all (fun r => decide (r.base + r.size ≤ 2 ^ x.bits))

/-! ## The hart -/

/-- The six registers that exist with TID (R22, R83). Their widths are PRESUMED (log 34). No instruction reaches them. -/
structure TidRegs (f : Format) where
  utid : XWord f
  stid : XWord f
  mtid : XWord f
  utidc : Cap f
  stidc : Cap f
  mtidc : Cap f
deriving DecidableEq, Repr

/-- One hart whose widths the parameters fix. `regs` is c1 to c31: register 0 is hard-wired (R19) and not stored. `tid` is
absent without TID. -/
structure Hart (p : Params) where
  xlen : Mxlen
  regs : Vector (Cap p.format) 31
  pcc : Cap p.format
  tid : Option (TidRegs p.format)
  mem : Memory
deriving DecidableEq, Repr

/-- The machine: the parameters it is built with (R4; no step changes them, log 1) and the hart. -/
structure State where
  params : Params
  hart : Hart params
deriving DecidableEq, Repr

/-! ## Why a step stops -/

/-- The five memory accesses of R39. -/
inductive Access where
  | fetch
  | intLoad
  | intStore
  | capLoad
  | capStore
deriving DecidableEq, Repr

/-- The kind of access a fault records (R131). -/
inductive AccessKind where
  | fetch
  | load
  | store
deriving DecidableEq, Repr

/-- The sub-causes of CheriFault (R131). -/
inductive SubCause where
  | tagViolation
  | sealViolation
  | permitViolation (q : Perm)
  | boundsViolation
  | misalignedCap
deriving DecidableEq, Repr

/-- The machine stops; registers, pcc and memory are those before the instruction (R137). -/
inductive Fault where
  /-- CheriFault, raised by a fetch, load or store that fails a check of R37 or R34: the `Faulted` state of R137, with the
  address of the access and the pc of the instruction. Safe: the spec makes it terminal, and nothing is claimed of what
  follows (log 20). -/
  | cheri (cause : SubCause) (kind : AccessKind) (addr pc : Nat)
  /-- Stuck: an access the capability allows to a byte that does not exist (R37, R134). Safe (log 19). -/
  | stuck (kind : AccessKind) (addr pc : Nat)
deriving DecidableEq, Repr

/-- No step. -/
inductive Refusal where
  /-- Raised by exec's arm of an instruction without a meaning. Safe. -/
  | notModelled (mnemonic : String)
  /-- Raised by a fetch: a word the decoder maps to nothing (R57). Safe. -/
  | undecodable (why : DecodeError) (pc : Nat)
  /-- Raised by an integer load or store whose tag, seal and permission checks pass: the address is no multiple of the size, in
  bounds or not (R42, D10, R156's example). Safe (log 18). -/
  | misalignedInteger (addr : Nat)
  /-- Raised by a fetch: pc is no multiple of 4 (R128, D18). Safe (log 18). -/
  | misalignedPc (pc : Nat)
  /-- Raised by any access past 2^MXLEN that the bounds allow (R38, D32). Safe (log 16). -/
  | pastAddressSpace (addr : Nat)
  /-- Raised by JALR with offset 0 to a sealed target of odd address (R125, I27). Safe (log 23). -/
  | oddSentry (addr : Nat)
  /-- Raised by a fetch with HYBRID while pcc's M-bit is 1 (R58, R128, D2). Safe (log 22). -/
  | integerMode
  /-- Raised by every step with LEVELS (R4, D2). Safe (log 22). -/
  | levels
  /-- Raised by every step while XLEN is not MXLEN (D1, I31). Safe (log 22). -/
  | xlenNotMxlen
  /-- Raised by LWU, LD and SD with MXLEN=32, where they are no instructions (R156, R157) and the table gives them no word.
  Safe (log 33). -/
  | rv64Only
  /-- Raised by an access to a TID register with TID absent (R83). No instruction makes one. Safe (log 34). -/
  | noTid
  /-- Raised by a write of a TID register without ASR (R83, R133). No instruction makes one. Safe (log 34). -/
  | tidWithoutAsr
deriving DecidableEq, Repr

/-- What the checks of an access say. -/
inductive Check where
  | pass
  | fault (r : Fault)
  | refuse (r : Refusal)
deriving DecidableEq, Repr

/-- What a fetch gives: an instruction, or why there is none. -/
inductive Fetched where
  | instr (i : Instr)
  | fault (r : Fault)
  | refuse (r : Refusal)
deriving DecidableEq, Repr

/-! ## Reset -/

/-- The layout recollected for MXLEN=64 (K4, PRESUMED), with the eight-bit AP of D4 taking two of the reserved bits below it
(log 2, log 25). -/
def resetLayout : Layout :=
  { sdp := 53, ap := 44, m := 52, ct := 27, ef := 26, l8 := 0, tHigh := 17, te := 14, bHigh := 3, be := 0
    reserved := [28, 29, 30, 31, 32, 33, 34, 35, 36, 37, 38, 39, 40, 41, 42, 43, 57, 58, 59, 60, 61, 62, 63] }

/-- DESIGN CHOICE and PRESUMED (log 2): MXLEN=64, SDPLEN=4, the decoder of the table, no extension,
CAP_ACCESS_WITHOUT_C = clear_tag. -/
def resetParams : Params :=
  { format := { mxlen := .rv64, sdplen := 4 }, layout := resetLayout, decoder := Decoder.ofTable,
    hybrid := false, levels := false, withoutC := .clearTag, retainInvalid := false }

/-- All addresses exist (R30), every byte 0, every tag 0. DESIGN CHOICE (log 5). -/
def resetMemory (x : Mxlen) : Memory := { map := [{ base := 0, size := 2 ^ x.bits }], bytes := [], tags := [] }

/-- General registers NULL, pcc Infinite with address 0, TID absent, XLEN = MXLEN. PRESUMED and DESIGN CHOICE (log 2 to 6). -/
def resetHart (p : Params) : Hart p :=
  { xlen := p.format.mxlen, regs := Vector.replicate 31 (Cap.null p.format), pcc := Cap.infinite p.format p.hybrid,
    tid := none, mem := resetMemory p.format.mxlen }

/-- The machine right after reset. -/
def State.reset : State := { params := resetParams, hart := resetHart resetParams }

end Sys2Proof.Machine
end

