-- ==== Sys2Proof/Machine/Operands.lean ====
section
/-! DEFINITION. Operands: the general registers in their two views (00_scope.md R7, 10_state.md R19, R20), immediates
(30_encoding.md R56) and the effective address (43_memory_access.md R155). -/

namespace Sys2Proof.Machine

variable {p : Params}

/-- `c[i]`: register 0 reads NULL (R19). -/
def Hart.readC (h : Hart p) (r : Reg) : Cap p.format :=
  if hr : r.val = 0 then Cap.null p.format else h.regs[r.val - 1]

/-- `x[i]`: the address field of register i (R7). -/
def Hart.readX (h : Hart p) (r : Reg) : XWord p.format := (h.readC r).address

/-- `c[i] <- cap`: register 0 ignores writes (R19). -/
def Hart.writeC (h : Hart p) (r : Reg) (c : Cap p.format) : Hart p :=
  if hr : r.val = 0 then h else { h with regs := h.regs.set (r.val - 1) c }

/-- `x[i] <- v`: metadata and tag become 0 (R7, R20, D26). -/
def Hart.writeX (h : Hart p) (r : Reg) (v : XWord p.format) : Hart p := h.writeC r (Cap.ofInt p.format v)

/-- `pc`: the address field of pcc (R7, R21). -/
def Hart.pc (h : Hart p) : XWord p.format := h.pcc.address

/-- The immediate sign-extended to MXLEN bits (R56). -/
def immX (f : Format) (imm : Imm12) : XWord f := imm.signExtend f.mxlen.bits

/-- `ea = (address + sext(off)) mod 2^MXLEN` (R155). -/
def effectiveAddress {f : Format} (auth : Cap f) (off : Imm12) : XWord f := auth.address + immX f off

end Sys2Proof.Machine
end

