-- ==== Sys2Proof/Machine/Ops.lean ====
section
/-! DEFINITION. The named operations the meanings are made of: memory and its tags (20_memory.md R30 to R36), the checks of an
access (R37 to R42), raising the one exception (60_exceptions.md R130 to R137), advancing pcc, fetching, and access to the TID
registers (40_permissions.md R82, R83). -/

namespace Sys2Proof.Machine

/-! ## Bytes -/

/-- The byte of the address in a list of cells. -/
def cellAt : List Host.Cell → Nat → Byte
  | [], _ => Memory.unlisted
  | (b, v) :: rest, a => if a = b then v else cellAt rest a

/-- Set the byte of an address, keeping the canonical form. -/
def setCell : List Host.Cell → Nat → Byte → List Host.Cell
  | [], a, v => if v = Memory.unlisted then [] else [(a, v)]
  | (b, w) :: rest, a, v =>
    if a < b then (if v = Memory.unlisted then (b, w) :: rest else (a, v) :: (b, w) :: rest)
    else if a = b then (if v = Memory.unlisted then rest else (a, v) :: rest)
    else (b, w) :: setCell rest a v

def Memory.readByte (m : Memory) (a : Nat) : Byte := cellAt m.bytes a

def Memory.writeByte (m : Memory) (a : Nat) (v : Byte) : Memory := { m with bytes := setCell m.bytes a v }

/-- The n bytes from a up, lowest address first. -/
def Memory.bytesAt (m : Memory) (a : Nat) : Nat → List Byte
  | 0 => []
  | n + 1 => m.readByte a :: m.bytesAt (a + 1) n

/-- `MemRead(addr, n)`: the byte at the lowest address holds bits [7:0] (R32, R41). Reads no tag. -/
def Memory.load (m : Memory) (a : Nat) : Nat → Nat
  | 0 => 0
  | n + 1 => (m.readByte a).toNat + 256 * m.load (a + 1) n

/-- The bytes of `v` at a and up, least significant first (R41); no tag is looked at. -/
def Memory.storeBytes (m : Memory) (a : Nat) : Nat → Nat → Memory
  | 0, _ => m
  | n + 1, v => (m.writeByte a (BitVec.ofNat 8 v)).storeBytes (a + 1) n (v / 256)

/-! ## Tags (R31, R33, R36) -/

/-- The tag of the CLEN-aligned word at the address. -/
def Memory.tagAt (m : Memory) (word : Nat) : Bool := m.tags.contains word

/-- Does the word of `size` bytes at `word` hold one of the n bytes from a up? -/
def wordTouched (size word a n : Nat) : Bool := decide (0 < n) && decide (word < a + n) && decide (a < word + size)

/-- Put an address into a strictly rising list. -/
def insertRising : List Nat → Nat → List Nat
  | [], a => [a]
  | b :: rest, a => if a < b then a :: b :: rest else if a = b then b :: rest else b :: insertRising rest a

/-- The tag of every word with an overwritten byte becomes 0 (R33). -/
def Memory.clearTags (m : Memory) (x : Mxlen) (a n : Nat) : Memory :=
  { m with tags := m.tags.filter (fun word => !wordTouched x.capBytes word a n) }

/-- The tag of the word becomes `tag`. -/
def Memory.setTag (m : Memory) (word : Nat) (tag : Bool) : Memory :=
  { m with tags := if tag then insertRising m.tags word else m.tags.filter (fun w => decide (w ≠ word)) }

/-- `MemWrite(addr, n, v)` (R33). -/
def Memory.write (m : Memory) (x : Mxlen) (a n v : Nat) : Memory := (m.storeBytes a n v).clearTags x a n

/-- `MemReadCap(addr)` (R35). -/
def Memory.readCap {f : Format} (l : Layout) (m : Memory) (a : Nat) : Cap f :=
  bitsToCap l (m.tagAt a) (m.load a f.mxlen.capBytes)

/-- `MemWriteCap(addr, cap)`: CLEN bits and the tag as a unit (R34, R36). -/
def Memory.writeCap {f : Format} (l : Layout) (m : Memory) (a : Nat) (c : Cap f) : Memory :=
  (m.storeBytes a f.mxlen.capBytes (capToBits l c)).setTag a c.tag

/-! ## What an access must be granted (R37 to R40) -/

def Access.kind : Access → AccessKind
  | .fetch => .fetch
  | .intLoad => .load
  | .intStore => .store
  | .capLoad => .load
  | .capStore => .store

/-- The permissions an access needs or faults without (R39). C is one of them only with CAP_ACCESS_WITHOUT_C = fault. -/
def Access.needs (withoutC : WithoutC) : Access → List Perm
  | .fetch => [.x]
  | .intLoad => [.r]
  | .intStore => [.w]
  | .capLoad => if withoutC = .fault then [.r, .c] else [.r]
  | .capStore => if withoutC = .fault then [.w, .c] else [.w]

/-- The first of the first three conditions of R37 that fails, in the order tag, seal, permission (R40). -/
def grantViolation {f : Format} (auth : Cap f) (needs : List Perm) : Option SubCause :=
  if !auth.tag then some .tagViolation
  else if auth.isSealed then some .sealViolation
  else (needs.find? (fun q => !auth.perms.has q)).map .permitViolation

variable {p : Params}

/-- TAKING THE EXCEPTION (R131, R137): CheriFault is terminal, so all it does is record the sub-cause, the access kind, the
address and the pc; no register, pcc or memory changes, and there is no return from it (R139). -/
def Hart.raise (h : Hart p) (cause : SubCause) (access : Access) (addr : Nat) : Fault :=
  .cheri cause access.kind addr h.pc.toNat

/-- What a misaligned access does: a capability access raises MisalignedCap (R34), the others are refused (R42, R128). -/
def Hart.misaligned (h : Hart p) (access : Access) (addr : Nat) : Check :=
  match access with
  | .fetch => .refuse (.misalignedPc addr)
  | .intLoad => .refuse (.misalignedInteger addr)
  | .intStore => .refuse (.misalignedInteger addr)
  | .capLoad => .fault (h.raise .misalignedCap access addr)
  | .capStore => .fault (h.raise .misalignedCap access addr)

/-- An access of integer data. -/
def Access.isInteger : Access → Bool
  | .intLoad => true
  | .intStore => true
  | .fetch => false
  | .capLoad => false
  | .capStore => false

/-- All checks of an access of n bytes at addr authorised by `auth`, in order: tag, seal and permission (R37, R40); the alignment of
an integer access, which is refused when misaligned, in bounds or not (R42, R156's example; log 18); the bounds (R37, R38); an end
past 2^MXLEN (R38); the alignment of a capability access or fetch (R135, R128); the existence of the bytes (R37). -/
def Hart.check (h : Hart p) (access : Access) (auth : Cap p.format) (addr n : Nat) : Check :=
  match grantViolation auth (access.needs p.withoutC) with
  | some cause => .fault (h.raise cause access addr)
  | none =>
    if access.isInteger ∧ addr % n ≠ 0 then h.misaligned access addr
    else if !auth.inBounds addr n then .fault (h.raise .boundsViolation access addr)
    else if 2 ^ p.format.mxlen.bits < addr + n then .refuse (.pastAddressSpace addr)
    else if addr % n ≠ 0 then h.misaligned access addr
    else if h.mem.presentRange addr n then .pass
    else .fault (.stuck access.kind addr h.pc.toNat)

/-- Go on to the state when the checks pass. -/
def Check.andNext (k : Check) (h' : Hart p) : Host.Outcome (Hart p) Fault Refusal :=
  match k with
  | .pass => .next h'
  | .fault r => .fault r
  | .refuse r => .refused r

/-- The tag of a capability moved without C-permission is cleared where the parameter does not make it fault (R39, R158, R159,
D31). -/
def tagWithC {f : Format} (auth v : Cap f) : Cap f := if auth.perms.c then v else { v with tag := false }

/-! ## Sequencing -/

/-- pc + 4 modulo 2^MXLEN. -/
def Hart.nextPc (h : Hart p) : XWord p.format := h.pc + 4

/-- Sequential advance, the tag unchanged (42_address_and_sealing.md R127; log 32). -/
def Hart.advance (h : Hart p) : Hart p := { h with pcc := { h.pcc with address := h.nextPc } }

/-- Fetch and decode the instruction at pc (R128): the checks of a 4-byte fetch through pcc, the mode (R58), then the word. -/
def Hart.fetch (h : Hart p) : Fetched :=
  match h.check .fetch h.pcc h.pc.toNat 4 with
  | .fault r => .fault r
  | .refuse r => .refuse r
  | .pass =>
    if p.hybrid && h.pcc.mbit then .refuse .integerMode
    else
      match decodeBytes p.decoder p.format.mxlen (h.mem.bytesAt h.pc.toNat 4) with
      | .ok (i, _) => .instr i
      | .error e => .refuse (.undecodable e h.pc.toNat)

/-- Put an instruction word where the hart fetches next (log 7): the four bytes at pc, made to exist, their word's tag
cleared. -/
def Hart.placeWord (h : Hart p) (w : Nat) : Hart p :=
  let map := if h.mem.presentRange h.pc.toNat 4 then h.mem.map else { base := h.pc.toNat, size := 4 } :: h.mem.map
  { h with mem := Memory.write { h.mem with map := map } p.format.mxlen h.pc.toNat 4 w }

/-- The outcome of the hart as the outcome of the machine: the parameters stay. -/
def liftHart (o : Host.Outcome (Hart p) Fault Refusal) : Host.Outcome State Fault Refusal :=
  match o with
  | .next h' => .next { params := p, hart := h' }
  | .fault r => .fault r
  | .refused r => .refused r

/-! ## System registers (R82, R83): no instruction of the table reaches them (log 34) -/

/-- pcc grants ASR: what a privileged CSR access needs beside its privilege mode (R61, R82). -/
def Hart.grantsAsr (h : Hart p) : Bool := h.pcc.tag && !h.pcc.isSealed && h.pcc.perms.asr

/-- A read of the TID registers needs no ASR (R83). -/
def Hart.readTid (h : Hart p) : Except Refusal (TidRegs p.format) :=
  match h.tid with
  | none => .error .noTid
  | some t => .ok t

/-- A write of the TID registers needs ASR (R83). -/
def Hart.writeTid (h : Hart p) (t : TidRegs p.format) : Host.Outcome (Hart p) Fault Refusal :=
  match h.tid with
  | none => .refused .noTid
  | some _ => if h.grantsAsr then .next { h with tid := some t } else .refused .tidWithoutAsr

end Sys2Proof.Machine
end

