-- ==== Sys2Proof/Machine/Derive.lean ====
section
/-! DEFINITION. ACPERM, CADD, CADDI, SCADDR and CBLD: a capability made from capabilities. None raises an exception: a
manipulation that is not allowed gives a result with the tag cleared (60_exceptions.md R132). Sources are read before the
destination is written. -/

namespace Sys2Proof.Machine

/-- ACPERM (40_permissions.md R75). -/
def execAcperm (cd cs1 rs2 : Reg) (s : State) : Host.Outcome State Fault Refusal :=
  liftHart (.next (s.hart.writeC cd ((s.hart.readC cs1).andPerms (s.hart.readX rs2))).advance)

/-- CADD (42_address_and_sealing.md R121): the whole x[rs2] is added modulo 2^MXLEN. -/
def execCadd (cd cs1 rs2 : Reg) (s : State) : Host.Outcome State Fault Refusal :=
  liftHart (.next (s.hart.writeC cd
    ((s.hart.readC cs1).setAddr ((s.hart.readC cs1).address + s.hart.readX rs2))).advance)

/-- CADDI (R122). -/
def execCaddi (cd cs1 : Reg) (imm : Imm12) (s : State) : Host.Outcome State Fault Refusal :=
  liftHart (.next (s.hart.writeC cd
    ((s.hart.readC cs1).setAddr ((s.hart.readC cs1).address + immX s.params.format imm))).advance)

/-- SCADDR (R123). -/
def execScaddr (cd cs1 rs2 : Reg) (s : State) : Host.Outcome State Fault Refusal :=
  liftHart (.next (s.hart.writeC cd ((s.hart.readC cs1).setAddr (s.hart.readX rs2))).advance)

/-- CBLD (R124): cs1 is the superset capability, cs2 the bits to rebuild. -/
def execCbld (cd cs1 cs2 : Reg) (s : State) : Host.Outcome State Fault Refusal :=
  liftHart (.next (s.hart.writeC cd
    (Cap.build s.params.hybrid (s.hart.readC cs1) (s.hart.readC cs2))).advance)

end Sys2Proof.Machine
end

