-- ==== Sys2Proof/Machine/Inspect.lean ====
section
/-! DEFINITION. GCPERM and GCBASE: a view of a capability as an integer. Neither looks at the tag or the seal (log 30). -/

namespace Sys2Proof.Machine

/-- GCPERM (40_permissions.md R74): the packed view of the decoded permission set, the M-bit and SDP. -/
def execGcperm (rd cs1 : Reg) (s : State) : Host.Outcome State Fault Refusal :=
  liftHart (.next (s.hart.writeX rd (s.hart.readC cs1).packed).advance)

/-- GCBASE (41_bounds.md R104): the decoded base, 0 for malformed bounds. -/
def execGcbase (rd cs1 : Reg) (s : State) : Host.Outcome State Fault Refusal :=
  liftHart (.next (s.hart.writeX rd (s.hart.readC cs1).bounds.base).advance)

end Sys2Proof.Machine
end

