-- ==== Sys2Proof/Machine/Jump.lean ====
section
/-! DEFINITION. JALR through a capability (42_address_and_sealing.md R125, R126, D28). -/

namespace Sys2Proof.Machine

/-- The number with bit 0 cleared (R125, K12). -/
def clearBit0 {w : Nat} (a : BitVec w) : BitVec w := a &&& ~~~1#w

/-- The new pcc of a jump, or nothing where the target is a sentry of odd address and the offset is 0 (R125): a sentry at offset
0 is unsealed, every other target moves by the offset as an address update. -/
def jumpTarget {f : Format} (target : Cap f) (imm : Imm12) : Option (Cap f) :=
  if target.isSealed && decide (imm = 0) then
    if target.address.getLsbD 0 then none else some { target with ct := false }
  else some (target.setAddr (clearBit0 (effectiveAddress target imm)))

/-- JALR: the link is pcc at pc + 4, sealed (R126); the target is read before the link is written; the checks on the new pcc are
those of the next fetch (R128). -/
def execJalr (cd cs1 : Reg) (imm : Imm12) (s : State) : Host.Outcome State Fault Refusal :=
  match jumpTarget (s.hart.readC cs1) imm with
  | none => .refused (.oddSentry (s.hart.readC cs1).address.toNat)
  | some new =>
    liftHart (.next { s.hart.writeC cd (s.hart.pcc.sealLink s.hart.nextPc) with pcc := new })

end Sys2Proof.Machine
end

