-- ==== Sys2Proof/Machine/LoadStore.lean ====
section
/-! DEFINITION. Loads and stores through a capability register: the four abstract operations of 43_memory_access.md (R155 to R159,
D34) and their instances. -/

namespace Sys2Proof.Machine

variable {p : Params}

/-- The n bytes read as an MXLEN-bit integer, sign- or zero-extended (R156). -/
def extendLoad (f : Format) (n : Nat) (signed : Bool) (v : Nat) : XWord f :=
  if signed then (BitVec.ofNat (8 * n) v).signExtend f.mxlen.bits else (BitVec.ofNat (8 * n) v).setWidth f.mxlen.bits

/-- LoadInt(rd, cs1, off, n, signed) (R156). -/
def Hart.loadInt (h : Hart p) (rd cs1 : Reg) (imm : Imm12) (n : Nat) (signed : Bool) : Host.Outcome (Hart p) Fault Refusal :=
  (h.check .intLoad (h.readC cs1) (effectiveAddress (h.readC cs1) imm).toNat n).andNext
    (h.writeX rd (extendLoad p.format n signed (h.mem.load (effectiveAddress (h.readC cs1) imm).toNat n))).advance

/-- StoreInt(rs2, cs1, off, n) (R157): the low 8n bits of x[rs2]. -/
def Hart.storeInt (h : Hart p) (rs2 cs1 : Reg) (imm : Imm12) (n : Nat) : Host.Outcome (Hart p) Fault Refusal :=
  (h.check .intStore (h.readC cs1) (effectiveAddress (h.readC cs1) imm).toNat n).andNext
    (Hart.advance { h with
      mem := h.mem.write p.format.mxlen (effectiveAddress (h.readC cs1) imm).toNat n ((h.readX rs2).toNat % 2 ^ (8 * n)) })

/-- The value LoadCap writes: the word read through `auth`, its tag cleared without C, then filtered (R158). -/
def Hart.loadedCap (h : Hart p) (auth : Cap p.format) (addr : Nat) : Cap p.format :=
  loadFilter p.retainInvalid auth (tagWithC auth (h.mem.readCap p.layout addr))

/-- LoadCap(cd, cs1, off) (R158). -/
def Hart.loadCap (h : Hart p) (cd cs1 : Reg) (imm : Imm12) : Host.Outcome (Hart p) Fault Refusal :=
  (h.check .capLoad (h.readC cs1) (effectiveAddress (h.readC cs1) imm).toNat p.format.mxlen.capBytes).andNext
    (h.writeC cd (h.loadedCap (h.readC cs1) (effectiveAddress (h.readC cs1) imm).toNat)).advance

/-- StoreCap(cs2, cs1, off) (R159). -/
def Hart.storeCap (h : Hart p) (cs2 cs1 : Reg) (imm : Imm12) : Host.Outcome (Hart p) Fault Refusal :=
  (h.check .capStore (h.readC cs1) (effectiveAddress (h.readC cs1) imm).toNat p.format.mxlen.capBytes).andNext
    (Hart.advance { h with
      mem := h.mem.writeCap p.layout (effectiveAddress (h.readC cs1) imm).toNat (tagWithC (h.readC cs1) (h.readC cs2)) })

/-- An instruction that exists for MXLEN=64 only (R156, R157; log 33). -/
def onlyRv64 (s : State) (o : Host.Outcome State Fault Refusal) : Host.Outcome State Fault Refusal :=
  match s.params.format.mxlen with
  | .rv32 => .refused .rv64Only
  | .rv64 => o

/-! ## The instances of LoadInt -/

def execLb (rd cs1 : Reg) (imm : Imm12) (s : State) : Host.Outcome State Fault Refusal :=
  liftHart (s.hart.loadInt rd cs1 imm 1 true)

def execLh (rd cs1 : Reg) (imm : Imm12) (s : State) : Host.Outcome State Fault Refusal :=
  liftHart (s.hart.loadInt rd cs1 imm 2 true)

def execLw (rd cs1 : Reg) (imm : Imm12) (s : State) : Host.Outcome State Fault Refusal :=
  liftHart (s.hart.loadInt rd cs1 imm 4 true)

def execLbu (rd cs1 : Reg) (imm : Imm12) (s : State) : Host.Outcome State Fault Refusal :=
  liftHart (s.hart.loadInt rd cs1 imm 1 false)

def execLhu (rd cs1 : Reg) (imm : Imm12) (s : State) : Host.Outcome State Fault Refusal :=
  liftHart (s.hart.loadInt rd cs1 imm 2 false)

def execLwu (rd cs1 : Reg) (imm : Imm12) (s : State) : Host.Outcome State Fault Refusal :=
  onlyRv64 s (liftHart (s.hart.loadInt rd cs1 imm 4 false))

/-- With n * 8 = MXLEN the extension is the identity. -/
def execLd (rd cs1 : Reg) (imm : Imm12) (s : State) : Host.Outcome State Fault Refusal :=
  onlyRv64 s (liftHart (s.hart.loadInt rd cs1 imm 8 false))

/-! ## The instances of StoreInt -/

def execSb (rs2 cs1 : Reg) (imm : Imm12) (s : State) : Host.Outcome State Fault Refusal :=
  liftHart (s.hart.storeInt rs2 cs1 imm 1)

def execSh (rs2 cs1 : Reg) (imm : Imm12) (s : State) : Host.Outcome State Fault Refusal :=
  liftHart (s.hart.storeInt rs2 cs1 imm 2)

def execSw (rs2 cs1 : Reg) (imm : Imm12) (s : State) : Host.Outcome State Fault Refusal :=
  liftHart (s.hart.storeInt rs2 cs1 imm 4)

def execSd (rs2 cs1 : Reg) (imm : Imm12) (s : State) : Host.Outcome State Fault Refusal :=
  onlyRv64 s (liftHart (s.hart.storeInt rs2 cs1 imm 8))

/-! ## LoadCap and StoreCap -/

def execLc (cd cs1 : Reg) (imm : Imm12) (s : State) : Host.Outcome State Fault Refusal :=
  liftHart (s.hart.loadCap cd cs1 imm)

def execSc (cs2 cs1 : Reg) (imm : Imm12) (s : State) : Host.Outcome State Fault Refusal :=
  liftHart (s.hart.storeCap cs2 cs1 imm)

end Sys2Proof.Machine
end

