-- ==== Sys2Proof/Machine/Dispatch.lean ====
section
/-! DEFINITION. The meaning of every instruction, one arm per constructor. -/

namespace Sys2Proof.Machine

def exec (i : Instr) (s : State) : Host.Outcome State Fault Refusal :=
  match i with
  | .gcperm rd cs1 => Sys2Proof.Machine.execGcperm rd cs1 s
  | .acperm cd cs1 rs2 => Sys2Proof.Machine.execAcperm cd cs1 rs2 s
  | .gcbase rd cs1 => Sys2Proof.Machine.execGcbase rd cs1 s
  | .cadd cd cs1 rs2 => Sys2Proof.Machine.execCadd cd cs1 rs2 s
  | .caddi cd cs1 imm => Sys2Proof.Machine.execCaddi cd cs1 imm s
  | .scaddr cd cs1 rs2 => Sys2Proof.Machine.execScaddr cd cs1 rs2 s
  | .cbld cd cs1 cs2 => Sys2Proof.Machine.execCbld cd cs1 cs2 s
  | .jalr cd cs1 imm => Sys2Proof.Machine.execJalr cd cs1 imm s
  | .lb rd cs1 imm => Sys2Proof.Machine.execLb rd cs1 imm s
  | .lh rd cs1 imm => Sys2Proof.Machine.execLh rd cs1 imm s
  | .lw rd cs1 imm => Sys2Proof.Machine.execLw rd cs1 imm s
  | .lbu rd cs1 imm => Sys2Proof.Machine.execLbu rd cs1 imm s
  | .lhu rd cs1 imm => Sys2Proof.Machine.execLhu rd cs1 imm s
  | .lwu rd cs1 imm => Sys2Proof.Machine.execLwu rd cs1 imm s
  | .ld rd cs1 imm => Sys2Proof.Machine.execLd rd cs1 imm s
  | .sb rs2 cs1 imm => Sys2Proof.Machine.execSb rs2 cs1 imm s
  | .sh rs2 cs1 imm => Sys2Proof.Machine.execSh rs2 cs1 imm s
  | .sw rs2 cs1 imm => Sys2Proof.Machine.execSw rs2 cs1 imm s
  | .sd rs2 cs1 imm => Sys2Proof.Machine.execSd rs2 cs1 imm s
  | .lc cd cs1 imm => Sys2Proof.Machine.execLc cd cs1 imm s
  | .sc cs2 cs1 imm => Sys2Proof.Machine.execSc cs2 cs1 imm s

end Sys2Proof.Machine
end

