-- ==== Sys2Proof/Machine/Step.lean ====
section
/-! DEFINITION. One step: the machines the spec covers (R4, D1), the fetch (R128), the instruction. -/

namespace Sys2Proof.Machine

/-- Fetch and run one instruction. LEVELS and an XLEN other than MXLEN are refused (R4, D1, D2). -/
def step (s : State) : Host.Outcome State Fault Refusal :=
  if s.params.levels then .refused .levels
  else if s.hart.xlen ≠ s.params.format.mxlen then .refused .xlenNotMxlen
  else
    match s.hart.fetch with
    | .instr i => exec i s
    | .fault r => .fault r
    | .refuse r => .refused r

/-- The state with an instruction of the opcode table where step fetches next: it stands for loading a program from outside the
machine (log 7). -/
def State.withFetchWord (s : State) (nbits w : Nat) : State :=
  { params := s.params, hart := s.hart.placeWord (w % 2 ^ nbits % 2 ^ 32) }

end Sys2Proof.Machine
end

