-- ==== Sys2Proof/Safety.lean ====
section
/-! DEFINITION. What a sound machine looks like, in the terms statements use: the invariants of tagged capabilities (10_state.md
R17, R18), which capabilities a hart holds, and the order of authority between capabilities (R12, R29). -/

namespace Sys2Proof

/-- The invariants of a tagged capability (R17): bounds not malformed (1), reserved bits 0 (2), AP legal (3), M-bit legal (4),
address representable (5, automatic with this encoding). -/
def Cap.valid {f : Format} (hybrid : Bool) (c : Cap f) : Bool :=
  !c.malformed && c.encodingLegal hybrid && c.representable c.address

/-- `c` has no more authority than `d`: its bounds lie within d's, its permissions and SDP bits are among d's. -/
def Cap.within {f : Format} (c d : Cap f) : Bool :=
  decide (d.bounds.base ≤ c.bounds.base) && decide (c.bounds.top ≤ d.bounds.top) &&
  c.perms.subset d.perms && decide (c.sdp &&& ~~~ d.sdp = 0)

namespace Machine

variable {p : Params}

/-- The capabilities of the TID registers, if there are any. -/
def tidCaps (t : Option (TidRegs p.format)) : List (Cap p.format) :=
  match t with
  | none => []
  | some t => [t.utidc, t.stidc, t.mtidc]

/-- A tagged capability that stands in pcc, in a register, in a TID register or in a tagged word of memory. -/
def Hart.Holds (h : Hart p) (c : Cap p.format) : Prop :=
  c.tag = true ∧
  (c = h.pcc ∨ (∃ r : Reg, c = h.readC r) ∨ c ∈ tidCaps h.tid ∨ ∃ a ∈ h.mem.tags, c = h.mem.readCap p.layout a)

/-- The launch premise of 70_reset_and_hazards.md R147 as far as every step keeps it: the parameters are ones the spec admits,
memory is in its canonical form, and every tagged capability the hart holds obeys R17. -/
structure Hart.Inv (h : Hart p) : Prop where
  params : p.wf = true
  mem : h.mem.wf p.format.mxlen = true
  caps : ∀ c, h.Holds c → c.valid p.hybrid = true

def State.Inv (s : State) : Prop := s.hart.Inv

/-- The whole launch premise (R147; D1, D2): item 1 and the HYBRID = false part of item 3 are in `Hart.Inv`, item 4 is how register 0
reads; then pc a multiple of 4 (item 2), pcc's M-bit 0 with HYBRID (item 3), no LEVELS, XLEN = MXLEN. -/
def State.Launch (s : State) : Prop :=
  s.Inv ∧ s.hart.pc.toNat % 4 = 0 ∧ (s.params.hybrid = true → s.hart.pcc.mbit = false) ∧ s.params.levels = false ∧
    s.hart.xlen = s.params.format.mxlen

/-! ## The vocabulary of results and frames -/

/-- An aligned access of n bytes at ea is allowed (R37, R38, R42): the authority is tagged, unsealed, grants the permissions,
its bounds hold every byte, and the bytes exist. -/
structure Hart.Authorised (h : Hart p) (auth : Cap p.format) (needs : List Perm) (ea n : Nat) : Prop where
  tag : auth.tag = true
  unsealed : auth.ct = false
  perms : ∀ q ∈ needs, auth.perms.has q = true
  low : auth.bounds.base.toNat ≤ ea
  high : ea + n ≤ auth.bounds.top.toNat
  aligned : ea % n = 0
  present : ∀ x, ea ≤ x → x < ea + n → h.mem.present x = true

/-- `h'` is `h` with the value in register cd (nothing written where cd is 0, which stays NULL), pc advanced by 4 with the tag
and every other field of pcc unchanged, and nothing else changed: no other register, no byte, no tag of memory, no TID register. -/
structure Hart.OnlyWrites (h h' : Hart p) (cd : Reg) (v : Cap p.format) : Prop where
  result : h'.readC cd = if cd = 0 then Cap.null p.format else v
  regs : ∀ r, r ≠ cd → h'.readC r = h.readC r
  pcc : h'.pcc = { h.pcc with address := h.pc + 4 }
  bytes : ∀ a, h'.mem.readByte a = h.mem.readByte a
  tags : ∀ a, h'.mem.tagAt a = h.mem.tagAt a
  map : h'.mem.map = h.mem.map
  tid : h'.tid = h.tid
  xlen : h'.xlen = h.xlen

/-- `h'` is `h` with memory changed at most in the n bytes from a up and in the tag of the CLEN-aligned word that holds a, pc
advanced by 4, and nothing else changed. -/
structure Hart.OnlyStores (h h' : Hart p) (a n : Nat) : Prop where
  regs : ∀ r, h'.readC r = h.readC r
  pcc : h'.pcc = { h.pcc with address := h.pc + 4 }
  bytes : ∀ x, ¬ (a ≤ x ∧ x < a + n) → h'.mem.readByte x = h.mem.readByte x
  tags : ∀ word, word ≠ a - a % p.format.mxlen.capBytes → h'.mem.tagAt word = h.mem.tagAt word
  map : h'.mem.map = h.mem.map
  tid : h'.tid = h.tid
  xlen : h'.xlen = h.xlen

end Machine

/-- The memory access an instruction makes, as R39 and R156 to R159 say it; `exec` does not read this. -/
structure MemAccess where
  kind : Machine.AccessKind
  /-- integer data, admitted only when naturally aligned (R42) -/
  integer : Bool
  /-- the permissions it faults without, in the order they are reported -/
  needs : List Perm
  /-- the register of the authority -/
  auth : Reg
  off : Imm12
  size : Nat
deriving DecidableEq, Repr

/-- An integer load needs R, an integer store W, a capability load R, a capability store W, and the last two C as well where
CAP_ACCESS_WITHOUT_C is fault (R39). -/
def Instr.memAccess (p : Params) : Instr → Option MemAccess
  | .lb _ cs1 imm => some { kind := .load, integer := true, needs := [.r], auth := cs1, off := imm, size := 1 }
  | .lh _ cs1 imm => some { kind := .load, integer := true, needs := [.r], auth := cs1, off := imm, size := 2 }
  | .lw _ cs1 imm => some { kind := .load, integer := true, needs := [.r], auth := cs1, off := imm, size := 4 }
  | .lbu _ cs1 imm => some { kind := .load, integer := true, needs := [.r], auth := cs1, off := imm, size := 1 }
  | .lhu _ cs1 imm => some { kind := .load, integer := true, needs := [.r], auth := cs1, off := imm, size := 2 }
  | .lwu _ cs1 imm => some { kind := .load, integer := true, needs := [.r], auth := cs1, off := imm, size := 4 }
  | .ld _ cs1 imm => some { kind := .load, integer := true, needs := [.r], auth := cs1, off := imm, size := 8 }
  | .sb _ cs1 imm => some { kind := .store, integer := true, needs := [.w], auth := cs1, off := imm, size := 1 }
  | .sh _ cs1 imm => some { kind := .store, integer := true, needs := [.w], auth := cs1, off := imm, size := 2 }
  | .sw _ cs1 imm => some { kind := .store, integer := true, needs := [.w], auth := cs1, off := imm, size := 4 }
  | .sd _ cs1 imm => some { kind := .store, integer := true, needs := [.w], auth := cs1, off := imm, size := 8 }
  | .lc _ cs1 imm =>
    some { kind := .load, integer := false, needs := if p.withoutC = .fault then [.r, .c] else [.r], auth := cs1, off := imm,
           size := p.format.mxlen.capBytes }
  | .sc _ cs1 imm =>
    some { kind := .store, integer := false, needs := if p.withoutC = .fault then [.w, .c] else [.w], auth := cs1, off := imm,
           size := p.format.mxlen.capBytes }
  | .gcperm .. => none
  | .acperm .. => none
  | .gcbase .. => none
  | .cadd .. => none
  | .caddi .. => none
  | .scaddr .. => none
  | .cbld .. => none
  | .jalr .. => none

end Sys2Proof
end

