-- ==== Sys2Proof/Certificates/Slice0/Obligations.lean ====
section
/-! DEFINITION. The statements for the provers, from the numbered rules of spec/. A statement over every state is one over the
parameters p and a hart h of their widths: the state is { params := p, hart := h }, so it holds for MXLEN 32 and 64 and for every
value of the open parameters. -/

open Sys2Proof Sys2Proof.Machine

/-! ## Encoding -/

/-- Decoding the word of a well-formed instruction gives it back, for both MXLEN; so does decoding its four bytes with the
table's decoder, which leaves the bytes after them. The encodings are spec/opcode_table.json's (log 8). -/
def Obligations.DecodeOfEncodeIsTheInstruction : Prop :=
  ∀ (x : Mxlen) (i : Instr), i.wf x = true →
    decode x (encode x i) = .ok i ∧ ∀ rest, decodeBytes Decoder.ofTable x (wordBytes (encode x i) ++ rest) = .ok (i, rest)

/-- A word that decodes is the word of the instruction it decodes to, which is well-formed: no two words mean the same, and
nothing outside the table's patterns decodes. -/
def Obligations.EncodeOfDecodeIsTheWord : Prop :=
  ∀ (x : Mxlen) (w : BitVec 32) (i : Instr), decode x w = .ok i → i.wf x = true ∧ encode x i = w

/-- The twenty words of 95_test_vectors.md programs 1 to 4 decode to the instructions written beside them (log 8). -/
def Obligations.ProgramWordsDecode : Prop :=
  (decode .rv32 0x0C2081B3#32 = .ok (.cadd 3 1 2) ∧ decode .rv32 0x0011A21B#32 = .ok (.caddi 4 3 1) ∧
    decode .rv32 0x105182B3#32 = .ok (.gcbase 5 3) ∧ decode .rv32 0x10520333#32 = .ok (.gcbase 6 4) ∧
    decode .rv32 0x0C5093B3#32 = .ok (.scaddr 7 1 5)) ∧
  (decode .rv32 0x000082E7#32 = .ok (.jalr 5 1 0) ∧ decode .rv32 0x10528333#32 = .ok (.gcbase 6 5) ∧
    decode .rv32 0x0042A39B#32 = .ok (.caddi 7 5 4) ∧ decode .rv32 0x00028067#32 = .ok (.jalr 0 5 0) ∧
    decode .rv32 0x10508433#32 = .ok (.gcbase 8 1)) ∧
  (decode .rv32 0x0020B423#32 = .ok (.sc 2 1 8) ∧ decode .rv32 0x0080B203#32 = .ok (.lc 4 1 8) ∧
    decode .rv32 0x00308623#32 = .ok (.sb 3 1 12) ∧ decode .rv32 0x0080B283#32 = .ok (.lc 5 1 8) ∧
    decode .rv32 0x0080A303#32 = .ok (.lw 6 1 8) ∧ decode .rv32 0x0400A383#32 = .ok (.lw 7 1 64)) ∧
  decode .rv64 0x105505B3#32 = .ok (.gcbase 11 10) ∧ decode .rv64 0x0CB51633#32 = .ok (.scaddr 12 10 11) ∧
    decode .rv64 0xFFF6269B#32 = .ok (.caddi 13 12 0xFFF#12) ∧ decode .rv64 0x0CE607B3#32 = .ok (.cadd 15 12 14)

/-- The decoder of a machine is an open parameter: every function from words to optional instructions is the decoder of some
machine, and the one that admits no row of the table maps no word (D22). A statement over all parameters ranges over all of
them. -/
def Obligations.EveryDecoderIsAParameter : Prop :=
  (∀ (x : Mxlen) (d : BitVec 32 → Option Instr), ∃ D : Decoder, ∀ w,
    (∀ i, d w = some i → D.decode x w = .ok i) ∧ (d w = none → ∃ e, D.decode x w = .error e)) ∧
  (∀ x w, Decoder.unconfirmed.decode x w = .error .notAdmitted) ∧ (∀ x w, Decoder.ofTable.decode x w = decode x w)

/-- The table's decoder does not decode the CADD pattern with rs2 = 0, a separate move in the recollected encoding space, to
CADD nor to anything else (log 9). -/
def Obligations.MovePatternIsNotCadd : Prop :=
  ∀ (x : Mxlen) (cd cs1 : Reg),
    decode x (rWord 0x06#7 0#5 (regBits cs1) 0#3 (regBits cd) 0x33#7) = .error .caddWithoutIndex

/-! ## The step -/

/-- A step runs the decoded instruction: where the fetch through pcc is allowed (tag, unsealed, X, bounds, pc a multiple of 4,
the bytes exist), the mode is not the integer mode and the machine's decoder maps
the four bytes at pc, little-endian, to i, the step is exec i
on the same state. For every decoder. -/
def Obligations.StepRunsDecodedInstruction : Prop :=
  ∀ (p : Params) (h : Hart p) (i : Instr),
    p.levels = false → h.xlen = p.format.mxlen → h.Authorised h.pcc [.x] h.pc.toNat 4 → (p.hybrid && h.pcc.mbit) = false →
    p.decoder.decode p.format.mxlen (h.mem.readByte (h.pc.toNat + 3) ++ h.mem.readByte (h.pc.toNat + 2) ++
      h.mem.readByte (h.pc.toNat + 1) ++ h.mem.readByte h.pc.toNat) = .ok i →
    step { params := p, hart := h } = exec i { params := p, hart := h }

/-- The checks of a fetch: pcc authorises four bytes at pc or the step faults with the first failing condition and the
instruction is not executed; a pc that is no multiple of 4 is refused; an allowed fetch of a byte that does not exist is stuck;
with HYBRID and pcc's M-bit 1 the step is refused; a word the decoder maps to nothing is refused; in the one case left the decoded
instruction is executed. -/
def Obligations.FetchIsCheckedThroughPcc : Prop :=
  ∀ (p : Params) (h : Hart p), p.levels = false → h.xlen = p.format.mxlen →
    let s : State := { params := p, hart := h }
    let pc := h.pc.toNat
    let word := h.mem.readByte (pc + 3) ++ h.mem.readByte (pc + 2) ++ h.mem.readByte (pc + 1) ++ h.mem.readByte pc
    (h.pcc.tag = false → step s = .fault (.cheri .tagViolation .fetch pc pc)) ∧
    (h.pcc.tag = true → h.pcc.ct = true → step s = .fault (.cheri .sealViolation .fetch pc pc)) ∧
    (h.pcc.tag = true → h.pcc.ct = false → h.pcc.perms.x = false →
      step s = .fault (.cheri (.permitViolation .x) .fetch pc pc)) ∧
    (h.pcc.tag = true → h.pcc.ct = false → h.pcc.perms.x = true →
      ¬ (h.pcc.bounds.base.toNat ≤ pc ∧ pc + 4 ≤ h.pcc.bounds.top.toNat) →
      step s = .fault (.cheri .boundsViolation .fetch pc pc)) ∧
    (h.pcc.tag = true → h.pcc.ct = false → h.pcc.perms.x = true → h.pcc.bounds.base.toNat ≤ pc →
      pc + 4 ≤ h.pcc.bounds.top.toNat → pc % 4 ≠ 0 → ∃ r, step s = .refused r) ∧
    (h.pcc.tag = true → h.pcc.ct = false → h.pcc.perms.x = true → h.pcc.bounds.base.toNat ≤ pc →
      pc + 4 ≤ h.pcc.bounds.top.toNat → pc % 4 = 0 → (∃ a, pc ≤ a ∧ a < pc + 4 ∧ h.mem.present a = false) →
      step s = .fault (.stuck .fetch pc pc)) ∧
    (h.Authorised h.pcc [.x] pc 4 → p.hybrid = true → h.pcc.mbit = true → step s = .refused .integerMode) ∧
    (h.Authorised h.pcc [.x] pc 4 → (p.hybrid && h.pcc.mbit) = false → ∀ e, p.decoder.decode p.format.mxlen word = .error e →
      step s = .refused (.undecodable e pc)) ∧
    (h.Authorised h.pcc [.x] pc 4 → (p.hybrid && h.pcc.mbit) = false → ∀ i, p.decoder.decode p.format.mxlen word = .ok i →
      step s = exec i s)

/-- LEVELS = true and an XLEN that is not MXLEN are refused (D1, D2; log 22). -/
def Obligations.UncoveredMachinesAreRefused : Prop :=
  ∀ s : State, (s.params.levels = true → step s = .refused .levels) ∧
    (s.params.levels = false → s.hart.xlen ≠ s.params.format.mxlen → step s = .refused .xlenNotMxlen)

/-- The parameters are constant (R1, R4), and no instruction changes the memory map (D15, log 5), the TID registers (R22: no
instruction reaches them, log 34) or XLEN (D1, log 22). -/
def Obligations.StepKeepsParameters : Prop :=
  ∀ (p : Params) (h : Hart p) (t : State), step { params := p, hart := h } = .next t →
    ∃ h' : Hart p, t = { params := p, hart := h' } ∧ h'.mem.map = h.mem.map ∧ h'.tid = h.tid ∧ h'.xlen = h.xlen

/-- Sequential advance: after every instruction other than JALR that completes, pcc is the old pcc with its address moved by 4
modulo 2^MXLEN and every other field, the tag included, unchanged. -/
def Obligations.NonJumpsAdvancePccByFour : Prop :=
  ∀ (p : Params) (h h' : Hart p) (i : Instr), (∀ cd cs1 imm, i ≠ .jalr cd cs1 imm) →
    exec i { params := p, hart := h } = .next { params := p, hart := h' } →
    h'.pcc = { h.pcc with address := BitVec.ofNat p.format.mxlen.bits ((h.pc.toNat + 4) % 2 ^ p.format.mxlen.bits) }

/-- A word placed by `withFetchWord` is what the next step decodes: over a hart whose pcc is allowed to fetch at pc (the bytes
need not exist before). `withFetchWord` is the model's own (log 7). -/
def Obligations.PlacedWordIsFetched : Prop :=
  ∀ (p : Params) (h : Hart p) (w : Nat) (i : Instr),
    p.levels = false → h.xlen = p.format.mxlen → h.mem.wf p.format.mxlen = true → (p.hybrid && h.pcc.mbit) = false →
    h.pcc.tag = true → h.pcc.ct = false → h.pcc.perms.x = true → h.pcc.bounds.base.toNat ≤ h.pc.toNat →
    h.pc.toNat + 4 ≤ h.pcc.bounds.top.toNat → h.pc.toNat % 4 = 0 → p.decoder.decode p.format.mxlen (BitVec.ofNat 32 w) = .ok i →
    step (State.withFetchWord { params := p, hart := h } 32 w) = exec i (State.withFetchWord { params := p, hart := h } 32 w)

/-! ## Reset and the distinguished capabilities -/

/-- The reset state obeys the launch premise (R147). Its values are the model's own choice (log 2 to log 6). -/
def Obligations.ResetMeetsLaunchPremise : Prop := State.reset.Launch

/-- NULL: every field 0, untagged, no permissions, E = CAP_MAX_E, base 0 and top 2^MXLEN; its CLEN bits are all zero whatever
the layout, and the all-zero bits are NULL. -/
def Obligations.NullIsAllZeroAndCoversEverything : Prop :=
  ∀ (f : Format) (l : Layout),
    (Cap.null f).tag = false ∧ (Cap.null f).perms = Perms.none ∧ (Cap.null f).sdp = 0 ∧
    (Cap.null f).exponent = f.mxlen.capMaxE ∧ (Cap.null f).bounds.base = 0 ∧
    (Cap.null f).bounds.top.toNat = 2 ^ f.mxlen.bits ∧ capToBits l (Cap.null f) = 0 ∧ bitsToCap l false 0 = Cap.null f

/-- Infinite, field by field: tag 1, SDP ones, AP 0x8 (0x9 with HYBRID) for MXLEN=32 and 0x3F for MXLEN=64, M set exactly with
HYBRID, every other field 0. So it is unsealed, grants every permission over the whole address space, and is a legal tagged
capability. -/
def Obligations.InfiniteGrantsEverything : Prop :=
  ∀ (f : Format) (hybrid : Bool),
    (Cap.infinite f hybrid).tag = true ∧ (Cap.infinite f hybrid).ct = false ∧
    (f.mxlen = .rv32 → (Cap.infinite f hybrid).ap.toNat = if hybrid then 0x9 else 0x8) ∧
    (f.mxlen = .rv64 → (Cap.infinite f hybrid).ap.toNat = 0x3F ∧ (Cap.infinite f hybrid).m.toNat = hybrid.toNat) ∧
    (∀ i, i < f.sdplen → (Cap.infinite f hybrid).sdp.getLsbD i = true) ∧
    ((Cap.infinite f hybrid).ef = false ∧ (Cap.infinite f hybrid).l8 = 0 ∧ (Cap.infinite f hybrid).tstored = 0 ∧
      (Cap.infinite f hybrid).bstored = 0 ∧ (Cap.infinite f hybrid).reserved = 0 ∧ (Cap.infinite f hybrid).address = 0) ∧
    (∀ q, (Cap.infinite f hybrid).perms.has q = true) ∧
    (Cap.infinite f hybrid).mbit = hybrid ∧ (Cap.infinite f hybrid).bounds.base = 0 ∧
    (Cap.infinite f hybrid).bounds.top.toNat = 2 ^ f.mxlen.bits ∧ (Cap.infinite f hybrid).valid hybrid = true

/-! ## Bounds -/

/-- Which bounds are malformed, by the stored exponent: none with EF=1; with EF=0 those of exponent 0 or less (MXLEN=32) or
below 0 (MXLEN=64), those of the largest exponent with B nonzero, those of the next with the top bit of B set; all others
decode. Malformed bounds return base and top 0. -/
def Obligations.MalformedBoundsClassified : Prop :=
  ∀ (f : Format) (c : Cap f),
    (c.ef = true → c.malformed = false) ∧
    (c.ef = false → f.mxlen = .rv32 → 24 ≤ c.eStored → c.malformed = true) ∧
    (c.ef = false → f.mxlen = .rv64 → 53 ≤ c.eStored → c.malformed = true) ∧
    (c.ef = false → c.eStored = 0 → c.malformed = decide (c.decB ≠ 0)) ∧
    (c.ef = false → c.eStored = 1 → c.malformed = decide (2 ^ (f.mxlen.mw - 1) ≤ c.decB)) ∧
    (c.ef = false → f.mxlen = .rv32 → 2 ≤ c.eStored → c.eStored ≤ 23 → c.malformed = false) ∧
    (c.ef = false → f.mxlen = .rv64 → 2 ≤ c.eStored → c.eStored ≤ 52 → c.malformed = false) ∧
    (c.malformed = true → c.bounds.base = 0 ∧ c.bounds.top = 0)

/-- E is a signed integer: 24 down to -7 for MXLEN=32, 52 down to -11 for MXLEN=64, and never negative for bounds that are not
malformed. -/
def Obligations.ExponentRange : Prop :=
  ∀ (f : Format) (c : Cap f),
    (f.mxlen = .rv32 → c.eStored ≤ 31 ∧ -7 ≤ c.exponent ∧ c.exponent ≤ 24) ∧
    (f.mxlen = .rv64 → c.eStored ≤ 63 ∧ -11 ≤ c.exponent ∧ c.exponent ≤ 52) ∧
    (c.exponent < 0 → c.malformed = true)

/-- The length of well-formed bounds is ((T - B) modulo 2^MW) * 2^E; with EF=1 it is L8 * 2^(MW-2) plus the difference of the
stored fields modulo 2^(MW-2); with EF=0 it is 2^(MW-2) plus that difference, of the fields with their low EW/2 bits cleared, all
times 2^E. -/
def Obligations.LengthIsTheScaledDifference : Prop :=
  ∀ (f : Format) (c : Cap f), c.malformed = false →
    c.bounds.top.toNat - c.bounds.base.toNat =
      (c.decT + 2 ^ f.mxlen.mw - c.decB) % 2 ^ f.mxlen.mw * 2 ^ c.exponent.toNat ∧
    (c.ef = true → c.bounds.top.toNat - c.bounds.base.toNat =
      c.l8.toNat * 2 ^ (f.mxlen.mw - 2) +
        (c.tstored.toNat + 2 ^ (f.mxlen.mw - 2) - c.bstored.toNat % 2 ^ (f.mxlen.mw - 2)) % 2 ^ (f.mxlen.mw - 2)) ∧
    (c.ef = false → c.bounds.top.toNat - c.bounds.base.toNat =
      (2 ^ (f.mxlen.mw - 2) +
        (c.tstored.toNat / 2 ^ f.mxlen.half * 2 ^ f.mxlen.half + 2 ^ (f.mxlen.mw - 2) -
          c.bstored.toNat / 2 ^ f.mxlen.half * 2 ^ f.mxlen.half % 2 ^ (f.mxlen.mw - 2)) % 2 ^ (f.mxlen.mw - 2)) *
        2 ^ c.exponent.toNat)

/-- Where the bounds lie: B is the stored B (its low EW/2 bits cleared with EF=0) and T[MW-3:0] the stored T likewise; base and top
are those of the address with the bits from E to E + MW - 1 replaced by B and T and the bits below E zero, so modulo 2^(E+MW) they
are B * 2^E and T * 2^E where E + MW ≤ MXLEN; where it is larger they are exactly these numbers. Which 2^(E+MW)-aligned blocks they
lie in, the representable range statements say. -/
def Obligations.BoundsSubstituteTheStoredFields : Prop :=
  ∀ (f : Format) (c : Cap f), c.malformed = false →
    (c.ef = true → c.decB = c.bstored.toNat ∧ c.decT % 2 ^ (f.mxlen.mw - 2) = c.tstored.toNat) ∧
    (c.ef = false → c.decB = c.bstored.toNat / 2 ^ f.mxlen.half * 2 ^ f.mxlen.half ∧
      c.decT % 2 ^ (f.mxlen.mw - 2) = c.tstored.toNat / 2 ^ f.mxlen.half * 2 ^ f.mxlen.half) ∧
    (c.exponent.toNat + f.mxlen.mw ≤ f.mxlen.bits →
      c.bounds.base.toNat % 2 ^ (c.exponent.toNat + f.mxlen.mw) = c.decB * 2 ^ c.exponent.toNat ∧
      c.bounds.top.toNat % 2 ^ (c.exponent.toNat + f.mxlen.mw) = c.decT * 2 ^ c.exponent.toNat) ∧
    (f.mxlen.bits < c.exponent.toNat + f.mxlen.mw →
      c.bounds.base.toNat = c.decB * 2 ^ c.exponent.toNat ∧ c.bounds.top.toNat = c.decT * 2 ^ c.exponent.toNat)

/-- For every capability base ≤ top, and top - base < 2^(E+MW-1) when it is not malformed; with T = B and LMSB = 0, possible
only with EF=1, base = top and no access is authorised. -/
def Obligations.BaseIsAtMostTop : Prop :=
  ∀ (f : Format) (c : Cap f),
    c.bounds.base.toNat ≤ c.bounds.top.toNat ∧
    (c.malformed = false → c.bounds.top.toNat - c.bounds.base.toNat < 2 ^ (c.exponent.toNat + f.mxlen.mw - 1)) ∧
    (c.decT = c.decB → c.lMsb = 0 →
      c.ef = true ∧ c.bounds.base.toNat = c.bounds.top.toNat ∧ ∀ addr n, 0 < n → c.inBounds addr n = false)

/-- Infinite bounds: E = CAP_MAX_E and not malformed, which is equivalent to base 0 and top at least 2^MXLEN; then EF = 0, the
stored exponent, B and LCout are 0, the top two bits of T are 1 and top = 2^MXLEN + T[MW-3:0] * 2^E. NULL and Infinite have
top 2^MXLEN exactly. -/
def Obligations.InfiniteBoundsCharacterised : Prop :=
  ∀ (f : Format) (c : Cap f),
    ((c.exponent = f.mxlen.capMaxE ∧ c.malformed = false) ↔
      (c.bounds.base.toNat = 0 ∧ 2 ^ f.mxlen.bits ≤ c.bounds.top.toNat)) ∧
    (c.exponent = f.mxlen.capMaxE → c.ef = false ∧ c.eStored = 0) ∧
    (c.exponent = f.mxlen.capMaxE → c.malformed = false →
      c.decB = 0 ∧ c.lCout = 0 ∧ c.decT / 2 ^ (f.mxlen.mw - 2) = 1 ∧
      c.bounds.top.toNat = 2 ^ f.mxlen.bits + c.tLow * 2 ^ f.mxlen.capMaxE) ∧
    (Cap.null f).bounds.top.toNat = 2 ^ f.mxlen.bits ∧
    (∀ hybrid, (Cap.infinite f hybrid).bounds.top.toNat = 2 ^ f.mxlen.bits)

/-- The roaming guarantee: with E + MW ≤ MXLEN and bounds (b, t) that are not malformed, every address from b - 2^(E+MW-2) up to
but not including t + 2^(E+MW-2), modulo 2^MXLEN, decodes the same bounds. -/
def Obligations.RoamingKeepsBounds : Prop :=
  ∀ (f : Format) (c : Cap f) (z : Int), c.malformed = false → c.exponent.toNat + f.mxlen.mw ≤ f.mxlen.bits →
    (c.bounds.base.toNat : Int) - 2 ^ (c.exponent.toNat + f.mxlen.mw - 2) ≤ z →
    z < (c.bounds.top.toNat : Int) + 2 ^ (c.exponent.toNat + f.mxlen.mw - 2) →
    Cap.bounds { c with address := BitVec.ofInt f.mxlen.bits z } = c.bounds

/-- The closed form of the representable range: every address when E + MW ≥ MXLEN, otherwise the window of 2^(E+MW) bytes that
starts 2^(E+MW-2) below the base, modulo 2^MXLEN. -/
def Obligations.RepresentableRangeIsTheWindow : Prop :=
  ∀ (f : Format) (c : Cap f) (a' : XWord f), c.malformed = false →
    (c.representable a' = true ↔
      f.mxlen.bits ≤ c.exponent.toNat + f.mxlen.mw ∨
      ((a'.toNat : Int) - ((c.bounds.base.toNat : Int) - 2 ^ (c.exponent.toNat + f.mxlen.mw - 2))) % 2 ^ f.mxlen.bits <
        2 ^ (c.exponent.toNat + f.mxlen.mw))

/-- If an executed instruction is in pcc bounds, the next linear instruction is representable: for every length n up to
2^(MW-2). -/
def Obligations.NextLinearInstructionIsRepresentable : Prop :=
  ∀ (f : Format) (pcc : Cap f) (n : Nat), pcc.malformed = false → n ≤ 2 ^ (f.mxlen.mw - 2) →
    pcc.bounds.base.toNat ≤ pcc.address.toNat → pcc.address.toNat < pcc.bounds.top.toNat →
    pcc.representable (pcc.address + BitVec.ofNat f.mxlen.bits n) = true

/-! ## The capability in CLEN bits -/

/-- The record and its CLEN bits are images of each other for every admitted layout, reserved bits included. -/
def Obligations.RecordAndBitsAreInverse : Prop :=
  ∀ (p : Params), p.wf = true →
    (∀ c : Cap p.format, capToBits p.layout c < 2 ^ (2 * p.format.mxlen.bits) ∧
      bitsToCap p.layout c.tag (capToBits p.layout c) = c) ∧
    (∀ (tag : Bool) (bits : Nat), bits < 2 ^ (2 * p.format.mxlen.bits) →
      capToBits p.layout (bitsToCap (f := p.format) p.layout tag bits) = bits)

/-- A capability written to memory is read back whole, tag included; the integer view of the word is the address in its lower
half and the metadata word in its upper half, both little-endian. -/
def Obligations.StoredCapabilityReadsBack : Prop :=
  ∀ (p : Params) (m : Memory) (a : Nat) (c : Cap p.format), p.wf = true → m.wf p.format.mxlen = true →
    (m.writeCap p.layout a c).readCap p.layout a = c ∧
    (m.writeCap p.layout a c).load a (p.format.mxlen.bits / 8) = c.address.toNat ∧
    (m.writeCap p.layout a c).load (a + p.format.mxlen.bits / 8) (p.format.mxlen.bits / 8) = (c.metadata p.layout).toNat

/-- An integer write sets the n bytes, the least significant first (D8, log 26), leaves every other byte, clears the tag of
every CLEN-aligned word that holds one of them, even where the bytes are the same, and leaves every other tag. -/
def Obligations.IntegerWriteClearsTags : Prop :=
  ∀ (x : Mxlen) (m : Memory) (a n v : Nat), m.wf x = true →
    (∀ i, i < n → (m.write x a n v).readByte (a + i) = BitVec.ofNat 8 (v / 256 ^ i)) ∧
    (∀ y, ¬ (a ≤ y ∧ y < a + n) → (m.write x a n v).readByte y = m.readByte y) ∧
    (∀ y, a ≤ y → y < a + n → (m.write x a n v).tagAt (y - y % x.capBytes) = false) ∧
    (∀ word, word % x.capBytes = 0 → (∀ y, a ≤ y → y < a + n → y - y % x.capBytes ≠ word) →
      (m.write x a n v).tagAt word = m.tagAt word)

/-! ## Permissions -/

/-- The MXLEN=32 table by quadrants: quadrant 0 is read and write without capabilities, quadrant 1 executable with the M-bit in
bit 0, quadrants 2 and 3 grant R and C; the fifteen legal values and no others decode to something, the other seventeen grant
nothing (R71's reading for every reader), and outside quadrant 1, where the M-bit does not exist, the model reads it as 0 (R68). -/
def Obligations.ApTableByQuadrants : Prop :=
  ∀ (f : Format) (cap : Cap f), f.mxlen = .rv32 →
    let ap := cap.ap.toNat
    let q := ap / 8
    let s := cap.perms
    (cap.apLegal = true ↔ ap ∈ [0x00, 0x01, 0x04, 0x05, 0x08, 0x09, 0x0A, 0x0B, 0x0C, 0x0D, 0x0E, 0x0F, 0x13, 0x1B, 0x1F]) ∧
    (cap.apLegal = false → s = Perms.none) ∧
    (cap.apLegal = true → q = 0 → s = { Perms.none with r := ap.testBit 0, w := ap.testBit 2 }) ∧
    (q = 1 → s.r = true ∧ s.x = true ∧ s.w = decide (ap % 8 / 2 ≠ 1) ∧ s.c = decide (ap % 8 / 2 ≠ 3) ∧
      s.lm = decide (ap % 8 / 2 ≠ 3) ∧ s.asr = decide (ap % 8 / 2 = 0) ∧ cap.mbit = ap.testBit 0) ∧
    (q ≠ 1 → cap.mbit = false) ∧
    (cap.apLegal = true → q = 2 → s = { Perms.none with r := true, c := true }) ∧
    (cap.apLegal = true → q = 3 → s = { Perms.none with r := true, c := true, lm := true, w := ap.testBit 2 })

/-- MXLEN=64: a permission is granted exactly if its bit of AP is set; bits 6 and 7 grant nothing and are clear in every legal
value. -/
def Obligations.Rv64PermissionsArePerBit : Prop :=
  ∀ (f : Format) (cap : Cap f), f.mxlen = .rv64 →
    (cap.perms.c = cap.ap.getLsbD 0 ∧ cap.perms.w = cap.ap.getLsbD 1 ∧ cap.perms.r = cap.ap.getLsbD 2 ∧
      cap.perms.x = cap.ap.getLsbD 3 ∧ cap.perms.asr = cap.ap.getLsbD 4 ∧ cap.perms.lm = cap.ap.getLsbD 5) ∧
    (cap.apLegal = true ↔ cap.ap.getLsbD 6 = false ∧ cap.ap.getLsbD 7 = false)

/-- GCPERM reads a reserved MXLEN=32 AP value as no permissions, with M-bit 0: what it reports does not depend on which
reserved value it is. -/
def Obligations.ReservedApReadsAsNoPermissions : Prop :=
  ∀ (f : Format) (c : Cap f), f.mxlen = .rv32 → apTable32 c.ap.toNat = none →
    c.perms = Perms.none ∧ c.packed = Config.gcpermPack f Perms.none false c.sdp

/-- `acperm_reduce` for every value of its free part: it never grants (P1); for MXLEN=32 its result is one of the eleven sets of
the table, so that an AP value encodes it (P2); for MXLEN=64 it leaves ASR only with X (P3); of the empty set it makes the empty set
(P4). -/
def Obligations.AcpermReduceProperties : Prop :=
  ∀ (x : Mxlen) (s : Perms),
    (acpermReduce x s).subset s = true ∧
    (∃ ap, ap < 32 ∧ apTable32 ap = some (acpermReduce .rv32 s)) ∧
    ((acpermReduce .rv64 s).asr = false ∨ (acpermReduce .rv64 s).x = true) ∧
    acpermReduce x Perms.none = Perms.none

/-- The load-mutable rule. Through an authority with R and C but no LM a tagged unsealed capability whose AP is legal is loaded with
the permissions `acperm_reduce` makes of its own less W and LM, so without W and LM, with the M-bit kept only beside X, and with
every other field and the tag as stored, whatever RETAIN_INVALID_LOADED_PERMS says: the option has no effect on a capability that
obeys R17. One whose AP is not legal, which breaks R17, is kept or loses all permissions as the option says (90_conflicts.md C7,
log 24). A sealed or untagged one, and any through an authority with LM or without R or C, is loaded unchanged. What was loaded
so grants no LM itself, so the rule acts again on what is loaded through it (R79). -/
def Obligations.LoadFilterRemovesWriteAndMutable : Prop :=
  ∀ (f : Format) (retain : Bool) (auth loaded : Cap f),
    (auth.perms.r = true → auth.perms.c = true → auth.perms.lm = false → loaded.tag = true → loaded.ct = false →
      (loaded.apLegal = true →
        (loadFilter retain auth loaded).perms =
          acpermReduce f.mxlen (loaded.perms.without { Perms.none with w := true, lm := true }) ∧
        (loadFilter retain auth loaded).perms.w = false ∧ (loadFilter retain auth loaded).perms.lm = false ∧
        (loadFilter retain auth loaded).perms.subset loaded.perms = true ∧
        (loadFilter retain auth loaded).mbit = ((loadFilter retain auth loaded).perms.x && loaded.mbit) ∧
        (loadFilter retain auth loaded).apLegal = true) ∧
      (loaded.apLegal = false → retain = true → loadFilter retain auth loaded = loaded) ∧
      (loaded.apLegal = false → retain = false → (loadFilter retain auth loaded).perms = Perms.none) ∧
      { loadFilter retain auth loaded with ap := loaded.ap, m := loaded.m } = loaded) ∧
    ((auth.perms.r = false ∨ auth.perms.c = false ∨ auth.perms.lm = true ∨ loaded.tag = false ∨ loaded.ct = true) →
      loadFilter retain auth loaded = loaded)

/-! ## Instructions on registers -/

/-- GCPERM completes in every state: rd receives, as an integer, the packed view of the decoded permission set, the M-bit and
SDP of cs1; nothing else changes but pc. -/
def Obligations.GcpermReportsDecodedPermissions : Prop :=
  ∀ (p : Params) (h : Hart p) (rd cs1 : Reg), ∃ h' : Hart p,
    exec (.gcperm rd cs1) { params := p, hart := h } = .next { params := p, hart := h' } ∧
    h.OnlyWrites h' rd (Cap.ofInt p.format
      (Config.gcpermPack p.format (h.readC cs1).perms (h.readC cs1).mbit (h.readC cs1).sdp))

/-- GCBASE completes in every state, whatever the tag and the seal of cs1: rd receives the decoded base as an integer, 0 where
the bounds are malformed; nothing else changes but pc. -/
def Obligations.GcbaseReadsDecodedBase : Prop :=
  ∀ (p : Params) (h : Hart p) (rd cs1 : Reg), ∃ h' : Hart p,
    exec (.gcbase rd cs1) { params := p, hart := h } = .next { params := p, hart := h' } ∧
    h.OnlyWrites h' rd (Cap.ofInt p.format (h.readC cs1).bounds.base) ∧
    ((h.readC cs1).malformed = true → h'.readX rd = 0)

/-- ACPERM completes in every state: cd receives cs1 with the permission set reduced from what it and the mask share, M kept
only beside X, SDP anded with the mask, never a reserved AP value, the tag lost if cs1 is sealed; every other field is copied. -/
def Obligations.AcpermReducesPermissions : Prop :=
  ∀ (p : Params) (h : Hart p) (cd cs1 rs2 : Reg), ∃ (h' : Hart p) (v : Cap p.format),
    exec (.acperm cd cs1 rs2) { params := p, hart := h } = .next { params := p, hart := h' } ∧ h.OnlyWrites h' cd v ∧
    v.perms = acpermReduce p.format.mxlen ((h.readC cs1).perms.inter (maskPerms (h.readX rs2))) ∧
    v.mbit = (v.perms.x && (h.readC cs1).mbit) ∧ v.apLegal = true ∧
    v.tag = ((h.readC cs1).tag && !(h.readC cs1).ct) ∧ v.sdp = (h.readC cs1).sdp &&& maskSdp (h.readX rs2) ∧
    { v with ap := (h.readC cs1).ap, m := (h.readC cs1).m, sdp := (h.readC cs1).sdp, tag := (h.readC cs1).tag } = h.readC cs1

/-- CADD completes in every state: cd receives cs1 with x[rs2] added to the address modulo 2^MXLEN; the tag stays exactly for a
tagged, unsealed, well-formed source whose new address decodes the same bounds. -/
def Obligations.CaddMovesTheAddress : Prop :=
  ∀ (p : Params) (h : Hart p) (cd cs1 rs2 : Reg), ∃ (h' : Hart p) (v : Cap p.format),
    exec (.cadd cd cs1 rs2) { params := p, hart := h } = .next { params := p, hart := h' } ∧ h.OnlyWrites h' cd v ∧
    v.address.toNat = ((h.readC cs1).address.toNat + (h.readX rs2).toNat) % 2 ^ p.format.mxlen.bits ∧
    { v with address := (h.readC cs1).address, tag := (h.readC cs1).tag } = h.readC cs1 ∧
    (v.tag = true ↔ (h.readC cs1).tag = true ∧ (h.readC cs1).ct = false ∧ (h.readC cs1).malformed = false ∧
      v.bounds = (h.readC cs1).bounds)

/-- CADDI completes in every state: as CADD, with the 12-bit immediate sign-extended. -/
def Obligations.CaddiMovesTheAddress : Prop :=
  ∀ (p : Params) (h : Hart p) (cd cs1 : Reg) (imm : Imm12), ∃ (h' : Hart p) (v : Cap p.format),
    exec (.caddi cd cs1 imm) { params := p, hart := h } = .next { params := p, hart := h' } ∧ h.OnlyWrites h' cd v ∧
    (v.address.toNat : Int) = ((h.readC cs1).address.toNat + imm.toInt) % 2 ^ p.format.mxlen.bits ∧
    { v with address := (h.readC cs1).address, tag := (h.readC cs1).tag } = h.readC cs1 ∧
    (v.tag = true ↔ (h.readC cs1).tag = true ∧ (h.readC cs1).ct = false ∧ (h.readC cs1).malformed = false ∧
      v.bounds = (h.readC cs1).bounds)

/-- SCADDR completes in every state: as CADD, with the address replaced by x[rs2]. -/
def Obligations.ScaddrReplacesTheAddress : Prop :=
  ∀ (p : Params) (h : Hart p) (cd cs1 rs2 : Reg), ∃ (h' : Hart p) (v : Cap p.format),
    exec (.scaddr cd cs1 rs2) { params := p, hart := h } = .next { params := p, hart := h' } ∧ h.OnlyWrites h' cd v ∧
    v.address = h.readX rs2 ∧
    { v with address := (h.readC cs1).address, tag := (h.readC cs1).tag } = h.readC cs1 ∧
    (v.tag = true ↔ (h.readC cs1).tag = true ∧ (h.readC cs1).ct = false ∧ (h.readC cs1).malformed = false ∧
      v.bounds = (h.readC cs1).bounds)

/-- CBLD completes in every state: cd receives cs2 with CT 0, tagged exactly when the necessary conditions of R124 and the open
`cbld_extra` hold: cs1 tagged and unsealed; cs2 well-formed, its reserved bits 0, its AP legal and its M-bit legal; its bounds,
permissions and SDP within cs1's. -/
def Obligations.CbldRebuildsWithinItsAuthority : Prop :=
  ∀ (p : Params) (h : Hart p) (cd cs1 cs2 : Reg), ∃ (h' : Hart p) (v : Cap p.format),
    exec (.cbld cd cs1 cs2) { params := p, hart := h } = .next { params := p, hart := h' } ∧ h.OnlyWrites h' cd v ∧
    v.ct = false ∧ { v with ct := (h.readC cs2).ct, tag := (h.readC cs2).tag } = h.readC cs2 ∧
    (v.tag = true ↔
      (h.readC cs1).tag = true ∧ (h.readC cs1).ct = false ∧ (h.readC cs2).malformed = false ∧
      (h.readC cs2).reserved = 0 ∧ (h.readC cs2).apLegal = true ∧
      ((h.readC cs2).mbit = true → p.hybrid = true ∧ (h.readC cs2).perms.x = true) ∧
      (h.readC cs1).bounds.base.toNat ≤ (h.readC cs2).bounds.base.toNat ∧
      (h.readC cs2).bounds.top.toNat ≤ (h.readC cs1).bounds.top.toNat ∧
      (∀ q, (h.readC cs2).perms.has q = true → (h.readC cs1).perms.has q = true) ∧
      (h.readC cs2).sdp &&& ~~~ (h.readC cs1).sdp = 0 ∧
      Config.cbldExtra p.format (h.readC cs1) (h.readC cs2) = true)

/-- JALR completes in every state but for a sealed target of odd address with offset 0, which is refused (log 23). cd receives
pcc at pc + 4, sealed, tagged if that address is representable; pcc becomes the target unsealed where it is sealed and the offset
0, and else the target with the offset added, bit 0 cleared, and the tag as for an address update (so a sealed target with another
offset loses it). No other register and nothing in memory changes. -/
def Obligations.JalrJumpsAndLinks : Prop :=
  ∀ (p : Params) (h : Hart p) (cd cs1 : Reg) (imm : Imm12),
    ((h.readC cs1).ct = true → imm = 0 → (h.readC cs1).address.toNat % 2 = 1 →
      exec (.jalr cd cs1 imm) { params := p, hart := h } = .refused (.oddSentry (h.readC cs1).address.toNat)) ∧
    (¬ ((h.readC cs1).ct = true ∧ imm = 0 ∧ (h.readC cs1).address.toNat % 2 = 1) →
      ∃ h' : Hart p,
        exec (.jalr cd cs1 imm) { params := p, hart := h } = .next { params := p, hart := h' } ∧
        (cd ≠ 0 → h'.readC cd =
          { h.pcc with address := h.pc + 4, ct := true, tag := h.pcc.tag && h.pcc.representable (h.pc + 4) }) ∧
        (∀ r, r ≠ cd → h'.readC r = h.readC r) ∧ h'.readC 0 = Cap.null p.format ∧
        h'.mem = h.mem ∧ h'.tid = h.tid ∧ h'.xlen = h.xlen ∧
        ((h.readC cs1).ct = true → imm = 0 → h'.pcc = { h.readC cs1 with ct := false }) ∧
        (¬ ((h.readC cs1).ct = true ∧ imm = 0) →
          (h'.pcc.address.toNat : Int) =
            ((h.readC cs1).address.toNat + imm.toInt) % 2 ^ p.format.mxlen.bits / 2 * 2 ∧
          { h'.pcc with address := (h.readC cs1).address, tag := (h.readC cs1).tag } = h.readC cs1 ∧
          (h'.pcc.tag = true ↔ (h.readC cs1).tag = true ∧ (h.readC cs1).ct = false ∧ (h.readC cs1).malformed = false ∧
            h'.pcc.bounds = (h.readC cs1).bounds)))

/-- Changing the address to a value outside the representable range clears the tag, whatever else holds; the result's address is
still the new one and every other field is copied. Inside the representable range the tag of a tagged, unsealed, well-formed source
stays, in bounds or not. Said of CADD, CADDI and SCADDR, each with the address it makes. -/
def Obligations.LeavingTheRepresentableRangeClearsTheTag : Prop :=
  ∀ (p : Params) (h : Hart p) (cd cs1 rs2 : Reg) (imm : Imm12) (i : Instr) (a' : XWord p.format), cd ≠ 0 →
    (i, a') ∈ [(Instr.cadd cd cs1 rs2, (h.readC cs1).address + h.readX rs2),
      (Instr.caddi cd cs1 imm, (h.readC cs1).address + imm.signExtend p.format.mxlen.bits),
      (Instr.scaddr cd cs1 rs2, h.readX rs2)] →
    let src := h.readC cs1
    ∃ h' : Hart p, exec i { params := p, hart := h } = .next { params := p, hart := h' } ∧
      ({ src with address := a' }.bounds ≠ src.bounds → h'.readC cd = { src with address := a', tag := false }) ∧
      ({ src with address := a' }.bounds = src.bounds → src.tag = true → src.ct = false → src.malformed = false →
        h'.readC cd = { src with address := a' })

/-- An address update of a source with malformed bounds always gives an untagged result: CADD, CADDI, SCADDR, and the target JALR
installs, but for the unsealing of a sealed target at offset 0, which updates no address. Which instructions R112's source sentence
means beyond CADDI is the spec's own reading. -/
def Obligations.AddressUpdatesOfMalformedSourcesAreUntagged : Prop :=
  ∀ (p : Params) (h h' : Hart p) (cd cs1 r2 : Reg) (imm : Imm12), (h.readC cs1).malformed = true →
    (∀ i ∈ [Instr.cadd cd cs1 r2, Instr.caddi cd cs1 imm, Instr.scaddr cd cs1 r2],
      exec i { params := p, hart := h } = .next { params := p, hart := h' } → (h'.readC cd).tag = false) ∧
    (¬ ((h.readC cs1).ct = true ∧ imm = 0) →
      exec (.jalr cd cs1 imm) { params := p, hart := h } = .next { params := p, hart := h' } → h'.pcc.tag = false)

/-- A capability derived from an invalid one is invalid: an untagged cs1 of ACPERM, CADD, CADDI, SCADDR, CBLD gives an untagged
result; JALR's link is untagged when pcc is, and pcc is untagged after a jump to an untagged target; LC of an untagged word
gives an untagged register and SC of an untagged register an untagged word. -/
def Obligations.InvalidOperandsGiveInvalidResults : Prop :=
  ∀ (p : Params) (h h' : Hart p) (cd cs1 r2 : Reg) (imm : Imm12),
    (∀ i ∈ [Instr.acperm cd cs1 r2, Instr.cadd cd cs1 r2, Instr.caddi cd cs1 imm, Instr.scaddr cd cs1 r2, Instr.cbld cd cs1 r2],
      exec i { params := p, hart := h } = .next { params := p, hart := h' } → (h.readC cs1).tag = false →
      (h'.readC cd).tag = false) ∧
    (exec (.jalr cd cs1 imm) { params := p, hart := h } = .next { params := p, hart := h' } →
      (h.pcc.tag = false → (h'.readC cd).tag = false) ∧ ((h.readC cs1).tag = false → h'.pcc.tag = false)) ∧
    (exec (.lc cd cs1 imm) { params := p, hart := h } = .next { params := p, hart := h' } →
      h.mem.tagAt (effectiveAddress (h.readC cs1) imm).toNat = false → (h'.readC cd).tag = false) ∧
    (exec (.sc r2 cs1 imm) { params := p, hart := h } = .next { params := p, hart := h' } → (h.readC r2).tag = false →
      h'.mem.tagAt (effectiveAddress (h.readC cs1) imm).toNat = false)

/-- A sealed capability is immutable: ACPERM, CADD, CADDI and SCADDR of a sealed cs1, and the pcc JALR makes of one at an offset
other than 0, have tag 0 and CT 1, also where no other field changes (log 28). -/
def Obligations.SealedSourcesLoseTheTag : Prop :=
  ∀ (p : Params) (h h' : Hart p) (cd cs1 r2 : Reg) (imm : Imm12), (h.readC cs1).ct = true →
    (∀ i ∈ [Instr.acperm cd cs1 r2, Instr.cadd cd cs1 r2, Instr.caddi cd cs1 imm, Instr.scaddr cd cs1 r2],
      exec i { params := p, hart := h } = .next { params := p, hart := h' } →
      (h'.readC cd).tag = false ∧ (cd ≠ 0 → (h'.readC cd).ct = true)) ∧
    (imm ≠ 0 → exec (.jalr cd cs1 imm) { params := p, hart := h } = .next { params := p, hart := h' } →
      h'.pcc.tag = false ∧ h'.pcc.ct = true)

/-! ## Loads and stores -/

/-- LB and LBU complete where the authority grants R on the byte: rd receives it sign- or zero-extended, as an integer; nothing
else changes but pc. -/
def Obligations.ByteLoadsComplete : Prop :=
  ∀ (p : Params) (h : Hart p) (rd cs1 : Reg) (imm : Imm12),
    let ea := (effectiveAddress (h.readC cs1) imm).toNat
    h.Authorised (h.readC cs1) [.r] ea 1 →
    ∃ h1 h2 : Hart p,
      exec (.lb rd cs1 imm) { params := p, hart := h } = .next { params := p, hart := h1 } ∧
      h.OnlyWrites h1 rd (Cap.ofInt p.format ((h.mem.readByte ea).signExtend p.format.mxlen.bits)) ∧
      exec (.lbu rd cs1 imm) { params := p, hart := h } = .next { params := p, hart := h2 } ∧
      h.OnlyWrites h2 rd (Cap.ofInt p.format ((h.mem.readByte ea).setWidth p.format.mxlen.bits))

/-- LH and LHU complete where the authority grants R on the two aligned bytes, read little-endian (D8, log 26). -/
def Obligations.HalfLoadsComplete : Prop :=
  ∀ (p : Params) (h : Hart p) (rd cs1 : Reg) (imm : Imm12),
    let ea := (effectiveAddress (h.readC cs1) imm).toNat
    let v := h.mem.readByte (ea + 1) ++ h.mem.readByte ea
    h.Authorised (h.readC cs1) [.r] ea 2 →
    ∃ h1 h2 : Hart p,
      exec (.lh rd cs1 imm) { params := p, hart := h } = .next { params := p, hart := h1 } ∧
      h.OnlyWrites h1 rd (Cap.ofInt p.format (v.signExtend p.format.mxlen.bits)) ∧
      exec (.lhu rd cs1 imm) { params := p, hart := h } = .next { params := p, hart := h2 } ∧
      h.OnlyWrites h2 rd (Cap.ofInt p.format (v.setWidth p.format.mxlen.bits))

/-- LW, and LWU for MXLEN=64, complete where the authority grants R on the four aligned bytes, read little-endian (D8, log 26). -/
def Obligations.WordLoadsComplete : Prop :=
  ∀ (p : Params) (h : Hart p) (rd cs1 : Reg) (imm : Imm12),
    let ea := (effectiveAddress (h.readC cs1) imm).toNat
    let v := h.mem.readByte (ea + 3) ++ h.mem.readByte (ea + 2) ++ h.mem.readByte (ea + 1) ++ h.mem.readByte ea
    h.Authorised (h.readC cs1) [.r] ea 4 →
    (∃ h1 : Hart p,
      exec (.lw rd cs1 imm) { params := p, hart := h } = .next { params := p, hart := h1 } ∧
      h.OnlyWrites h1 rd (Cap.ofInt p.format (v.signExtend p.format.mxlen.bits))) ∧
    (p.format.mxlen = .rv64 → ∃ h2 : Hart p,
      exec (.lwu rd cs1 imm) { params := p, hart := h } = .next { params := p, hart := h2 } ∧
      h.OnlyWrites h2 rd (Cap.ofInt p.format (v.setWidth p.format.mxlen.bits)))

/-- LD completes for MXLEN=64 where the authority grants R on the eight aligned bytes, read little-endian (D8, log 26): the byte
at ea + i is bits 8i+7 to 8i of x[rd]. -/
def Obligations.DoubleLoadCompletes : Prop :=
  ∀ (p : Params) (h : Hart p) (rd cs1 : Reg) (imm : Imm12), p.format.mxlen = .rv64 →
    let ea := (effectiveAddress (h.readC cs1) imm).toNat
    h.Authorised (h.readC cs1) [.r] ea 8 →
    ∃ (h' : Hart p) (v : XWord p.format),
      exec (.ld rd cs1 imm) { params := p, hart := h } = .next { params := p, hart := h' } ∧
      h.OnlyWrites h' rd (Cap.ofInt p.format v) ∧
      ∀ i, i < 8 → v.extractLsb' (8 * i) 8 = h.mem.readByte (ea + i)

/-- SB, SH, SW, and SD for MXLEN=64, complete where the authority grants W on the n aligned bytes: the byte at ea + i becomes
bits 8i+7 to 8i of x[rs2], little-endian (D8, log 26), the tag of the CLEN-aligned word that holds them becomes 0, and nothing
else changes but pc. The tag of rs2 is not looked at. -/
def Obligations.IntegerStoresComplete : Prop :=
  ∀ (p : Params) (h : Hart p) (rs2 cs1 : Reg) (imm : Imm12) (i : Instr) (n : Nat), h.mem.wf p.format.mxlen = true →
    (i, n) ∈ [(Instr.sb rs2 cs1 imm, 1), (Instr.sh rs2 cs1 imm, 2), (Instr.sw rs2 cs1 imm, 4), (Instr.sd rs2 cs1 imm, 8)] →
    (n = 8 → p.format.mxlen = .rv64) →
    let ea := (effectiveAddress (h.readC cs1) imm).toNat
    h.Authorised (h.readC cs1) [.w] ea n →
    ∃ h' : Hart p,
      exec i { params := p, hart := h } = .next { params := p, hart := h' } ∧ h.OnlyStores h' ea n ∧
      (∀ k, k < n → h'.mem.readByte (ea + k) = (h.readX rs2).extractLsb' (8 * k) 8) ∧
      h'.mem.tagAt (ea - ea % p.format.mxlen.capBytes) = false

/-- LC completes where the authority grants R on the aligned CLEN/8 bytes, and C too if a lack of C faults: cd receives the word
with its tag, the tag cleared without C, then filtered by the load-mutable rule; memory and its tags do not change. -/
def Obligations.CapabilityLoadCompletes : Prop :=
  ∀ (p : Params) (h : Hart p) (cd cs1 : Reg) (imm : Imm12),
    let ea := (effectiveAddress (h.readC cs1) imm).toNat
    let auth := h.readC cs1
    h.Authorised auth [.r] ea p.format.mxlen.capBytes → (p.withoutC = .fault → auth.perms.c = true) →
    ∃ (h' : Hart p) (raw : Cap p.format),
      exec (.lc cd cs1 imm) { params := p, hart := h } = .next { params := p, hart := h' } ∧
      raw = h.mem.readCap p.layout ea ∧ raw.tag = h.mem.tagAt ea ∧
      h.OnlyWrites h' cd (loadFilter p.retainInvalid auth { raw with tag := raw.tag && auth.perms.c })

/-- SC completes where the authority grants W on the aligned CLEN/8 bytes, and C too if a lack of C faults: the word at ea reads
back as cs2 with its tag, the tag cleared without C; no other byte and no other tag changes, no register but pc. A sealed or
untagged cs2 is stored whole. -/
def Obligations.CapabilityStoreCompletes : Prop :=
  ∀ (p : Params) (h : Hart p) (cs2 cs1 : Reg) (imm : Imm12), p.wf = true → h.mem.wf p.format.mxlen = true →
    let ea := (effectiveAddress (h.readC cs1) imm).toNat
    let auth := h.readC cs1
    h.Authorised auth [.w] ea p.format.mxlen.capBytes → (p.withoutC = .fault → auth.perms.c = true) →
    ∃ h' : Hart p,
      exec (.sc cs2 cs1 imm) { params := p, hart := h } = .next { params := p, hart := h' } ∧
      h.OnlyStores h' ea p.format.mxlen.capBytes ∧
      h'.mem.readCap p.layout ea = { h.readC cs2 with tag := (h.readC cs2).tag && auth.perms.c }

/-- What an access needs, named outright (R39). A tagged unsealed authority without R faults every load with PermitViolation(R), one
without W every store with PermitViolation(W), whatever else fails: which failure is reported assumes the order of D12 (R40), for a
misaligned integer access log 18, and for an LC or SC that lacks C or passes 2^MXLEN too, logs 15 and 16. -/
def Obligations.LoadsNeedReadAndStoresNeedWrite : Prop :=
  ∀ (p : Params) (h : Hart p) (r cs1 : Reg) (imm : Imm12) (i : Instr), i.wf p.format.mxlen = true →
    let s : State := { params := p, hart := h }
    let auth := h.readC cs1
    let ea := (effectiveAddress auth imm).toNat
    auth.tag = true → auth.ct = false →
    (auth.perms.r = false →
      i ∈ [Instr.lb r cs1 imm, Instr.lh r cs1 imm, Instr.lw r cs1 imm, Instr.lbu r cs1 imm, Instr.lhu r cs1 imm,
        Instr.lwu r cs1 imm, Instr.ld r cs1 imm, Instr.lc r cs1 imm] →
      exec i s = .fault (.cheri (.permitViolation .r) .load ea h.pc.toNat)) ∧
    (auth.perms.w = false →
      i ∈ [Instr.sb r cs1 imm, Instr.sh r cs1 imm, Instr.sw r cs1 imm, Instr.sd r cs1 imm, Instr.sc r cs1 imm] →
      exec i s = .fault (.cheri (.permitViolation .w) .store ea h.pc.toNat))

/-- When a load or store fails a condition, the first that fails in the order tag, seal, permission, bounds is reported, with
the access kind, the effective address and the pc, and the outcome is a fault, so that no register and no memory changes. The
permissions are R39's (`Instr.memAccess` names them apart from what exec reads): R for LB to LD and LC, W for SB to SD and SC, and C
after it for LC and SC where CAP_ACCESS_WITHOUT_C is fault, which puts the lack of C before the bounds (log 15, not the order of R158's
and R159's pseudocode). The tag, seal and permission clauses hold of a misaligned integer access too (log 18); the bounds clause asks
an aligned one. -/
def Obligations.AccessReportsFirstFailure : Prop :=
  ∀ (p : Params) (h : Hart p) (i : Instr) (a : MemAccess), i.wf p.format.mxlen = true → i.memAccess p = some a →
    let s : State := { params := p, hart := h }
    let auth := h.readC a.auth
    let ea := (effectiveAddress auth a.off).toNat
    let pc := h.pc.toNat
    (auth.tag = false → exec i s = .fault (.cheri .tagViolation a.kind ea pc)) ∧
    (auth.tag = true → auth.ct = true → exec i s = .fault (.cheri .sealViolation a.kind ea pc)) ∧
    (auth.tag = true → auth.ct = false → ∀ q, a.needs.find? (fun q => !auth.perms.has q) = some q →
      exec i s = .fault (.cheri (.permitViolation q) a.kind ea pc)) ∧
    (auth.tag = true → auth.ct = false → (∀ q ∈ a.needs, auth.perms.has q = true) → (a.integer = true → ea % a.size = 0) →
      ¬ (auth.bounds.base.toNat ≤ ea ∧ ea + a.size ≤ auth.bounds.top.toNat) →
      exec i s = .fault (.cheri .boundsViolation a.kind ea pc))

/-- Where an access whose authority is tagged, unsealed and grants the permissions stops all the same: a misaligned integer access
is refused, in bounds or not; and in bounds, an access that would cross 2^MXLEN is refused, a misaligned capability access inside
the address space raises MisalignedCap, and an aligned access to a byte that does not exist is stuck. -/
def Obligations.AllowedAccessesThatDoNotComplete : Prop :=
  ∀ (p : Params) (h : Hart p) (i : Instr) (a : MemAccess), i.wf p.format.mxlen = true → i.memAccess p = some a →
    let s : State := { params := p, hart := h }
    let auth := h.readC a.auth
    let ea := (effectiveAddress auth a.off).toNat
    let pc := h.pc.toNat
    auth.tag = true → auth.ct = false → (∀ q ∈ a.needs, auth.perms.has q = true) →
    (a.integer = true → ea % a.size ≠ 0 → exec i s = .refused (.misalignedInteger ea)) ∧
    (auth.bounds.base.toNat ≤ ea → ea + a.size ≤ auth.bounds.top.toNat →
      (a.integer = false → 2 ^ p.format.mxlen.bits < ea + a.size → exec i s = .refused (.pastAddressSpace ea)) ∧
      (a.integer = false → ea + a.size ≤ 2 ^ p.format.mxlen.bits → ea % a.size ≠ 0 →
        exec i s = .fault (.cheri .misalignedCap a.kind ea pc)) ∧
      (ea % a.size = 0 → (∃ x, ea ≤ x ∧ x < ea + a.size ∧ h.mem.present x = false) →
        exec i s = .fault (.stuck a.kind ea pc)))

/-- A capability access without C-permission: with CAP_ACCESS_WITHOUT_C = fault an LC with R and an SC with W raise
PermitViolation(C), before the bounds are looked at (log 15). -/
def Obligations.CapabilityAccessWithoutCFaults : Prop :=
  ∀ (p : Params) (h : Hart p) (cd cs1 : Reg) (imm : Imm12), p.withoutC = .fault →
    let s : State := { params := p, hart := h }
    let auth := h.readC cs1
    let ea := (effectiveAddress auth imm).toNat
    auth.tag = true → auth.ct = false → auth.perms.c = false →
    (auth.perms.r = true → exec (.lc cd cs1 imm) s = .fault (.cheri (.permitViolation .c) .load ea h.pc.toNat)) ∧
    (auth.perms.w = true → exec (.sc cd cs1 imm) s = .fault (.cheri (.permitViolation .c) .store ea h.pc.toNat))

/-- LWU, LD and SD are no instructions for MXLEN=32: a term of one is refused there (log 33). -/
def Obligations.DoubleWordFormsNeedMxlen64 : Prop :=
  ∀ (p : Params) (h : Hart p) (r cs1 : Reg) (imm : Imm12) (i : Instr), p.format.mxlen = .rv32 →
    i ∈ [Instr.lwu r cs1 imm, Instr.ld r cs1 imm, Instr.sd r cs1 imm] →
    exec i { params := p, hart := h } = .refused .rv64Only

/-! ## The TID registers -/

/-- With TID a write of the six registers needs ASR through a tagged, unsealed pcc, and is refused through an untagged or sealed one
(R61, log 34) or one without ASR; a read needs none of it; without TID they do not exist.
One privilege mode only (R138), so the mode condition of R83 is not stated. -/
def Obligations.TidWritesNeedAsr : Prop :=
  ∀ (p : Params) (h : Hart p) (t : TidRegs p.format),
    (h.tid = none → h.readTid = .error .noTid ∧ h.writeTid t = .refused .noTid) ∧
    (∀ old, h.tid = some old → h.readTid = .ok old ∧
      (h.pcc.tag = true → h.pcc.ct = false → h.pcc.perms.asr = true → h.writeTid t = .next { h with tid := some t }) ∧
      (h.pcc.tag = false ∨ h.pcc.ct = true ∨ h.pcc.perms.asr = false → h.writeTid t = .refused .tidWithoutAsr))

/-! ## Whole-machine rules -/

/-- No tag is made from nothing: if no tagged capability stands anywhere in the hart, none does after any instruction. -/
def Obligations.NoTagFromNothing : Prop :=
  ∀ (p : Params) (h h' : Hart p) (i : Instr), (∀ c, ¬ h.Holds c) →
    exec i { params := p, hart := h } = .next { params := p, hart := h' } → ∀ c, ¬ h'.Holds c

/-- Every step keeps the invariants of R17 for every tagged capability in pcc, in registers and in memory, and the canonical
form of memory: from every state that meets them, not only from runs. -/
def Obligations.StepKeepsCapabilityInvariants : Prop :=
  ∀ s t : State, s.Inv → step s = .next t → t.Inv

/-- Authority never grows: after a step every tagged capability in pcc, a register or memory has its bounds, permissions and SDP
within those of a tagged capability that was there before. -/
def Obligations.StepNeverWidensAuthority : Prop :=
  ∀ (p : Params) (h h' : Hart p), p.wf = true → h.mem.wf p.format.mxlen = true →
    step { params := p, hart := h } = .next { params := p, hart := h' } →
    ∀ c', h'.Holds c' → ∃ c, h.Holds c ∧ c'.within c = true
end

