-- ==== Sys2Proof/Laws/State.lean ====
section
/-! SUPPORT. One lemma per field per update of a hart, and the register file's read and write laws. -/

namespace Sys2Proof.Machine

variable {p : Params}

/-! ## Registers -/

@[simp] theorem Hart.readC_zero (h : Hart p) : h.readC 0 = Cap.null p.format := by simp [Hart.readC]

@[simp] theorem Hart.readX_zero (h : Hart p) : h.readX 0 = 0 := by simp [Hart.readX, Cap.null]

@[simp] theorem Hart.writeC_zero (h : Hart p) (c : Cap p.format) : h.writeC 0 c = h := by simp [Hart.writeC]

@[simp] theorem Hart.writeX_zero (h : Hart p) (v : XWord p.format) : h.writeX 0 v = h := by simp [Hart.writeX]

@[simp] theorem Hart.writeC_xlen (h : Hart p) (r : Reg) (c : Cap p.format) : (h.writeC r c).xlen = h.xlen := by
  unfold Hart.writeC; split <;> rfl

@[simp] theorem Hart.writeC_pcc (h : Hart p) (r : Reg) (c : Cap p.format) : (h.writeC r c).pcc = h.pcc := by
  unfold Hart.writeC; split <;> rfl

@[simp] theorem Hart.writeC_tid (h : Hart p) (r : Reg) (c : Cap p.format) : (h.writeC r c).tid = h.tid := by
  unfold Hart.writeC; split <;> rfl

@[simp] theorem Hart.writeC_mem (h : Hart p) (r : Reg) (c : Cap p.format) : (h.writeC r c).mem = h.mem := by
  unfold Hart.writeC; split <;> rfl

theorem Hart.readC_writeC_same (h : Hart p) {r : Reg} (hr : r ≠ 0) (c : Cap p.format) : (h.writeC r c).readC r = c := by
  have hv : r.val ≠ 0 := fun e => hr (Fin.ext e)
  simp [Hart.readC, Hart.writeC, hv]

theorem Hart.readC_writeC_ne (h : Hart p) {r q : Reg} (hq : q ≠ r) (c : Cap p.format) :
    (h.writeC r c).readC q = h.readC q := by
  have hv : q.val ≠ r.val := fun e => hq (Fin.ext e)
  unfold Hart.writeC Hart.readC
  split
  · rfl
  · split
    · rfl
    · simp only [Vector.getElem_set]
      rw [if_neg (by omega)]

/-- Reading after a write: the written register holds the value unless it is register 0. -/
theorem Hart.readC_writeC (h : Hart p) (r q : Reg) (c : Cap p.format) :
    (h.writeC r c).readC q = if q = r ∧ r ≠ 0 then c else h.readC q := by
  by_cases hq : q = r
  · subst hq
    by_cases h0 : q = 0
    · subst h0; simp
    · simp [h0, h.readC_writeC_same h0]
  · simp [hq, h.readC_writeC_ne hq]

@[simp] theorem Hart.writeX_xlen (h : Hart p) (r : Reg) (v : XWord p.format) : (h.writeX r v).xlen = h.xlen := by
  simp [Hart.writeX]

@[simp] theorem Hart.writeX_pcc (h : Hart p) (r : Reg) (v : XWord p.format) : (h.writeX r v).pcc = h.pcc := by
  simp [Hart.writeX]

@[simp] theorem Hart.writeX_tid (h : Hart p) (r : Reg) (v : XWord p.format) : (h.writeX r v).tid = h.tid := by
  simp [Hart.writeX]

@[simp] theorem Hart.writeX_mem (h : Hart p) (r : Reg) (v : XWord p.format) : (h.writeX r v).mem = h.mem := by
  simp [Hart.writeX]

theorem Hart.readC_writeX (h : Hart p) (r q : Reg) (v : XWord p.format) :
    (h.writeX r v).readC q = if q = r ∧ r ≠ 0 then Cap.ofInt p.format v else h.readC q :=
  h.readC_writeC r q _

/-! ## pcc -/

@[simp] theorem Hart.advance_xlen (h : Hart p) : h.advance.xlen = h.xlen := rfl
@[simp] theorem Hart.advance_regs (h : Hart p) : h.advance.regs = h.regs := rfl
@[simp] theorem Hart.advance_tid (h : Hart p) : h.advance.tid = h.tid := rfl
@[simp] theorem Hart.advance_mem (h : Hart p) : h.advance.mem = h.mem := rfl
@[simp] theorem Hart.advance_pcc (h : Hart p) : h.advance.pcc = { h.pcc with address := h.pc + 4 } := rfl
@[simp] theorem Hart.advance_pc (h : Hart p) : h.advance.pc = h.pc + 4 := rfl
@[simp] theorem Hart.advance_readC (h : Hart p) (r : Reg) : h.advance.readC r = h.readC r := rfl
@[simp] theorem Hart.advance_readX (h : Hart p) (r : Reg) : h.advance.readX r = h.readX r := rfl

@[simp] theorem Hart.setPcc_readC (h : Hart p) (c : Cap p.format) (r : Reg) :
    Hart.readC { h with pcc := c } r = h.readC r := rfl

@[simp] theorem Hart.setMem_readC (h : Hart p) (m : Memory) (r : Reg) : Hart.readC { h with mem := m } r = h.readC r := rfl

@[simp] theorem Hart.setMem_pc (h : Hart p) (m : Memory) : Hart.pc { h with mem := m } = h.pc := rfl

@[simp] theorem Hart.writeC_pc (h : Hart p) (r : Reg) (c : Cap p.format) : (h.writeC r c).pc = h.pc := by simp [Hart.pc]

@[simp] theorem Hart.writeX_pc (h : Hart p) (r : Reg) (v : XWord p.format) : (h.writeX r v).pc = h.pc := by simp [Hart.pc]

/-! ## Capability values -/

@[simp] theorem ofInt_tag (f : Format) (v : XWord f) : (Cap.ofInt f v).tag = false := rfl
@[simp] theorem ofInt_address (f : Format) (v : XWord f) : (Cap.ofInt f v).address = v := rfl

section
variable {f : Format} (c : Cap f) (a : XWord f)
@[simp] theorem setAddr_address : (c.setAddr a).address = a := rfl
@[simp] theorem setAddr_sdp : (c.setAddr a).sdp = c.sdp := rfl
@[simp] theorem setAddr_ap : (c.setAddr a).ap = c.ap := rfl
@[simp] theorem setAddr_m : (c.setAddr a).m = c.m := rfl
@[simp] theorem setAddr_ct : (c.setAddr a).ct = c.ct := rfl
@[simp] theorem setAddr_ef : (c.setAddr a).ef = c.ef := rfl
@[simp] theorem setAddr_l8 : (c.setAddr a).l8 = c.l8 := rfl
@[simp] theorem setAddr_tstored : (c.setAddr a).tstored = c.tstored := rfl
@[simp] theorem setAddr_bstored : (c.setAddr a).bstored = c.bstored := rfl
@[simp] theorem setAddr_reserved : (c.setAddr a).reserved = c.reserved := rfl
theorem setAddr_tag : (c.setAddr a).tag = (c.tag && !c.isSealed && !c.malformed && c.representable a) := rfl
@[simp] theorem setAddr_perms : (c.setAddr a).perms = c.perms := rfl
@[simp] theorem setAddr_malformed : (c.setAddr a).malformed = c.malformed := rfl

/-- A tagged result of an address update has its source's bounds (R110, R111). -/
theorem setAddr_bounds (h : (c.setAddr a).tag = true) : (c.setAddr a).bounds = c.bounds := by
  simp only [setAddr_tag, Bool.and_eq_true] at h
  exact (of_decide_eq_true h.2).symm

/-- The bounds depend on the bounds fields and the address only (R96). -/
theorem bounds_congr {c d : Cap f} (h1 : c.ef = d.ef) (h2 : c.l8 = d.l8) (h3 : c.tstored = d.tstored)
    (h4 : c.bstored = d.bstored) (h5 : c.address = d.address) : c.bounds = d.bounds := by
  cases c; cases d; simp only at h1 h2 h3 h4 h5; subst h1 h2 h3 h4 h5; rfl

/-- Malformedness depends on EF, L8, the stored T and the stored B only (R94). -/
theorem malformed_congr {c d : Cap f} (h1 : c.ef = d.ef) (h2 : c.l8 = d.l8) (h3 : c.tstored = d.tstored)
    (h4 : c.bstored = d.bstored) : c.malformed = d.malformed := by
  cases c; cases d; simp only at h1 h2 h3 h4; subst h1 h2 h3 h4; rfl

end

/-! ## Outcomes -/

/-- What a lifted outcome is when it is a next state. -/
theorem liftHart_next_iff {o : Host.Outcome (Hart p) Fault Refusal} {t : State} :
    liftHart o = .next t ↔ ∃ h', o = .next h' ∧ t = { params := p, hart := h' } := by
  cases o <;> simp [liftHart, eq_comm]

@[simp] theorem liftHart_next (h' : Hart p) : liftHart (.next h') = .next { params := p, hart := h' } := rfl

/-- The checks let the state through exactly when they pass. -/
theorem Check.andNext_next_iff {k : Check} {h' h'' : Hart p} : k.andNext h' = .next h'' ↔ k = .pass ∧ h' = h'' := by
  cases k <;> simp [Check.andNext]

@[simp] theorem Check.pass_andNext (h' : Hart p) : Check.andNext .pass h' = .next h' := rfl

end Sys2Proof.Machine
end

