-- ==== Sys2Proof/Laws/Access.lean ====
section
/-! SUPPORT. What the checks of an access say once and for all, and what a fetch needs. -/

namespace Sys2Proof.Machine

variable {p : Params} {f : Format}

/-- None of the first three conditions of R37 fails exactly when all hold. -/
theorem grantViolation_none_iff (auth : Cap f) (needs : List Perm) :
    grantViolation auth needs = none ↔ auth.tag = true ∧ auth.ct = false ∧ ∀ q ∈ needs, auth.perms.has q = true := by
  unfold grantViolation Cap.isSealed
  cases auth.tag
  · simp
  · cases auth.ct
    · simp
    · simp

theorem grantViolation_tag {auth : Cap f} (needs : List Perm) (h : auth.tag = false) :
    grantViolation auth needs = some .tagViolation := by
  simp [grantViolation, h]

theorem grantViolation_seal {auth : Cap f} (needs : List Perm) (h1 : auth.tag = true) (h2 : auth.ct = true) :
    grantViolation auth needs = some .sealViolation := by
  simp [grantViolation, Cap.isSealed, h1, h2]

theorem grantViolation_permit {auth : Cap f} {needs : List Perm} {q : Perm} (h1 : auth.tag = true) (h2 : auth.ct = false)
    (hq : needs.find? (fun q => !auth.perms.has q) = some q) : grantViolation auth needs = some (.permitViolation q) := by
  simp [grantViolation, Cap.isSealed, h1, h2, hq]

/-- A failed grant is what the access reports, whatever else fails. -/
theorem Hart.check_of_violation (h : Hart p) {access : Access} {auth : Cap p.format} {cause : SubCause} (addr n : Nat)
    (hv : grantViolation auth (access.needs p.withoutC) = some cause) :
    h.check access auth addr n = .fault (h.raise cause access addr) := by
  simp [Hart.check, hv]

/-- Once tag, seal and permission are granted, the rest of the checks in their order. -/
theorem Hart.check_of_granted (h : Hart p) {access : Access} {auth : Cap p.format} (addr n : Nat) (h1 : auth.tag = true)
    (h2 : auth.ct = false) (h3 : ∀ q ∈ access.needs p.withoutC, auth.perms.has q = true) :
    h.check access auth addr n =
      if access.isInteger ∧ addr % n ≠ 0 then h.misaligned access addr
      else if !auth.inBounds addr n then .fault (h.raise .boundsViolation access addr)
      else if 2 ^ p.format.mxlen.bits < addr + n then .refuse (.pastAddressSpace addr)
      else if addr % n ≠ 0 then h.misaligned access addr
      else if h.mem.presentRange addr n then .pass
      else .fault (.stuck access.kind addr h.pc.toNat) := by
  simp only [Hart.check, (grantViolation_none_iff auth _).2 ⟨h1, h2, h3⟩]

theorem Hart.misaligned_ne_pass (h : Hart p) (access : Access) (addr : Nat) : h.misaligned access addr ≠ .pass := by
  cases access <;> simp [Hart.misaligned]

/-- An access is let through exactly when the four conditions hold, it ends inside the address space, it is aligned and its
bytes exist. -/
theorem Hart.check_pass_iff (h : Hart p) (access : Access) (auth : Cap p.format) (addr n : Nat) :
    h.check access auth addr n = .pass ↔
      auth.tag = true ∧ auth.ct = false ∧ (∀ q ∈ access.needs p.withoutC, auth.perms.has q = true) ∧
      auth.inBounds addr n = true ∧ addr + n ≤ 2 ^ p.format.mxlen.bits ∧ addr % n = 0 ∧
      h.mem.presentRange addr n = true := by
  cases hv : grantViolation auth (access.needs p.withoutC) with
  | some cause =>
    rw [Hart.check_of_violation h addr n hv]
    simp only [reduceCtorEq, false_iff]
    intro hc
    rw [(grantViolation_none_iff auth _).2 ⟨hc.1, hc.2.1, hc.2.2.1⟩] at hv
    exact absurd hv (by simp)
  | none =>
    obtain ⟨k1, k2, k3⟩ := (grantViolation_none_iff auth _).1 hv
    rw [Hart.check_of_granted h addr n k1 k2 k3]
    by_cases h2 : addr % n = 0
    · cases hb : auth.inBounds addr n
      · simp [h2]
      · by_cases h1 : 2 ^ p.format.mxlen.bits < addr + n
        · simp only [h2, h1, ne_eq, not_true_eq_false, and_false, if_false, Bool.not_true, Bool.false_eq_true, if_true,
            reduceCtorEq, false_iff]
          omega
        · cases hp : h.mem.presentRange addr n
          · simp [h1, h2]
          · simp only [h2, h1, ne_eq, not_true_eq_false, and_false, if_false, Bool.not_true, Bool.false_eq_true, if_true,
              true_iff]
            exact ⟨k1, k2, k3, trivial, by omega, trivial, trivial⟩
    · have hne : h.misaligned access addr ≠ .pass := h.misaligned_ne_pass access addr
      simp only [h2, false_and, and_false, iff_false]
      split
      · exact hne
      · split
        · simp
        · split
          · simp
          · simpa [h2] using hne

/-- A malformed capability passes no check (R95, R105). -/
theorem inBounds_malformed (c : Cap f) (hm : c.malformed = true) (addr n : Nat) (hn : 0 < n) : c.inBounds addr n = false := by
  simp only [Cap.inBounds, Cap.bounds, hm, if_true, Bool.and_eq_false_iff, decide_eq_false_iff_not]
  right
  simp
  omega

/-- What a fetched instruction tells: the checks of the fetch passed, the mode is not the integer mode, and the bytes at pc decode to
it (R128). -/
theorem Hart.fetch_instr_iff (h : Hart p) (i : Instr) :
    h.fetch = .instr i ↔
      h.check .fetch h.pcc h.pc.toNat 4 = .pass ∧ (p.hybrid && h.pcc.mbit) = false ∧
      ∃ rest, decodeBytes p.decoder p.format.mxlen (h.mem.bytesAt h.pc.toNat 4) = .ok (i, rest) := by
  unfold Hart.fetch
  cases h.check .fetch h.pcc h.pc.toNat 4 with
  | pass =>
    cases hb : (p.hybrid && h.pcc.mbit)
    · cases hd : decodeBytes p.decoder p.format.mxlen (h.mem.bytesAt h.pc.toNat 4) with
      | ok a => simp [Prod.ext_iff]
      | error e => simp
    · simp
  | fault r => simp
  | refuse r => simp

/-- A step that goes on has run exactly one fetched instruction. -/
theorem step_next_iff (s t : State) :
    step s = .next t ↔
      s.params.levels = false ∧ s.hart.xlen = s.params.format.mxlen ∧ ∃ i, s.hart.fetch = .instr i ∧ exec i s = .next t := by
  unfold step
  cases hl : s.params.levels
  · by_cases hx : s.hart.xlen = s.params.format.mxlen
    · cases hf : s.hart.fetch <;> simp [hx]
    · simp [hx]
  · simp

end Sys2Proof.Machine
end

