-- ==== Sys2Proof/Laws/Bounds.lean ====
section
/-! SUPPORT. The arithmetic of the bounds decoding (41_bounds.md R90 to R97) for plain numbers: where the decoded base lies, and how
far above it the decoded top is. `Q` stands for 2^E, `K` for 2^(MW-2), `N` for 2^(MXLEN-E-MW). -/

namespace Sys2Proof.Arith

/-- 1 where v is below r. -/
def below (r v : Nat) : Int := if v < r then 1 else 0

theorem lower_cases (K b : Nat) (hb : b < 4 * K) :
    (K ≤ b ∧ (b + 4 * K - K) % (4 * K) = b - K) ∨ (b < K ∧ (b + 4 * K - K) % (4 * K) = b + 3 * K) := by
  by_cases h : K ≤ b
  · left
    refine ⟨h, ?_⟩
    rw [show b + 4 * K - K = (b - K) + 4 * K by omega, Nat.add_mod_right, Nat.mod_eq_of_lt (by omega)]
  · right
    refine ⟨by omega, ?_⟩
    rw [Nat.mod_eq_of_lt (by omega)]
    omega

/-- A remainder of an integer sum, moved by a whole number of moduli. -/
theorem emod_toNat_spec (N : Nat) (hN : 0 < N) (z : Int) : ∃ k : Int, ((z % (N : Int)).toNat : Int) = z + k * N ∧ (z % (N : Int)).toNat < N := by
  have hN' : (0 : Int) < N := by exact_mod_cast hN
  refine ⟨-(z / N), ?_, ?_⟩
  · rw [Int.toNat_of_nonneg (Int.emod_nonneg _ (ne_of_gt hN')), Int.emod_def]
    ring
  · have := Int.emod_lt_of_pos z hN'
    have h0 := Int.emod_nonneg z (ne_of_gt hN')
    omega

/-- The address in terms of its upper section and the middle bits. -/
theorem split_address (Q K a : Nat) (hQ : 0 < Q) :
    ∃ m, a = a / (4 * K * Q) * (4 * K * Q) + m ∧ (a / Q % (4 * K)) * Q ≤ m ∧ m < (a / Q % (4 * K) + 1) * Q := by
  refine ⟨a % (4 * K * Q), (Nat.div_add_mod' a _).symm, ?_, ?_⟩
  · have h1 : a / Q % (4 * K) = a % (4 * K * Q) / Q := by
      rw [Nat.mul_comm (4 * K) Q, Nat.mod_mul_right_div_self]
    rw [h1]
    exact Nat.div_mul_le_self _ _
  · have h1 : a / Q % (4 * K) = a % (4 * K * Q) / Q := by
      rw [Nat.mul_comm (4 * K) Q, Nat.mod_mul_right_div_self]
    rw [h1, Nat.add_mul, one_mul]
    have := Nat.lt_div_mul_add (a := a % (4 * K * Q)) hQ
    omega

/-- How far the address lies above the window's start, s/4 below the base, within its own s-sized block. -/
theorem window_offset (Q K A b m : Nat) (hb : b < 4 * K) (hA : A < 4 * K) (hm1 : A * Q ≤ m) (hm2 : m < (A + 1) * Q) :
    let r := (b + 4 * K - K) % (4 * K)
    ∃ d : Nat, d < 4 * (K * Q) ∧ (d : Int) + (below r b - below r A) * (4 * (K * Q)) + b * Q = m + K * Q := by
  intro r
  have hA1 : (A + 1) * Q ≤ 4 * K * Q := Nat.mul_le_mul_right Q hA
  have hA2 : (A + 1) * Q = A * Q + Q := by ring
  have hK : 4 * K * Q = 4 * (K * Q) := by ring
  rw [hA2] at hm2 hA1
  rw [hK] at hA1
  rcases lower_cases K b hb with ⟨hKb, hr⟩ | ⟨hbK, hr⟩
  · have h1 : K * Q ≤ b * Q := Nat.mul_le_mul_right Q hKb
    have h2 : b * Q ≤ 4 * K * Q := Nat.mul_le_mul_right Q hb.le
    rw [hK] at h2
    have hr' : r = b - K := hr
    have hbr : ¬ b < r := by omega
    by_cases hAr : A < r
    · have h3 : (A + 1 + K) * Q ≤ b * Q := Nat.mul_le_mul_right Q (by omega)
      have h4 : (A + 1 + K) * Q = A * Q + Q + K * Q := by ring
      rw [h4] at h3
      refine ⟨m + K * Q + 4 * (K * Q) - b * Q, by omega, ?_⟩
      simp only [below, hbr, hAr, if_true, if_false]
      push_cast [Nat.cast_sub (show b * Q ≤ m + K * Q + 4 * (K * Q) by omega)]
      ring
    · have h3 : b * Q ≤ (A + K) * Q := Nat.mul_le_mul_right Q (by omega)
      have h4 : (A + K) * Q = A * Q + K * Q := by ring
      rw [h4] at h3
      refine ⟨m + K * Q - b * Q, by omega, ?_⟩
      simp only [below, hbr, hAr, if_false]
      push_cast [Nat.cast_sub (show b * Q ≤ m + K * Q by omega)]
      ring
  · have h1 : b * Q ≤ K * Q := Nat.mul_le_mul_right Q hbK.le
    have hr' : r = b + 3 * K := hr
    have hbr : b < r := by omega
    by_cases hAr : A < r
    · have h3 : (A + 1) * Q ≤ (b + 3 * K) * Q := Nat.mul_le_mul_right Q (by omega)
      have h4 : (b + 3 * K) * Q = b * Q + 3 * (K * Q) := by ring
      rw [h4, hA2] at h3
      refine ⟨m + K * Q - b * Q, by omega, ?_⟩
      simp only [below, hbr, hAr, if_true]
      push_cast [Nat.cast_sub (show b * Q ≤ m + K * Q by omega)]
      ring
    · have h3 : (b + 3 * K) * Q ≤ A * Q := Nat.mul_le_mul_right Q (by omega)
      have h4 : (b + 3 * K) * Q = b * Q + 3 * (K * Q) := by ring
      rw [h4] at h3
      refine ⟨m + K * Q - (b * Q + 4 * (K * Q)), by omega, ?_⟩
      simp only [below, hbr, hAr, if_true, if_false]
      push_cast [Nat.cast_sub (show b * Q + 4 * (K * Q) ≤ m + K * Q by omega)]
      ring

/-- The decoded base, as an integer: the address lies in the window of s = 4 * K * Q bytes that starts s/4 below it, modulo the
address space N * s. -/
theorem base_window (Q K N a b : Nat) (hQ : 0 < Q) (hN : 0 < N) (hb : b < 4 * K) :
    let r := (b + 4 * K - K) % (4 * K)
    let corr := below r b - below r (a / Q % (4 * K))
    let ub := ((((a / (4 * K * Q) : Nat) : Int) + corr) % (N : Int)).toNat
    ub < N ∧ ∃ (k : Int) (d : Nat), d < 4 * (K * Q) ∧
      ((ub * (4 * K) + b) * Q : Int) + d = a + K * Q + k * (N * (4 * K * Q)) := by
  intro r corr ub
  obtain ⟨k, hk, hub⟩ := emod_toNat_spec N hN (((a / (4 * K * Q) : Nat) : Int) + corr)
  obtain ⟨m, hm, hm1, hm2⟩ := split_address Q K a hQ
  obtain ⟨d, hd, hd'⟩ := window_offset Q K (a / Q % (4 * K)) b m hb (Nat.mod_lt _ (by omega)) hm1 hm2
  refine ⟨hub, k, d, hd, ?_⟩
  have haz : (a : Int) = (a / (4 * K * Q) : Nat) * (4 * K * Q) + m := by exact_mod_cast hm
  have hub' : (ub : Int) = (a / (4 * K * Q) : Nat) + corr + k * N := hk
  have hd'' : (d : Int) + corr * (4 * (K * Q)) + b * Q = m + K * Q := hd'
  rw [hub']
  linear_combination hd'' - haz

/-- The difference of the two corrections turns T - B into the length: L = (T - B) modulo W, when L is less than half the
window. -/
theorem correction_length (K b t : Nat) (hb : b < 4 * K) (ht : t < 4 * K) (hL : (t + 4 * K - b) % (4 * K) < 2 * K) :
    let r := (b + 4 * K - K) % (4 * K)
    (below r t - below r b) * (4 * K) + t - b = (((t + 4 * K - b) % (4 * K) : Nat) : Int) := by
  intro r
  have hlen : (t + 4 * K - b) % (4 * K) = if b ≤ t then t - b else t + 4 * K - b := by
    split
    · rw [show t + 4 * K - b = (t - b) + 4 * K by omega, Nat.add_mod_right, Nat.mod_eq_of_lt (by omega)]
    · rw [Nat.mod_eq_of_lt (by omega)]
  rw [hlen] at hL ⊢
  rcases lower_cases K b hb with ⟨_, hr⟩ | ⟨_, hr⟩ <;>
    (have hr' : r = _ := hr
     unfold below
     rw [hr']
     split at hL <;> rename_i hbt <;> simp only [hbt, if_true, if_false] <;> split <;> split <;> omega)

/-- The top-bit correction of R97 for a top that is base + len modulo 2H. `H` is 2^(MXLEN-1). -/
theorem top_fixed (H base len top : Nat) (hb : base < 2 * H) (hl : len < H) (ht : top < 4 * H)
    (hc : ∃ k : Int, (top : Int) = base + len + k * (2 * H)) :
    (if 1 < (top / H % 4 + 4 - base / H % 2) % 4 then (top + 2 * H) % (4 * H) else top) = base + len := by
  have hq : ∀ n q : Nat, q * H ≤ n → n < (q + 1) * H → n / H = q := fun n q h1 h2 => Nat.div_eq_of_lt_le h1 h2
  obtain ⟨k, hk⟩ := hc
  have hkr : k = 0 ∨ k = -1 ∨ k = 1 := by
    by_contra hcon
    have : k ≤ -2 ∨ 2 ≤ k := by omega
    rcases this with h | h <;> nlinarith
  have htop : top = base + len ∨ top + 2 * H = base + len ∨ top = base + len + 2 * H := by
    rcases hkr with h | h | h <;> subst h <;> omega
  have hup : ∀ v, v < 4 * H → (v + 2 * H + 2 * H) % (4 * H) = v := fun v hv => by
    rw [show v + 2 * H + 2 * H = v + 4 * H by omega, Nat.add_mod_right, Nat.mod_eq_of_lt hv]
  by_cases h1 : base < H
  · have hbq : base / H = 0 := hq base 0 (by omega) (by omega)
    rcases htop with h | h | h
    · by_cases h2 : base + len < H
      · rw [hbq, hq top 0 (by omega) (by omega), if_neg (by decide), h]
      · rw [hbq, hq top 1 (by omega) (by omega), if_neg (by decide), h]
    · omega
    · by_cases h2 : base + len < H
      · rw [hbq, hq top 2 (by omega) (by omega), if_pos (by decide), h, hup _ (by omega)]
      · rw [hbq, hq top 3 (by omega) (by omega), if_pos (by decide), h, hup _ (by omega)]
  · have hbq : base / H = 1 := hq base 1 (by omega) (by omega)
    rcases htop with h | h | h
    · by_cases h2 : base + len < 2 * H
      · rw [hbq, hq top 1 (by omega) (by omega), if_neg (by decide), h]
      · rw [hbq, hq top 2 (by omega) (by omega), if_neg (by decide), h]
    · rw [hbq, hq top 0 (by omega) (by omega), if_pos (by decide), h, Nat.mod_eq_of_lt (by omega)]
    · rw [hbq, hq top 3 (by omega) (by omega), if_pos (by decide), h, hup _ (by omega)]

end Sys2Proof.Arith
end

