-- ==== Sys2Proof/Laws/Decoding.lean ====
section
/-! SUPPORT. What the decoded bounds of a well-formed capability are (41_bounds.md R90 to R97), cited instead of unfolding
`Cap.bounds`. -/

namespace Sys2Proof

/-! ## E, B and T -/

theorem half_lt_mw (x : Mxlen) : x.half ≤ x.mw - 2 ∧ x.mw - 2 + 2 = x.mw := by cases x <;> decide

theorem clearLow_le (x : Mxlen) (v : Nat) : clearLow x v ≤ v := Nat.div_mul_le_self _ _

section
variable {f : Format} (c : Cap f)

theorem decB_lt : c.decB < 2 ^ f.mxlen.mw := by
  unfold Cap.decB
  split
  · exact c.bstored.isLt
  · exact Nat.lt_of_le_of_lt (clearLow_le _ _) c.bstored.isLt

theorem tLow_lt : c.tLow < 2 ^ (f.mxlen.mw - 2) := by
  unfold Cap.tLow
  split
  · exact c.tstored.isLt
  · exact Nat.lt_of_le_of_lt (clearLow_le _ _) c.tstored.isLt

theorem bLow_lt : c.bLow < 2 ^ (f.mxlen.mw - 2) := Nat.mod_lt _ (Nat.two_pow_pos _)

theorem lMsb_le : c.lMsb ≤ 1 := by
  unfold Cap.lMsb
  split
  · have := c.l8.isLt
    rcases f with ⟨x, n⟩
    cases x <;> simp at this <;> omega
  · exact Nat.le_refl 1

theorem clearLow_div (x : Mxlen) (v : Nat) : clearLow x v / 2 ^ x.half = v / 2 ^ x.half :=
  Nat.mul_div_cancel _ (Nat.two_pow_pos _)

/-- A multiple of 2^EW/2 is below another exactly when its upper part is. -/
theorem div_lt_iff_of_dvd {q a b : Nat} (hq : 0 < q) (ha : q ∣ a) (hb : q ∣ b) : a / q < b / q ↔ a < b := by
  obtain ⟨i, rfl⟩ := ha
  obtain ⟨j, rfl⟩ := hb
  rw [Nat.mul_div_cancel_left _ hq, Nat.mul_div_cancel_left _ hq]
  exact (Nat.mul_lt_mul_left hq).symm

/-- LCout is the comparison of the low parts, in both formats (R90). -/
theorem lCout_eq : c.lCout = if c.tLow < c.bLow then 1 else 0 := by
  unfold Cap.lCout
  cases he : c.ef
  · simp only [Bool.false_eq_true, if_false]
    have hq : 0 < 2 ^ f.mxlen.half := Nat.two_pow_pos _
    have ht : 2 ^ f.mxlen.half ∣ c.tLow := by simp [Cap.tLow, he, clearLow]
    have hb : 2 ^ f.mxlen.half ∣ c.bLow := by
      unfold Cap.bLow
      have h1 : 2 ^ f.mxlen.half ∣ c.decB := by simp [Cap.decB, he, clearLow]
      exact (Nat.dvd_mod_iff (pow_dvd_pow 2 (half_lt_mw f.mxlen).1)).2 h1
    by_cases h : c.tLow < c.bLow
    · rw [if_pos ((div_lt_iff_of_dvd hq ht hb).2 h), if_pos h]
    · rw [if_neg (fun h' => h ((div_lt_iff_of_dvd hq ht hb).1 h')), if_neg h]
  · simp

theorem decT_lt : c.decT < 2 ^ f.mxlen.mw := by
  have h1 := tLow_lt c
  have h2 : (2 : Nat) ^ f.mxlen.mw = 4 * 2 ^ (f.mxlen.mw - 2) := by cases f.mxlen <;> decide
  unfold Cap.decT
  rw [h2]
  generalize (c.decB / 2 ^ (f.mxlen.mw - 2) + c.lCout + c.lMsb) = v
  have : v % 4 < 4 := Nat.mod_lt _ (by decide)
  nlinarith

/-- The length in units of 2^E: L = (T - B) modulo 2^MW (R90, R99). -/
def Cap.length : Nat := (c.decT + 2 ^ f.mxlen.mw - c.decB) % 2 ^ f.mxlen.mw

/-- L has LMSB as its bit MW-2 and the low difference below it (R90). -/
theorem length_eq : c.length = c.lMsb * 2 ^ (f.mxlen.mw - 2) + (c.tLow + 2 ^ (f.mxlen.mw - 2) - c.bLow) % 2 ^ (f.mxlen.mw - 2) := by
  have hW : (2 : Nat) ^ f.mxlen.mw = 4 * 2 ^ (f.mxlen.mw - 2) := by cases f.mxlen <;> decide
  have hb := decB_lt c
  have ht := tLow_lt c
  have hbl := bLow_lt c
  have hm := lMsb_le c
  have hsplit : c.decB = c.decB / 2 ^ (f.mxlen.mw - 2) * 2 ^ (f.mxlen.mw - 2) + c.bLow := (Nat.div_add_mod' _ _).symm
  unfold Cap.length Cap.decT
  rw [lCout_eq, hW]
  rw [hW] at hb
  generalize 2 ^ (f.mxlen.mw - 2) = K at *
  generalize c.tLow = tl at *
  generalize c.bLow = bl at *
  generalize c.lMsb = lm at *
  generalize c.decB = B at *
  have hq : B / K < 4 := Nat.div_lt_of_lt_mul (by omega)
  generalize B / K = q at *
  subst hsplit
  have hlow : (tl + K - bl) % K = if tl < bl then tl + K - bl else tl - bl := by
    split
    · exact Nat.mod_eq_of_lt (by omega)
    · rw [show tl + K - bl = (tl - bl) + K by omega, Nat.add_mod_right, Nat.mod_eq_of_lt (by omega)]
  rw [hlow]
  have hup : ∀ v, (v + 4 * K) % (4 * K) = v % (4 * K) := fun v => Nat.add_mod_right _ _
  have hlm : lm = 0 ∨ lm = 1 := by omega
  have hq' : q = 0 ∨ q = 1 ∨ q = 2 ∨ q = 3 := by omega
  rcases hlm with rfl | rfl <;> rcases hq' with rfl | rfl | rfl | rfl <;> split <;> simp only [Nat.reduceAdd, Nat.reduceMod] <;>
    first
    | rw [Nat.mod_eq_of_lt (by omega)]; omega
    | (rw [Nat.mod_eq_sub_mod (by omega), Nat.mod_eq_of_lt (by omega)]; omega)

theorem length_lt : c.length < 2 ^ (f.mxlen.mw - 1) := by
  have h1 : (2 : Nat) ^ (f.mxlen.mw - 1) = 2 * 2 ^ (f.mxlen.mw - 2) := by cases f.mxlen <;> decide
  have h2 := lMsb_le c
  have h3 : (c.tLow + 2 ^ (f.mxlen.mw - 2) - c.bLow) % 2 ^ (f.mxlen.mw - 2) < 2 ^ (f.mxlen.mw - 2) :=
    Nat.mod_lt _ (Nat.two_pow_pos _)
  have h4 : c.lMsb * 2 ^ (f.mxlen.mw - 2) ≤ 1 * 2 ^ (f.mxlen.mw - 2) := Nat.mul_le_mul_right _ h2
  rw [length_eq, h1]
  omega

/-! ## The exponent of a well-formed capability -/

theorem exponent_range (hm : c.malformed = false) : 0 ≤ c.exponent ∧ c.exponent ≤ f.mxlen.capMaxE := by
  simp only [Cap.malformed, Cap.malformedLsb, Bool.and_eq_false_iff, Bool.or_eq_false_iff, decide_eq_false_iff_not,
    Bool.not_eq_false'] at hm
  constructor
  · rcases hm with h | h
    · simp [Cap.exponent, h]
    · have := h.2.1
      omega
  · unfold Cap.exponent
    split
    · exact Int.natCast_nonneg _
    · omega

end

/-! ## Base and top for plain numbers -/

theorem belowR_eq (r v : Nat) : belowR r v = Arith.below r v := rfl

/-- Where the decoded base lies (R91, R92, R93, R96): congruent to B * 2^E modulo s = 2^(E+MW), the address within the s bytes from
s/4 below it, modulo 2^MXLEN. -/
theorem rawBase_spec (x : Mxlen) (e b a : Nat) (he : e + x.mw ≤ x.bits) (hb : b < 2 ^ x.mw) :
    rawBase x e b a < 2 ^ x.bits ∧ rawBase x e b a % 2 ^ (e + x.mw) = b * 2 ^ e ∧
    ∃ (k : Int) (d : Nat), d < 2 ^ (e + x.mw) ∧
      (rawBase x e b a : Int) + d = a + 2 ^ (e + x.mw - 2) + k * 2 ^ x.bits := by
  have hW : (2 : Nat) ^ x.mw = 4 * 2 ^ (x.mw - 2) := by cases x <;> decide
  have hmw : 2 ≤ x.mw := by cases x <;> decide
  have hs : (2 : Nat) ^ (e + x.mw) = 4 * 2 ^ (x.mw - 2) * 2 ^ e := by rw [pow_add, hW]; ring
  have hs4 : (2 : Nat) ^ (e + x.mw - 2) = 2 ^ (x.mw - 2) * 2 ^ e := by
    rw [show e + x.mw - 2 = (x.mw - 2) + e by omega, pow_add]
  have hX : (2 : Nat) ^ x.bits = 2 ^ (x.bits - (e + x.mw)) * (4 * 2 ^ (x.mw - 2) * 2 ^ e) := by
    rw [← hs, ← pow_add]; congr 1; omega
  obtain ⟨hub, k, d, hd, heq⟩ := Arith.base_window (2 ^ e) (2 ^ (x.mw - 2)) (2 ^ (x.bits - (e + x.mw))) a b
    (Nat.two_pow_pos _) (Nat.two_pow_pos _) (hW ▸ hb)
  have hraw : rawBase x e b a = (((((a / (4 * 2 ^ (x.mw - 2) * 2 ^ e) : Nat) : Int) +
      (Arith.below ((b + 4 * 2 ^ (x.mw - 2) - 2 ^ (x.mw - 2)) % (4 * 2 ^ (x.mw - 2))) b -
       Arith.below ((b + 4 * 2 ^ (x.mw - 2) - 2 ^ (x.mw - 2)) % (4 * 2 ^ (x.mw - 2))) (a / 2 ^ e % (4 * 2 ^ (x.mw - 2))))) %
      ((2 ^ (x.bits - (e + x.mw)) : Nat) : Int)).toNat * (4 * 2 ^ (x.mw - 2)) + b) * 2 ^ e := by
    simp only [rawBase, if_pos he, upperSection, corrB, lowerR, middleA, belowR_eq, hW, hs]
  rw [← hs] at hub
  generalize hgen : (((((a / (4 * 2 ^ (x.mw - 2) * 2 ^ e) : Nat) : Int) +
      (Arith.below ((b + 4 * 2 ^ (x.mw - 2) - 2 ^ (x.mw - 2)) % (4 * 2 ^ (x.mw - 2))) b -
       Arith.below ((b + 4 * 2 ^ (x.mw - 2) - 2 ^ (x.mw - 2)) % (4 * 2 ^ (x.mw - 2))) (a / 2 ^ e % (4 * 2 ^ (x.mw - 2))))) %
      ((2 ^ (x.bits - (e + x.mw)) : Nat) : Int)).toNat) = ub at *
  rw [← hs] at hgen
  rw [hraw]
  rw [hgen] at hub
  have hb4 : b < 4 * 2 ^ (x.mw - 2) := hW ▸ hb
  refine ⟨?_, ?_, k, d, ?_, ?_⟩
  · rw [hX]
    have h1 : ub * (4 * 2 ^ (x.mw - 2)) + b < 2 ^ (x.bits - (e + x.mw)) * (4 * 2 ^ (x.mw - 2)) := by nlinarith
    calc (ub * (4 * 2 ^ (x.mw - 2)) + b) * 2 ^ e < 2 ^ (x.bits - (e + x.mw)) * (4 * 2 ^ (x.mw - 2)) * 2 ^ e :=
          Nat.mul_lt_mul_of_pos_right h1 (Nat.two_pow_pos _)
      _ = _ := by ring
  · rw [hs, Nat.add_mul, show ub * (4 * 2 ^ (x.mw - 2)) * 2 ^ e = 4 * 2 ^ (x.mw - 2) * 2 ^ e * ub by ring, Nat.mul_add_mod]
    exact Nat.mod_eq_of_lt (Nat.mul_lt_mul_of_pos_right hb4 (Nat.two_pow_pos _))
  · rw [hs]
    calc d < 4 * (2 ^ (x.mw - 2) * 2 ^ e) := hd
      _ = _ := by ring
  · have h2 : ((2 : Int) ^ x.bits) = (2 ^ (x.bits - (e + x.mw)) : Int) * (4 * 2 ^ (x.mw - 2) * 2 ^ e) := by exact_mod_cast hX
    have h3 : ((2 : Int) ^ (e + x.mw - 2)) = 2 ^ (x.mw - 2) * 2 ^ e := by exact_mod_cast hs4
    rw [h2, h3]
    push_cast at heq ⊢
    linarith

/-- The decoded top, its top bit corrected, is L * 2^E above the decoded base (R93, R96, R97). -/
theorem fixTop_spec (x : Mxlen) (e b t a : Nat) (he : e + x.mw ≤ x.bits) (hb : b < 2 ^ x.mw) (ht : t < 2 ^ x.mw)
    (hL : (t + 2 ^ x.mw - b) % 2 ^ x.mw < 2 ^ (x.mw - 1)) :
    fixTop x e (rawBase x e b a) (rawTop x e b t a) = rawBase x e b a + (t + 2 ^ x.mw - b) % 2 ^ x.mw * 2 ^ e := by
  have hW : (2 : Nat) ^ x.mw = 4 * 2 ^ (x.mw - 2) := by cases x <;> decide
  have hW1 : (2 : Nat) ^ (x.mw - 1) = 2 * 2 ^ (x.mw - 2) := by cases x <;> decide
  have hmw : 2 ≤ x.mw := by cases x <;> decide
  have hbits : 1 ≤ x.bits := by cases x <;> decide
  have hcap : e < x.capMaxE - 1 := by cases x <;> simp only [Mxlen.mw, Mxlen.bits, Mxlen.capMaxE] at * <;> omega
  have hH2 : (2 : Nat) ^ x.bits = 2 * 2 ^ (x.bits - 1) := by rw [← pow_succ']; congr 1; omega
  have hH4 : (2 : Nat) ^ (x.bits + 1) = 4 * 2 ^ (x.bits - 1) := by rw [pow_succ, hH2]; ring
  have hs : (2 : Nat) ^ (e + x.mw) = 2 ^ x.mw * 2 ^ e := by rw [pow_add]; ring
  have hX : (2 : Nat) ^ x.bits = 2 ^ (x.bits - (e + x.mw)) * (2 ^ x.mw * 2 ^ e) := by
    rw [← hs, ← pow_add]; congr 1; omega
  have hX2 : (2 : Nat) ^ (x.bits + 1) = 2 ^ (x.bits + 1 - (e + x.mw)) * (2 ^ x.mw * 2 ^ e) := by
    rw [← hs, ← pow_add]; congr 1; omega
  -- base and top before narrowing
  obtain ⟨kb, hkb, -⟩ := Arith.emod_toNat_spec (2 ^ (x.bits - (e + x.mw))) (Nat.two_pow_pos _)
    (((a / 2 ^ (e + x.mw) : Nat) : Int) + corrB x e b a)
  obtain ⟨kt, hkt, htl⟩ := Arith.emod_toNat_spec (2 ^ (x.bits + 1 - (e + x.mw))) (Nat.two_pow_pos _)
    (((a / 2 ^ (e + x.mw) : Nat) : Int) + corrT x e b t a)
  have hbase : (rawBase x e b a : Int) =
      ((((a / 2 ^ (e + x.mw) : Nat) : Int) + corrB x e b a + kb * (2 ^ (x.bits - (e + x.mw)) : Nat)) * (2 ^ x.mw : Nat) + b)
        * (2 ^ e : Nat) := by
    rw [← hkb]
    simp only [rawBase, if_pos he, upperSection]
    push_cast
    ring
  have htop : (rawTop x e b t a : Int) =
      ((((a / 2 ^ (e + x.mw) : Nat) : Int) + corrT x e b t a + kt * (2 ^ (x.bits + 1 - (e + x.mw)) : Nat)) * (2 ^ x.mw : Nat) + t)
        * (2 ^ e : Nat) := by
    rw [← hkt]
    simp only [rawTop, if_pos he, upperSection]
    push_cast
    ring
  have htoplt : rawTop x e b t a < 2 ^ (x.bits + 1) := by
    rw [hX2]
    simp only [rawTop, if_pos he, upperSection]
    generalize hu : ((((a / 2 ^ (e + x.mw) : Nat) : Int) + corrT x e b t a) %
      ((2 ^ (x.bits + 1 - (e + x.mw)) : Nat) : Int)).toNat = u at htl ⊢
    have h1 : u * 2 ^ x.mw + t < 2 ^ (x.bits + 1 - (e + x.mw)) * 2 ^ x.mw := by
      have h2 : (u + 1) * 2 ^ x.mw ≤ 2 ^ (x.bits + 1 - (e + x.mw)) * 2 ^ x.mw := Nat.mul_le_mul_right _ htl
      rw [Nat.add_mul, Nat.one_mul] at h2
      omega
    calc (u * 2 ^ x.mw + t) * 2 ^ e < 2 ^ (x.bits + 1 - (e + x.mw)) * 2 ^ x.mw * 2 ^ e :=
          Nat.mul_lt_mul_of_pos_right h1 (Nat.two_pow_pos _)
      _ = _ := by ring
  have hlen := Arith.correction_length (2 ^ (x.mw - 2)) b t (hW ▸ hb) (hW ▸ ht) (by rw [hW] at hL; rw [hW1] at hL; exact hL)
  have hWz : ((2 : Int) ^ x.mw) = 4 * 2 ^ (x.mw - 2) := by exact_mod_cast hW
  rw [← hW] at hlen
  have hcc : corrT x e b t a - corrB x e b a =
      Arith.below ((b + 2 ^ x.mw - 2 ^ (x.mw - 2)) % 2 ^ x.mw) t -
      Arith.below ((b + 2 ^ x.mw - 2 ^ (x.mw - 2)) % 2 ^ x.mw) b := by
    simp only [corrT, corrB, lowerR, belowR_eq]
    ring
  dsimp only at hlen
  rw [← hcc] at hlen
  generalize (t + 2 ^ x.mw - b) % 2 ^ x.mw = L at hlen hL ⊢
  have hlenH : L * 2 ^ e < 2 ^ (x.bits - 1) := by
    calc L * 2 ^ e < 2 ^ (x.mw - 1) * 2 ^ e :=
          Nat.mul_lt_mul_of_pos_right hL (Nat.two_pow_pos _)
      _ = 2 ^ (x.mw - 1 + e) := (pow_add ..).symm
      _ ≤ 2 ^ (x.bits - 1) := Nat.pow_le_pow_right (by decide) (by omega)
  have hfix := Arith.top_fixed (2 ^ (x.bits - 1)) (rawBase x e b a) (L * 2 ^ e) (rawTop x e b t a)
    (by rw [← hH2]; exact (rawBase_spec x e b a he hb).1) hlenH (by rw [← hH4]; exact htoplt) (by
      refine ⟨2 * kt - kb, ?_⟩
      rw [hbase, htop]
      push_cast
      have hXz : ((2 : Int) ^ (x.bits - (e + x.mw))) * (2 ^ x.mw * 2 ^ e) = 2 * 2 ^ (x.bits - 1) := by
        have := hX.symm.trans hH2
        exact_mod_cast this
      have hX2z : ((2 : Int) ^ (x.bits + 1 - (e + x.mw))) * (2 ^ x.mw * 2 ^ e) = 4 * 2 ^ (x.bits - 1) := by
        have := hX2.symm.trans hH4
        exact_mod_cast this
      push_cast at hlen
      linear_combination (2 : Int) ^ e * hlen + (corrT x e b t a - corrB x e b a) * 2 ^ e * hWz + kt * hX2z - kb * hXz)
  simp only [fixTop, hcap, true_and, topBitWrong, decide_eq_true_eq, hH2, hH4]
  exact hfix

/-! ## The bounds of a well-formed capability -/

section
variable {f : Format} (c : Cap f)

theorem decT_eq : c.decT = (c.decB + c.length) % 2 ^ f.mxlen.mw := by
  have hb := decB_lt c
  have ht := decT_lt c
  unfold Cap.length
  generalize (2 : Nat) ^ f.mxlen.mw = W at *
  rw [Nat.add_mod_mod, show c.decB + (c.decT + W - c.decB) = c.decT + W by omega, Nat.add_mod_right, Nat.mod_eq_of_lt ht]

/-- E + MW ≤ MXLEN: the base lies as `rawBase_spec` says and the top is length * 2^E above it (R96, R97, R99). -/
theorem bounds_small (hm : c.malformed = false) (he : c.exponent.toNat + f.mxlen.mw ≤ f.mxlen.bits) :
    c.bounds.base.toNat = rawBase f.mxlen c.exponent.toNat c.decB c.address.toNat ∧
    c.bounds.top.toNat = c.bounds.base.toNat + c.length * 2 ^ c.exponent.toNat := by
  have hs := rawBase_spec f.mxlen c.exponent.toNat c.decB c.address.toNat he (decB_lt c)
  have ht := fixTop_spec f.mxlen c.exponent.toNat c.decB c.decT c.address.toNat he (decB_lt c) (decT_lt c) (length_lt c)
  have hbase : c.bounds.base.toNat = rawBase f.mxlen c.exponent.toNat c.decB c.address.toNat := by
    simp only [Cap.bounds, hm, Bool.false_eq_true, if_false, BitVec.toNat_ofNat]
    exact Nat.mod_eq_of_lt hs.1
  refine ⟨hbase, ?_⟩
  have hlen : c.length * 2 ^ c.exponent.toNat < 2 ^ f.mxlen.bits := by
    calc c.length * 2 ^ c.exponent.toNat < 2 ^ (f.mxlen.mw - 1) * 2 ^ c.exponent.toNat :=
          Nat.mul_lt_mul_of_pos_right (length_lt c) (Nat.two_pow_pos _)
      _ = 2 ^ (f.mxlen.mw - 1 + c.exponent.toNat) := (pow_add ..).symm
      _ ≤ 2 ^ f.mxlen.bits := Nat.pow_le_pow_right (by decide) (by omega)
  rw [hbase]
  simp only [Cap.bounds, hm, Bool.false_eq_true, if_false, BitVec.toNat_ofNat]
  rw [ht]
  refine Nat.mod_eq_of_lt ?_
  rw [pow_succ]
  have := hs.1
  unfold Cap.length at hlen
  omega

/-- E + MW > MXLEN, that is E = CAP_MAX_E - 1 or E = CAP_MAX_E: base and top do not depend on the address (R93, R96, R102). -/
theorem bounds_large (hm : c.malformed = false) (he : ¬ c.exponent.toNat + f.mxlen.mw ≤ f.mxlen.bits) :
    c.bounds.base.toNat = c.decB * 2 ^ c.exponent.toNat ∧
    c.bounds.top.toNat = c.bounds.base.toNat + c.length * 2 ^ c.exponent.toNat := by
  obtain ⟨h0, h1⟩ := exponent_range c hm
  have hef : c.ef = false := by
    cases h : c.ef
    · rfl
    · exfalso; apply he; simp only [Cap.exponent, h, if_true]; cases f.mxlen <;> decide
  have hlt := length_lt c
  have hcap : f.mxlen.capMaxE + f.mxlen.mw = f.mxlen.bits + 2 ∧ 2 ≤ f.mxlen.mw := by cases f.mxlen <;> decide
  have hB : c.decB * 2 ^ c.exponent.toNat < 2 ^ f.mxlen.bits ∧ c.decB + c.length < 2 ^ f.mxlen.mw ∧
      (c.decB + c.length) * 2 ^ c.exponent.toNat < 2 ^ (f.mxlen.bits + 1) ∧ ¬ c.exponent.toNat < f.mxlen.capMaxE - 1 := by
    have hmsb : c.malformedMsb = false := by
      simp only [Cap.malformed, hef, Bool.not_false, Bool.true_and, Bool.or_eq_false_iff] at hm
      exact hm.1
    simp only [Cap.malformedMsb, Bool.or_eq_false_iff, Bool.and_eq_false_iff, decide_eq_false_iff_not, not_not] at hmsb
    have hW : (2 : Nat) ^ f.mxlen.mw = 2 * 2 ^ (f.mxlen.mw - 1) := by rw [← pow_succ']; congr 1; omega
    have hcases : c.exponent = f.mxlen.capMaxE ∨ c.exponent = (f.mxlen.capMaxE : Int) - 1 := by omega
    rcases hcases with h | h
    · have hb0 : c.decB = 0 := by
        rcases hmsb.1 with h' | h'
        · exact absurd h h'
        · exact h'
      have hE : c.exponent.toNat = f.mxlen.capMaxE := by omega
      refine ⟨by rw [hb0, Nat.zero_mul]; exact Nat.two_pow_pos _, by omega, ?_, by omega⟩
      rw [hb0, hE, Nat.zero_add]
      calc c.length * 2 ^ f.mxlen.capMaxE < 2 ^ (f.mxlen.mw - 1) * 2 ^ f.mxlen.capMaxE :=
            Nat.mul_lt_mul_of_pos_right hlt (Nat.two_pow_pos _)
        _ = 2 ^ (f.mxlen.bits + 1) := by rw [← pow_add]; congr 1; omega
    · have hb1 : c.decB < 2 ^ (f.mxlen.mw - 1) := by
        rcases hmsb.2 with h' | h'
        · exact absurd h h'
        · exact (Nat.div_eq_zero_iff.1 h').resolve_left (ne_of_gt (Nat.two_pow_pos _))
      have hE : c.exponent.toNat = f.mxlen.capMaxE - 1 := by omega
      refine ⟨?_, by omega, ?_, by omega⟩
      · rw [hE]
        calc c.decB * 2 ^ (f.mxlen.capMaxE - 1) < 2 ^ (f.mxlen.mw - 1) * 2 ^ (f.mxlen.capMaxE - 1) :=
              Nat.mul_lt_mul_of_pos_right hb1 (Nat.two_pow_pos _)
          _ = 2 ^ f.mxlen.bits := by rw [← pow_add]; congr 1; omega
      · rw [hE]
        calc (c.decB + c.length) * 2 ^ (f.mxlen.capMaxE - 1) < 2 ^ f.mxlen.mw * 2 ^ (f.mxlen.capMaxE - 1) :=
              Nat.mul_lt_mul_of_pos_right (by omega) (Nat.two_pow_pos _)
          _ = 2 ^ (f.mxlen.bits + 1) := by rw [← pow_add]; congr 1; omega
  obtain ⟨hB1, hB2, hB3, hB4⟩ := hB
  have hT : c.decT = c.decB + c.length := by rw [decT_eq, Nat.mod_eq_of_lt hB2]
  have hbase : c.bounds.base.toNat = c.decB * 2 ^ c.exponent.toNat := by
    simp only [Cap.bounds, hm, Bool.false_eq_true, if_false, BitVec.toNat_ofNat, rawBase, if_neg he]
    rw [Nat.mod_mod, Nat.mod_eq_of_lt hB1]
  refine ⟨hbase, ?_⟩
  rw [hbase]
  simp only [Cap.bounds, hm, Bool.false_eq_true, if_false, BitVec.toNat_ofNat, rawBase, rawTop, if_neg he, fixTop, hB4,
    false_and]
  rw [Nat.mod_mod, hT, Nat.mod_eq_of_lt hB3]
  ring

/-- Malformed bounds decode as (0, 0) (R95). -/
theorem bounds_malformed (hm : c.malformed = true) : c.bounds.base = 0 ∧ c.bounds.top = 0 := by
  simp [Cap.bounds, hm]

/-- Another address of the same capability leaves E, B, T, the length and malformedness as they are. -/
theorem withAddress_fields (a : XWord f) :
    Cap.malformed { c with address := a } = c.malformed ∧ Cap.exponent { c with address := a } = c.exponent ∧
    Cap.decB { c with address := a } = c.decB ∧ Cap.decT { c with address := a } = c.decT ∧
    Cap.length { c with address := a } = c.length := ⟨rfl, rfl, rfl, rfl, rfl⟩

end

end Sys2Proof
end

