-- ==== Sys2Proof/Laws/Encoding.lean ====
section
/-! SUPPORT. The fields of an assembled word are the fields it was assembled from (30_encoding.md R55, R56). -/

namespace Sys2Proof

/-- The fields of a concatenation, low part and high part. -/
theorem extract_append_low {m n k i : Nat} (a : BitVec m) (b : BitVec n) (h : i + k ≤ n) :
    (a ++ b).extractLsb' i k = b.extractLsb' i k := by
  apply BitVec.eq_of_getLsbD_eq
  intro j hj
  simp only [BitVec.getLsbD_extractLsb', BitVec.getLsbD_append, hj, decide_true, Bool.true_and]
  rw [if_pos (by omega)]

theorem extract_append_high {m n k i : Nat} (a : BitVec m) (b : BitVec n) (h : n ≤ i) :
    (a ++ b).extractLsb' i k = a.extractLsb' (i - n) k := by
  apply BitVec.eq_of_getLsbD_eq
  intro j hj
  simp only [BitVec.getLsbD_extractLsb', BitVec.getLsbD_append, hj, decide_true, Bool.true_and]
  rw [if_neg (by omega)]
  congr 1
  omega

theorem extract_all {n : Nat} (a : BitVec n) : a.extractLsb' 0 n = a := by
  apply BitVec.eq_of_getLsbD_eq
  intro j hj
  simp [hj]

@[simp] theorem regBits_toFin (r : Reg) : (regBits r).toFin = r := rfl

section
variable (f7 : BitVec 7) (rs2 rs1 rd : BitVec 5) (f3 : BitVec 3) (op : BitVec 7) (imm : Imm12)

@[simp] theorem rWord_opcode : opcodeOf (rWord f7 rs2 rs1 f3 rd op) = op := by
  unfold opcodeOf rWord
  rw [extract_append_low _ _ (by decide), extract_all]

@[simp] theorem rWord_rd : rdOf (rWord f7 rs2 rs1 f3 rd op) = rd.toFin := by
  unfold rdOf rWord
  rw [extract_append_high _ _ (by decide), extract_append_low _ _ (by decide), extract_all]

@[simp] theorem rWord_funct3 : funct3Of (rWord f7 rs2 rs1 f3 rd op) = f3 := by
  unfold funct3Of rWord
  rw [extract_append_high _ _ (by decide), extract_append_high _ _ (by decide), extract_append_low _ _ (by decide), extract_all]

@[simp] theorem rWord_rs1 : rs1Of (rWord f7 rs2 rs1 f3 rd op) = rs1.toFin := by
  unfold rs1Of rWord
  rw [extract_append_high _ _ (by decide), extract_append_high _ _ (by decide), extract_append_high _ _ (by decide),
    extract_append_low _ _ (by decide), extract_all]

@[simp] theorem rWord_rs2 : rs2Of (rWord f7 rs2 rs1 f3 rd op) = rs2.toFin := by
  unfold rs2Of rWord
  rw [extract_append_high _ _ (by decide), extract_append_high _ _ (by decide), extract_append_high _ _ (by decide),
    extract_append_high _ _ (by decide), extract_append_low _ _ (by decide), extract_all]

@[simp] theorem rWord_funct7 : funct7Of (rWord f7 rs2 rs1 f3 rd op) = f7 := by
  unfold funct7Of rWord
  rw [extract_append_high _ _ (by decide), extract_append_high _ _ (by decide), extract_append_high _ _ (by decide),
    extract_append_high _ _ (by decide), extract_append_high _ _ (by decide), extract_all]

@[simp] theorem iWord_opcode : opcodeOf (iWord imm rs1 f3 rd op) = op := by
  unfold opcodeOf iWord
  rw [extract_append_low _ _ (by decide), extract_all]

@[simp] theorem iWord_rd : rdOf (iWord imm rs1 f3 rd op) = rd.toFin := by
  unfold rdOf iWord
  rw [extract_append_high _ _ (by decide), extract_append_low _ _ (by decide), extract_all]

@[simp] theorem iWord_funct3 : funct3Of (iWord imm rs1 f3 rd op) = f3 := by
  unfold funct3Of iWord
  rw [extract_append_high _ _ (by decide), extract_append_high _ _ (by decide), extract_append_low _ _ (by decide), extract_all]

@[simp] theorem iWord_rs1 : rs1Of (iWord imm rs1 f3 rd op) = rs1.toFin := by
  unfold rs1Of iWord
  rw [extract_append_high _ _ (by decide), extract_append_high _ _ (by decide), extract_append_high _ _ (by decide),
    extract_append_low _ _ (by decide), extract_all]

@[simp] theorem iWord_imm : immIOf (iWord imm rs1 f3 rd op) = imm := by
  unfold immIOf iWord
  rw [extract_append_high _ _ (by decide), extract_append_high _ _ (by decide), extract_append_high _ _ (by decide),
    extract_append_high _ _ (by decide), extract_all]

@[simp] theorem sWord_opcode : opcodeOf (sWord imm rs2 rs1 f3 op) = op := by
  unfold opcodeOf sWord
  rw [extract_append_low _ _ (by decide), extract_all]

@[simp] theorem sWord_funct3 : funct3Of (sWord imm rs2 rs1 f3 op) = f3 := by
  unfold funct3Of sWord
  rw [extract_append_high _ _ (by decide), extract_append_high _ _ (by decide), extract_append_low _ _ (by decide), extract_all]

@[simp] theorem sWord_rs1 : rs1Of (sWord imm rs2 rs1 f3 op) = rs1.toFin := by
  unfold rs1Of sWord
  rw [extract_append_high _ _ (by decide), extract_append_high _ _ (by decide), extract_append_high _ _ (by decide),
    extract_append_low _ _ (by decide), extract_all]

@[simp] theorem sWord_rs2 : rs2Of (sWord imm rs2 rs1 f3 op) = rs2.toFin := by
  unfold rs2Of sWord
  rw [extract_append_high _ _ (by decide), extract_append_high _ _ (by decide), extract_append_high _ _ (by decide),
    extract_append_high _ _ (by decide), extract_append_low _ _ (by decide), extract_all]

@[simp] theorem sWord_imm : immSOf (sWord imm rs2 rs1 f3 op) = imm := by
  have h1 : (sWord imm rs2 rs1 f3 op).extractLsb' 25 7 = imm.extractLsb' 5 7 := by
    unfold sWord
    rw [extract_append_high _ _ (by decide), extract_append_high _ _ (by decide), extract_append_high _ _ (by decide),
      extract_append_high _ _ (by decide), extract_append_high _ _ (by decide), extract_all]
  have h2 : (sWord imm rs2 rs1 f3 op).extractLsb' 7 5 = imm.extractLsb' 0 5 := by
    unfold sWord
    rw [extract_append_high _ _ (by decide), extract_append_low _ _ (by decide), extract_all]
  unfold immSOf
  rw [h1, h2]
  apply BitVec.eq_of_getLsbD_eq
  intro j hj
  simp only [BitVec.getLsbD_append, BitVec.getLsbD_extractLsb']
  by_cases h : j < 5
  · simp [h]
  · simp only [h, if_false]
    rw [show 5 + (j - 5) = j by omega]
    simp [show j - 5 < 7 by omega]

end

/-- The bytes of a word, least significant first, are put together to the word again (R41). -/
theorem wordBytes_join (w : BitVec 32) :
    w.extractLsb' 24 8 ++ w.extractLsb' 16 8 ++ w.extractLsb' 8 8 ++ w.extractLsb' 0 8 = w := by
  apply BitVec.eq_of_getLsbD_eq
  intro j hj
  simp only [BitVec.getLsbD_append, BitVec.getLsbD_extractLsb']
  by_cases h1 : j < 8
  · simp [h1]
  · by_cases h2 : j - 8 < 8
    · simp only [h1, h2, if_true, if_false]
      rw [show 8 + (j - 8) = j by omega]; simp
    · by_cases h3 : j - 8 - 8 < 8
      · simp only [h1, h2, h3, if_true, if_false]
        rw [show 16 + (j - 8 - 8) = j by omega]; simp
      · simp only [h1, h2, h3, if_false]
        rw [show 24 + (j - 8 - 8 - 8) = j by omega]
        simp [show j - 8 - 8 - 8 < 8 by omega]

/-! ## The decoder of a machine (R54) -/

@[simp] theorem ofTable_decode (x : Mxlen) (w : BitVec 32) : Decoder.ofTable.decode x w = decode x w := rfl

@[simp] theorem unconfirmed_decode (x : Mxlen) (w : BitVec 32) : Decoder.unconfirmed.decode x w = .error .notAdmitted := rfl

/-- A word listed with what a function says of it is looked up as that. -/
theorem lookupWord_map (l : List (BitVec 32)) (d : BitVec 32 → Option Instr) (w : BitVec 32) (h : w ∈ l) :
    lookupWord (l.map fun v => (v, d v)) w = some (d w) := by
  induction l with
  | nil => simp at h
  | cons v l ih =>
    by_cases hv : v = w
    · subst hv
      simp [lookupWord]
    · rcases List.mem_cons.1 h with h | h
      · exact absurd h.symm hv
      · simp [lookupWord, hv, ih h]

/-- The four bytes of a fetch are decoded as the word they make, little-endian (R41, R128). -/
theorem decodeBytes_four (d : Decoder) (x : Mxlen) (b0 b1 b2 b3 : Byte) (rest : List Byte) (i : Instr) :
    decodeBytes d x (b0 :: b1 :: b2 :: b3 :: rest) = .ok (i, rest) ↔ d.decode x (b3 ++ b2 ++ b1 ++ b0) = .ok i := by
  simp only [decodeBytes]
  cases d.decode x (b3 ++ b2 ++ b1 ++ b0) <;> simp

end Sys2Proof
end

