-- ==== Sys2Proof/Laws/Exec.lean ====
section
/-! SUPPORT. Everything an instruction that completes can do, said once: later proofs about all instructions split on these eight
shapes and unfold no meaning. -/

namespace Sys2Proof.Machine

variable {p : Params}

/-- The eight shapes of a completed instruction: an integer result; ACPERM; an address update; CBLD; JALR; a capability load; an
integer store; a capability store. A shape that touches memory comes with the check it passed. -/
inductive Completes (h : Hart p) : Hart p → Prop where
  | integer (rd : Reg) (v : XWord p.format) : Completes h (h.writeX rd v).advance
  | reduce (cd cs1 : Reg) (mask : XWord p.format) : Completes h (h.writeC cd ((h.readC cs1).andPerms mask)).advance
  | move (cd cs1 : Reg) (a : XWord p.format) : Completes h (h.writeC cd ((h.readC cs1).setAddr a)).advance
  | build (cd cs1 cs2 : Reg) : Completes h (h.writeC cd (Cap.build p.hybrid (h.readC cs1) (h.readC cs2))).advance
  | jump (cd cs1 : Reg) (imm : Imm12) (new : Cap p.format) (target : jumpTarget (h.readC cs1) imm = some new) :
      Completes h { h.writeC cd (h.pcc.sealLink h.nextPc) with pcc := new }
  | loadCap (cd cs1 : Reg) (addr : Nat)
      (pass : h.check .capLoad (h.readC cs1) addr p.format.mxlen.capBytes = .pass) :
      Completes h (h.writeC cd (h.loadedCap (h.readC cs1) addr)).advance
  | storeInt (cs1 : Reg) (addr n v : Nat) (size : 0 < n ∧ n ∣ p.format.mxlen.capBytes)
      (pass : h.check .intStore (h.readC cs1) addr n = .pass) :
      Completes h (Hart.advance { h with mem := h.mem.write p.format.mxlen addr n v })
  | storeCap (cs2 cs1 : Reg) (addr : Nat)
      (pass : h.check .capStore (h.readC cs1) addr p.format.mxlen.capBytes = .pass) :
      Completes h (Hart.advance { h with
        mem := h.mem.writeCap p.layout addr (tagWithC (h.readC cs1) (h.readC cs2)) })

/-- LoadInt that completes wrote an integer. -/
theorem Hart.loadInt_completes {h h' : Hart p} {rd cs1 : Reg} {imm : Imm12} {n : Nat} {signed : Bool}
    (hx : h.loadInt rd cs1 imm n signed = .next h') : Completes h h' := by
  obtain ⟨-, rfl⟩ := Check.andNext_next_iff.1 hx
  exact .integer rd _

/-- StoreInt that completes passed its check and wrote memory. -/
theorem Hart.storeInt_completes {h h' : Hart p} {rs2 cs1 : Reg} {imm : Imm12} {n : Nat}
    (size : 0 < n ∧ n ∣ p.format.mxlen.capBytes) (hx : h.storeInt rs2 cs1 imm n = .next h') : Completes h h' := by
  obtain ⟨hk, rfl⟩ := Check.andNext_next_iff.1 hx
  exact .storeInt cs1 _ n _ size hk

/-- The sizes of the integer accesses divide the size of a capability. -/
theorem size_dvd (x : Mxlen) : 1 ∣ x.capBytes ∧ 2 ∣ x.capBytes ∧ 4 ∣ x.capBytes ∧ 8 ∣ x.capBytes := by cases x <;> decide

/-- What runs only for MXLEN=64 and completes, ran. -/
theorem onlyRv64_next {s t : State} {o : Host.Outcome State Fault Refusal} (hx : onlyRv64 s o = .next t) : o = .next t := by
  unfold onlyRv64 at hx
  split at hx
  · simp at hx
  · exact hx

/-- An instruction that completes has one of the eight shapes, and keeps the parameters. -/
theorem exec_next {i : Instr} {h : Hart p} {t : State} (hx : exec i { params := p, hart := h } = .next t) :
    ∃ h' : Hart p, t = { params := p, hart := h' } ∧ Completes h h' := by
  obtain ⟨d1, d2, d4, d8⟩ := size_dvd p.format.mxlen
  cases i with
  | gcperm rd cs1 => exact ⟨_, (Host.Outcome.next.inj hx).symm, .integer ..⟩
  | gcbase rd cs1 => exact ⟨_, (Host.Outcome.next.inj hx).symm, .integer ..⟩
  | acperm cd cs1 rs2 => exact ⟨_, (Host.Outcome.next.inj hx).symm, .reduce ..⟩
  | cadd cd cs1 rs2 => exact ⟨_, (Host.Outcome.next.inj hx).symm, .move ..⟩
  | caddi cd cs1 imm => exact ⟨_, (Host.Outcome.next.inj hx).symm, .move ..⟩
  | scaddr cd cs1 rs2 => exact ⟨_, (Host.Outcome.next.inj hx).symm, .move ..⟩
  | cbld cd cs1 cs2 => exact ⟨_, (Host.Outcome.next.inj hx).symm, .build ..⟩
  | jalr cd cs1 imm =>
    simp only [exec, execJalr] at hx
    split at hx
    · simp at hx
    · rename_i new hnew
      injection hx with hx
      exact ⟨_, hx.symm, .jump cd cs1 imm new hnew⟩
  | lb rd cs1 imm => obtain ⟨h', hn, rfl⟩ := liftHart_next_iff.1 hx; exact ⟨_, rfl, Hart.loadInt_completes hn⟩
  | lh rd cs1 imm => obtain ⟨h', hn, rfl⟩ := liftHart_next_iff.1 hx; exact ⟨_, rfl, Hart.loadInt_completes hn⟩
  | lw rd cs1 imm => obtain ⟨h', hn, rfl⟩ := liftHart_next_iff.1 hx; exact ⟨_, rfl, Hart.loadInt_completes hn⟩
  | lbu rd cs1 imm => obtain ⟨h', hn, rfl⟩ := liftHart_next_iff.1 hx; exact ⟨_, rfl, Hart.loadInt_completes hn⟩
  | lhu rd cs1 imm => obtain ⟨h', hn, rfl⟩ := liftHart_next_iff.1 hx; exact ⟨_, rfl, Hart.loadInt_completes hn⟩
  | lwu rd cs1 imm =>
    obtain ⟨h', hn, rfl⟩ := liftHart_next_iff.1 (onlyRv64_next hx); exact ⟨_, rfl, Hart.loadInt_completes hn⟩
  | ld rd cs1 imm =>
    obtain ⟨h', hn, rfl⟩ := liftHart_next_iff.1 (onlyRv64_next hx); exact ⟨_, rfl, Hart.loadInt_completes hn⟩
  | sb rs2 cs1 imm => obtain ⟨h', hn, rfl⟩ := liftHart_next_iff.1 hx; exact ⟨_, rfl, Hart.storeInt_completes ⟨by decide, d1⟩ hn⟩
  | sh rs2 cs1 imm => obtain ⟨h', hn, rfl⟩ := liftHart_next_iff.1 hx; exact ⟨_, rfl, Hart.storeInt_completes ⟨by decide, d2⟩ hn⟩
  | sw rs2 cs1 imm => obtain ⟨h', hn, rfl⟩ := liftHart_next_iff.1 hx; exact ⟨_, rfl, Hart.storeInt_completes ⟨by decide, d4⟩ hn⟩
  | sd rs2 cs1 imm =>
    obtain ⟨h', hn, rfl⟩ := liftHart_next_iff.1 (onlyRv64_next hx)
    exact ⟨_, rfl, Hart.storeInt_completes ⟨by decide, d8⟩ hn⟩
  | lc cd cs1 imm =>
    obtain ⟨h', hn, rfl⟩ := liftHart_next_iff.1 hx
    obtain ⟨hk, rfl⟩ := Check.andNext_next_iff.1 hn
    exact ⟨_, rfl, .loadCap cd cs1 _ hk⟩
  | sc cs2 cs1 imm =>
    obtain ⟨h', hn, rfl⟩ := liftHart_next_iff.1 hx
    obtain ⟨hk, rfl⟩ := Check.andNext_next_iff.1 hn
    exact ⟨_, rfl, .storeCap cs2 cs1 _ hk⟩

end Sys2Proof.Machine
end

