-- ==== Sys2Proof/Laws/Layout.lean ====
section
/-! SUPPORT. The parts of the record's image in CLEN bits (30_encoding.md R48, R52): reserved bits spread over their positions, and
fields side by side. -/

namespace Sys2Proof

/-- A bit of the spread number: bit j of v at the j-th position, 0 at positions not in the list. -/
theorem spread_testBit (ps : List Nat) (hn : ps.Nodup) (v pos : Nat) :
    (spread ps v).testBit pos = (decide (pos ∈ ps) && v.testBit (ps.idxOf pos)) := by
  induction ps generalizing v with
  | nil => simp [spread]
  | cons q ps ih =>
    rw [List.nodup_cons] at hn
    rw [spread, Nat.testBit_or, ih hn.2, Nat.testBit_shiftLeft]
    by_cases hq : pos = q
    · subst hq
      simp [hn.1]
    · have hne : q ≠ pos := Ne.symm hq
      have hlow : (decide (pos ≥ q) && (v % 2).testBit (pos - q)) = false := by
        by_cases hge : q ≤ pos
        · have : pos - q ≠ 0 := by omega
          obtain ⟨k, hk⟩ := Nat.exists_eq_succ_of_ne_zero this
          rw [hk, Nat.succ_eq_add_one, Nat.testBit_add_one]
          simp [show v % 2 / 2 = 0 by omega]
        · simp [hge]
      rw [hlow]
      simp [hq, List.idxOf_cons_ne _ hne, Nat.testBit_add_one]

/-- A bit of the gathered number: the bit of w at the j-th position. -/
theorem gather_testBit (ps : List Nat) (w j : Nat) :
    (gather ps w).testBit j = (if h : j < ps.length then w.testBit ps[j] else false) := by
  induction ps generalizing j with
  | nil => simp [gather]
  | cons q ps ih =>
    rw [gather]
    cases j with
    | zero =>
      simp only [List.length_cons, Nat.zero_lt_succ, dite_true, List.getElem_cons_zero,
        Nat.testBit_eq_decide_div_mod_eq, Nat.shiftRight_eq_div_pow]
      congr 1
      simp only [eq_iff_iff]
      omega
    | succ j =>
      rw [Nat.testBit_add_one, show ((w >>> q) % 2 + 2 * gather ps w) / 2 = gather ps w by omega, ih]
      simp

theorem gather_lt (ps : List Nat) (w : Nat) : gather ps w < 2 ^ ps.length := by
  induction ps with
  | nil => simp [gather]
  | cons q ps ih => rw [gather, List.length_cons, pow_succ]; omega

/-- T[MW-3:EW/2] and TE side by side are the stored T; B[MW-1:EW/2] and BE the stored B (R48). -/
theorem joinFields_stored {f : Format} (c : Cap f) :
    joinFields (f.mxlen.mw - 2) c.tHigh c.te = c.tstored ∧ joinFields f.mxlen.mw c.bHigh c.be = c.bstored := by
  rcases f with ⟨x, n⟩
  constructor
  · apply BitVec.eq_of_getLsbD_eq
    intro i hi
    cases x <;>
    · simp only [joinFields, Cap.tHigh, Cap.te, BitVec.getLsbD_or, BitVec.getLsbD_shiftLeft, BitVec.getLsbD_setWidth,
        BitVec.getLsbD_extractLsb', Mxlen.mw, Mxlen.half, Nat.reduceSub] at hi ⊢
      interval_cases i <;> simp
  · apply BitVec.eq_of_getLsbD_eq
    intro i hi
    cases x <;>
    · simp only [joinFields, Cap.bHigh, Cap.be, BitVec.getLsbD_or, BitVec.getLsbD_shiftLeft, BitVec.getLsbD_setWidth,
        BitVec.getLsbD_extractLsb', Mxlen.mw, Mxlen.half, Nat.reduceSub] at hi ⊢
      interval_cases i <;> simp

end Sys2Proof
end

