-- ==== Sys2Proof/Laws/Memory.lean ====
section
/-! SUPPORT. Memory: read after write, what a write leaves alone, tags, and that every memory operation keeps the canonical
form (20_memory.md R30 to R36). -/

namespace Sys2Proof.Machine

/-! ## Cells -/

/-- The addresses of the cells rise strictly. -/
abbrev Rising (l : List Host.Cell) : Prop := (l.map Prod.fst).Pairwise (· < ·)

theorem cellAt_below {l : List Host.Cell} {a : Nat} (h : ∀ c ∈ l, a < c.1) : cellAt l a = Memory.unlisted := by
  induction l with
  | nil => rfl
  | cons c l ih =>
    obtain ⟨b, v⟩ := c
    have hb : a < b := h (b, v) (by simp)
    simp only [cellAt, if_neg (Nat.ne_of_lt hb)]
    exact ih fun c hc => h c (by simp [hc])

theorem rising_cons {c : Host.Cell} {l : List Host.Cell} : Rising (c :: l) ↔ (∀ d ∈ l, c.1 < d.1) ∧ Rising l := by
  simp [Rising, List.pairwise_cons]

/-- Reading a cell after setting one. -/
theorem cellAt_setCell {l : List Host.Cell} (hl : Rising l) (a x : Nat) (v : Byte) :
    cellAt (setCell l a v) x = if x = a then v else cellAt l x := by
  induction l with
  | nil =>
    by_cases hv : v = Memory.unlisted
    · by_cases hx : x = a <;> simp [setCell, cellAt, hv]
    · by_cases hx : x = a <;> simp [setCell, cellAt, hv, hx]
  | cons c l ih =>
    obtain ⟨b, w⟩ := c
    obtain ⟨hb, hr⟩ := rising_cons.1 hl
    have ih := ih hr
    unfold setCell
    by_cases h1 : a < b
    · simp only [h1, if_true]
      by_cases hv : v = Memory.unlisted
      · simp only [hv, if_true]
        by_cases hx : x = a
        · subst hx
          rw [if_pos rfl]
          exact cellAt_below (by
            intro c hc
            rcases List.mem_cons.1 hc with rfl | hc
            · exact h1
            · exact Nat.lt_trans h1 (hb c hc))
        · simp [hx]
      · simp only [hv, if_false, cellAt]
    · by_cases h2 : a = b
      · subst h2
        simp only [Nat.lt_irrefl, if_false, if_true]
        by_cases hv : v = Memory.unlisted
        · simp only [hv, if_true, cellAt]
          by_cases hx : x = a
          · subst hx; rw [if_pos rfl]; exact cellAt_below hb
          · simp [hx]
        · simp only [hv, if_false, cellAt]
          by_cases hx : x = a <;> simp [hx]
      · simp only [h1, h2, if_false, cellAt, ih]
        by_cases hx : x = b
        · subst hx; simp [Ne.symm h2]
        · simp [hx]

theorem mem_setCell {l : List Host.Cell} {a : Nat} {v : Byte} {c : Host.Cell} (h : c ∈ setCell l a v) :
    c ∈ l ∨ (c = (a, v) ∧ v ≠ Memory.unlisted) := by
  induction l with
  | nil =>
    unfold setCell at h
    split at h
    · simp at h
    · exact .inr ⟨by simpa using h, ‹_›⟩
  | cons d l ih =>
    obtain ⟨b, w⟩ := d
    unfold setCell at h
    split at h
    · split at h
      · exact .inl h
      · rcases List.mem_cons.1 h with h | h
        · exact .inr ⟨h, ‹_›⟩
        · exact .inl h
    · split at h
      · split at h
        · exact .inl (List.mem_cons_of_mem _ h)
        · rcases List.mem_cons.1 h with h | h
          · exact .inr ⟨h, ‹_›⟩
          · exact .inl (List.mem_cons_of_mem _ h)
      · rcases List.mem_cons.1 h with h | h
        · exact .inl (by simp [h])
        · exact (ih h).imp_left (List.mem_cons_of_mem _)

theorem setCell_rising {l : List Host.Cell} (hl : Rising l) (a : Nat) (v : Byte) : Rising (setCell l a v) := by
  induction l with
  | nil => unfold setCell; split <;> simp [Rising]
  | cons d l ih =>
    obtain ⟨b, w⟩ := d
    obtain ⟨hb, hr⟩ := rising_cons.1 hl
    unfold setCell
    split
    · split
      · exact hl
      · rw [rising_cons]
        refine ⟨?_, hl⟩
        intro c hc
        rcases List.mem_cons.1 hc with rfl | hc
        · assumption
        · exact Nat.lt_trans ‹_› (hb c hc)
    · split
      · rename_i h; subst h
        split
        · exact hr
        · exact rising_cons.2 ⟨hb, hr⟩
      · refine rising_cons.2 ⟨?_, ih hr⟩
        intro c hc
        rcases mem_setCell hc with hc | ⟨rfl, _⟩
        · exact hb c hc
        · have : ¬ a < b := ‹_›
          have : a ≠ b := ‹_›
          show b < a
          omega

/-! ## Bytes -/

@[simp] theorem writeByte_map (m : Memory) (a : Nat) (v : Byte) : (m.writeByte a v).map = m.map := rfl
@[simp] theorem writeByte_tags (m : Memory) (a : Nat) (v : Byte) : (m.writeByte a v).tags = m.tags := rfl

@[simp] theorem storeBytes_map (m : Memory) (a n v : Nat) : (m.storeBytes a n v).map = m.map := by
  induction n generalizing m a v with
  | zero => rfl
  | succ n ih => simp [Memory.storeBytes, ih]

@[simp] theorem storeBytes_tags (m : Memory) (a n v : Nat) : (m.storeBytes a n v).tags = m.tags := by
  induction n generalizing m a v with
  | zero => rfl
  | succ n ih => simp [Memory.storeBytes, ih]

theorem storeBytes_rising (m : Memory) (hm : Rising m.bytes) (a n v : Nat) : Rising (m.storeBytes a n v).bytes := by
  induction n generalizing m a v with
  | zero => exact hm
  | succ n ih => exact ih _ (setCell_rising hm a _) _ _

theorem readByte_writeByte (m : Memory) (hm : Rising m.bytes) (a x : Nat) (v : Byte) :
    (m.writeByte a v).readByte x = if x = a then v else m.readByte x :=
  cellAt_setCell hm a x v

/-- The byte at x after n bytes of v are stored from a up: byte x - a of v inside, unchanged outside. -/
theorem readByte_storeBytes (m : Memory) (hm : Rising m.bytes) (a n v x : Nat) :
    (m.storeBytes a n v).readByte x =
      if a ≤ x ∧ x < a + n then BitVec.ofNat 8 (v / 256 ^ (x - a)) else m.readByte x := by
  induction n generalizing m a v with
  | zero => rw [if_neg (by omega)]; rfl
  | succ n ih =>
    rw [Memory.storeBytes, ih _ (setCell_rising hm a _), readByte_writeByte m hm]
    by_cases h1 : a + 1 ≤ x ∧ x < a + 1 + n
    · rw [if_pos h1, if_pos (by omega), Nat.div_div_eq_div_mul, ← Nat.pow_succ']
      congr 3
      omega
    · rw [if_neg h1]
      by_cases hx : x = a
      · subst hx
        rw [if_pos rfl, if_pos (by omega), Nat.sub_self, Nat.pow_zero, Nat.div_one]
      · rw [if_neg hx, if_neg (by omega)]

/-- A load depends on the bytes it covers only. -/
theorem load_congr (m m' : Memory) (a n : Nat) (h : ∀ x, a ≤ x → x < a + n → m.readByte x = m'.readByte x) :
    m.load a n = m'.load a n := by
  induction n generalizing a with
  | zero => rfl
  | succ n ih =>
    rw [Memory.load, Memory.load, h a (by omega) (by omega), ih (a + 1) (fun x h1 h2 => h x (by omega) (by omega))]

theorem load_lt (m : Memory) (a n : Nat) : m.load a n < 256 ^ n := by
  induction n generalizing a with
  | zero => simp [Memory.load]
  | succ n ih =>
    have h1 := ih (a + 1)
    have h2 := (m.readByte a).isLt
    simp only [Memory.load, Nat.pow_succ']
    omega

/-- What is loaded from where n bytes of v were stored is v modulo 256^n. -/
theorem load_storeBytes_same (m : Memory) (hm : Rising m.bytes) (a n v : Nat) :
    (m.storeBytes a n v).load a n = v % 256 ^ n := by
  induction n generalizing m a v with
  | zero => simp [Memory.load, Nat.mod_one]
  | succ n ih =>
    have hb : (m.storeBytes a (n + 1) v).readByte a = BitVec.ofNat 8 v := by
      rw [readByte_storeBytes m hm, if_pos (by omega), Nat.sub_self, Nat.pow_zero, Nat.div_one]
    rw [Memory.load, hb]
    have h2 := ih (m.writeByte a (BitVec.ofNat 8 v)) (setCell_rising hm a _) (a + 1) (v / 256)
    rw [show (m.storeBytes a (n + 1) v) = ((m.writeByte a (BitVec.ofNat 8 v)).storeBytes (a + 1) n (v / 256)) from rfl, h2]
    rw [Nat.pow_succ', Nat.mod_mul]
    simp

theorem load_storeBytes_disjoint (m : Memory) (hm : Rising m.bytes) (a n v b k : Nat) (h : b + k ≤ a ∨ a + n ≤ b) :
    (m.storeBytes a n v).load b k = m.load b k := by
  apply load_congr
  intro x h1 h2
  rw [readByte_storeBytes m hm, if_neg (by omega)]

/-! ## Tags -/

@[simp] theorem clearTags_bytes (m : Memory) (x : Mxlen) (a n : Nat) : (m.clearTags x a n).bytes = m.bytes := rfl
@[simp] theorem clearTags_map (m : Memory) (x : Mxlen) (a n : Nat) : (m.clearTags x a n).map = m.map := rfl
@[simp] theorem setTag_bytes (m : Memory) (a : Nat) (t : Bool) : (m.setTag a t).bytes = m.bytes := rfl
@[simp] theorem setTag_map (m : Memory) (a : Nat) (t : Bool) : (m.setTag a t).map = m.map := rfl

theorem mem_insertRising {l : List Nat} {a x : Nat} : x ∈ insertRising l a ↔ x = a ∨ x ∈ l := by
  induction l with
  | nil => simp [insertRising]
  | cons b l ih =>
    unfold insertRising
    split
    · simp
    · split
      · rename_i h; subst h; simp
      · simp only [List.mem_cons, ih]
        constructor
        · rintro (h | h | h) <;> simp [h]
        · rintro (h | h | h) <;> simp [h]

theorem insertRising_rising {l : List Nat} (hl : l.Pairwise (· < ·)) (a : Nat) : (insertRising l a).Pairwise (· < ·) := by
  induction l with
  | nil => simp [insertRising]
  | cons b l ih =>
    rw [List.pairwise_cons] at hl
    unfold insertRising
    split
    · rw [List.pairwise_cons, List.pairwise_cons]
      refine ⟨?_, hl⟩
      intro x hx
      rcases List.mem_cons.1 hx with rfl | hx
      · assumption
      · exact Nat.lt_trans ‹_› (hl.1 x hx)
    · split
      · exact List.pairwise_cons.2 hl
      · rw [List.pairwise_cons]
        refine ⟨?_, ih hl.2⟩
        intro x hx
        rcases mem_insertRising.1 hx with rfl | hx
        · omega
        · exact hl.1 x hx

theorem mem_setTag {m : Memory} {a x : Nat} {t : Bool} :
    x ∈ (m.setTag a t).tags ↔ if x = a then t = true else x ∈ m.tags := by
  cases t
  · by_cases h : x = a <;> simp [Memory.setTag, h]
  · by_cases h : x = a <;> simp [Memory.setTag, mem_insertRising, h]

theorem mem_clearTags {m : Memory} {x : Mxlen} {a n w : Nat} :
    w ∈ (m.clearTags x a n).tags ↔ w ∈ m.tags ∧ wordTouched x.capBytes w a n = false := by
  simp [Memory.clearTags]

theorem tagAt_iff {m : Memory} {w : Nat} : m.tagAt w = true ↔ w ∈ m.tags := by simp [Memory.tagAt]

/-! ## Writes -/

@[simp] theorem write_map (m : Memory) (x : Mxlen) (a n v : Nat) : (m.write x a n v).map = m.map := by simp [Memory.write]

@[simp] theorem writeCap_map {f : Format} (l : Layout) (m : Memory) (a : Nat) (c : Cap f) :
    (m.writeCap l a c).map = m.map := by simp [Memory.writeCap]

theorem readByte_write (m : Memory) (hm : Rising m.bytes) (x : Mxlen) (a n v y : Nat) :
    (m.write x a n v).readByte y =
      if a ≤ y ∧ y < a + n then BitVec.ofNat 8 (v / 256 ^ (y - a)) else m.readByte y :=
  readByte_storeBytes m hm a n v y

theorem readByte_writeCap {f : Format} (l : Layout) (m : Memory) (hm : Rising m.bytes) (a : Nat) (c : Cap f) (y : Nat) :
    (m.writeCap l a c).readByte y =
      if a ≤ y ∧ y < a + f.mxlen.capBytes then BitVec.ofNat 8 (capToBits l c / 256 ^ (y - a)) else m.readByte y :=
  readByte_storeBytes m hm a f.mxlen.capBytes _ y

/-! ## The canonical form -/

theorem present_map {m m' : Memory} (h : m'.map = m.map) (a : Nat) : m'.present a = m.present a := by
  simp [Memory.present, h]

theorem presentRange_map {m m' : Memory} (h : m'.map = m.map) (a n : Nat) : m'.presentRange a n = m.presentRange a n := by
  induction n generalizing a with
  | zero => rfl
  | succ n ih => simp [Memory.presentRange, ih, present_map h]

theorem presentRange_iff (m : Memory) (a n : Nat) :
    m.presentRange a n = true ↔ ∀ x, a ≤ x → x < a + n → m.present x = true := by
  induction n generalizing a with
  | zero => exact ⟨fun _ x h1 h2 => absurd h2 (by omega), fun _ => rfl⟩
  | succ n ih =>
    simp only [Memory.presentRange, Bool.and_eq_true, ih]
    constructor
    · rintro ⟨h1, h2⟩ x h3 h4
      by_cases hx : x = a
      · exact hx ▸ h1
      · exact h2 x (by omega) (by omega)
    · intro h
      exact ⟨h a (by omega) (by omega), fun x h1 h2 => h x (by omega) (by omega)⟩

/-- The canonical form in its parts. -/
theorem wf_iff (x : Mxlen) (m : Memory) :
    m.wf x = true ↔
      Rising m.bytes ∧ (∀ c ∈ m.bytes, c.2 ≠ Memory.unlisted ∧ m.present c.1 = true) ∧
      m.tags.Pairwise (· < ·) ∧ (∀ a ∈ m.tags, a % x.capBytes = 0 ∧ m.presentRange a x.capBytes = true) ∧
      (∀ r ∈ m.map, r.base + r.size ≤ 2 ^ x.bits) := by
  simp [Memory.wf, Rising, and_assoc]

/-- Storing bytes that exist keeps the parts of the canonical form about bytes. -/
theorem storeBytes_cells (m : Memory) (h : ∀ c ∈ m.bytes, c.2 ≠ Memory.unlisted ∧ m.present c.1 = true)
    (a n v : Nat) (hp : m.presentRange a n = true) :
    ∀ c ∈ (m.storeBytes a n v).bytes, c.2 ≠ Memory.unlisted ∧ m.present c.1 = true := by
  induction n generalizing m a v with
  | zero => exact h
  | succ n ih =>
    have hp' := (presentRange_iff m a (n + 1)).1 hp
    have := ih (m.writeByte a (BitVec.ofNat 8 v)) (by
      intro c hc
      rcases mem_setCell hc with hc | ⟨rfl, hv⟩
      · exact h c hc
      · exact ⟨hv, hp' a (by omega) (by omega)⟩) (a + 1) (v / 256) (by
        rw [presentRange_map (m := m) (by simp), presentRange_iff]
        exact fun x h1 h2 => hp' x (by omega) (by omega))
    exact this

/-- An integer write to bytes that exist keeps the canonical form. -/
theorem write_wf (m : Memory) (x : Mxlen) (a n v : Nat) (hm : m.wf x = true) (hp : m.presentRange a n = true) :
    (m.write x a n v).wf x = true := by
  rw [wf_iff] at hm ⊢
  obtain ⟨h1, h2, h3, h4, h5⟩ := hm
  have hmap : (m.write x a n v).map = m.map := write_map m x a n v
  refine ⟨storeBytes_rising m h1 a n v, ?_, ?_, ?_, ?_⟩
  · intro c hc
    rw [present_map hmap]
    exact storeBytes_cells m h2 a n v hp c hc
  · simp only [Memory.write, Memory.clearTags, storeBytes_tags]
    exact h3.filter _
  · intro w hw
    rw [presentRange_map hmap]
    have := (mem_clearTags.1 hw).1
    rw [storeBytes_tags] at this
    exact h4 w this
  · rw [hmap]; exact h5

/-- A capability write to a CLEN-aligned word that exists keeps the canonical form. -/
theorem writeCap_wf {f : Format} (l : Layout) (m : Memory) (a : Nat) (c : Cap f) (hm : m.wf f.mxlen = true)
    (ha : a % f.mxlen.capBytes = 0) (hp : m.presentRange a f.mxlen.capBytes = true) :
    (m.writeCap l a c).wf f.mxlen = true := by
  rw [wf_iff] at hm ⊢
  obtain ⟨h1, h2, h3, h4, h5⟩ := hm
  have hmap : (m.writeCap l a c).map = m.map := writeCap_map l m a c
  refine ⟨storeBytes_rising m h1 _ _ _, ?_, ?_, ?_, ?_⟩
  · intro d hd
    rw [present_map hmap]
    exact storeBytes_cells m h2 a _ _ hp d hd
  · simp only [Memory.writeCap, Memory.setTag, storeBytes_tags]
    split
    · exact insertRising_rising h3 a
    · exact h3.filter _
  · intro w hw
    rw [presentRange_map hmap]
    rw [Memory.writeCap, mem_setTag, storeBytes_tags] at hw
    by_cases hwa : w = a
    · subst hwa; exact ⟨ha, hp⟩
    · rw [if_neg hwa] at hw; exact h4 w hw
  · rw [hmap]; exact h5

/-- The memory of the reset state has the canonical form. -/
theorem resetMemory_wf (x : Mxlen) : (resetMemory x).wf x = true := by cases x <;> decide

end Sys2Proof.Machine
end

