-- ==== Sys2Proof/Laws/PerInstr.lean ====
section
/-! SUPPORT. One lemma per instruction of what holds of every instruction as syntax (host's case split over constructors). -/

namespace Sys2Proof.Laws.EncodedOpcode

/-- The word of the instruction has one of the six opcodes the table uses (30_encoding.md R54), for both MXLEN. -/
def Statement (i : Instr) : Prop :=
  ∀ x : Mxlen, opcodeOf (encode x i) ∈ [0x33#7, 0x1B#7, 0x67#7, 0x03#7, 0x0F#7, 0x23#7]

theorem gcperm (rd cs1 : Reg) : Statement (.gcperm rd cs1) := by
  intro x
  simp [encode]

theorem acperm (cd cs1 rs2 : Reg) : Statement (.acperm cd cs1 rs2) := by
  intro x
  simp [encode]

theorem gcbase (rd cs1 : Reg) : Statement (.gcbase rd cs1) := by
  intro x
  simp [encode]

theorem cadd (cd cs1 rs2 : Reg) : Statement (.cadd cd cs1 rs2) := by
  intro x
  simp [encode]

theorem caddi (cd cs1 : Reg) (imm : Imm12) : Statement (.caddi cd cs1 imm) := by
  intro x
  simp [encode]

theorem scaddr (cd cs1 rs2 : Reg) : Statement (.scaddr cd cs1 rs2) := by
  intro x
  simp [encode]

theorem cbld (cd cs1 cs2 : Reg) : Statement (.cbld cd cs1 cs2) := by
  intro x
  simp [encode]

theorem jalr (cd cs1 : Reg) (imm : Imm12) : Statement (.jalr cd cs1 imm) := by
  intro x
  simp [encode]

theorem lb (rd cs1 : Reg) (imm : Imm12) : Statement (.lb rd cs1 imm) := by
  intro x
  simp [encode]

theorem lh (rd cs1 : Reg) (imm : Imm12) : Statement (.lh rd cs1 imm) := by
  intro x
  simp [encode]

theorem lw (rd cs1 : Reg) (imm : Imm12) : Statement (.lw rd cs1 imm) := by
  intro x
  simp [encode]

theorem lbu (rd cs1 : Reg) (imm : Imm12) : Statement (.lbu rd cs1 imm) := by
  intro x
  simp [encode]

theorem lhu (rd cs1 : Reg) (imm : Imm12) : Statement (.lhu rd cs1 imm) := by
  intro x
  simp [encode]

theorem lwu (rd cs1 : Reg) (imm : Imm12) : Statement (.lwu rd cs1 imm) := by
  intro x
  simp [encode]

theorem ld (rd cs1 : Reg) (imm : Imm12) : Statement (.ld rd cs1 imm) := by
  intro x
  simp [encode]

theorem sb (rs2 cs1 : Reg) (imm : Imm12) : Statement (.sb rs2 cs1 imm) := by
  intro x
  simp [encode]

theorem sh (rs2 cs1 : Reg) (imm : Imm12) : Statement (.sh rs2 cs1 imm) := by
  intro x
  simp [encode]

theorem sw (rs2 cs1 : Reg) (imm : Imm12) : Statement (.sw rs2 cs1 imm) := by
  intro x
  simp [encode]

theorem sd (rs2 cs1 : Reg) (imm : Imm12) : Statement (.sd rs2 cs1 imm) := by
  intro x
  simp [encode]

theorem lc (cd cs1 : Reg) (imm : Imm12) : Statement (.lc cd cs1 imm) := by
  intro x
  cases x <;> simp [encode]

theorem sc (cs2 cs1 : Reg) (imm : Imm12) : Statement (.sc cs2 cs1 imm) := by
  intro x
  cases x <;> simp [encode]

end Sys2Proof.Laws.EncodedOpcode
end

