-- ==== Sys2Proof/Laws/Permissions.lean ====
section
/-! SUPPORT. Permission sets and their encodings (40_permissions.md R63, R65, R67, R75). -/

namespace Sys2Proof

theorem Perms.subset_iff (s u : Perms) : s.subset u = true ↔ ∀ q, s.has q = true → u.has q = true := by
  constructor
  · intro h q hq
    simp only [Perms.subset, Bool.and_eq_true, Bool.or_eq_true, Bool.not_eq_true'] at h
    cases q <;> simp only [Perms.has] at * <;> simp_all
  · intro h
    have h1 := h .r; have h2 := h .w; have h3 := h .c; have h4 := h .x; have h5 := h .asr; have h6 := h .lm
    simp only [Perms.has] at *
    simp only [Perms.subset, Bool.and_eq_true, Bool.or_eq_true, Bool.not_eq_true']
    refine ⟨⟨⟨⟨⟨?_, ?_⟩, ?_⟩, ?_⟩, ?_⟩, ?_⟩ <;> (apply Classical.byContradiction; intro hc; simp_all)

theorem Perms.subset_refl (s : Perms) : s.subset s = true := (Perms.subset_iff s s).2 fun _ h => h

theorem Perms.subset_trans {s t u : Perms} (h1 : s.subset t = true) (h2 : t.subset u = true) : s.subset u = true :=
  (Perms.subset_iff s u).2 fun q hq => (Perms.subset_iff t u).1 h2 q ((Perms.subset_iff s t).1 h1 q hq)

@[simp] theorem Perms.none_subset (s : Perms) : Perms.none.subset s = true := by simp [Perms.subset, Perms.none]

theorem Perms.inter_subset_left (s u : Perms) : (s.inter u).subset s = true := by
  rw [Perms.subset_iff]; intro q; cases q <;> simp [Perms.has, Perms.inter] <;> intros <;> assumption

theorem Perms.inter_subset_right (s u : Perms) : (s.inter u).subset u = true := by
  rw [Perms.subset_iff]; intro q; cases q <;> simp [Perms.has, Perms.inter]

theorem Perms.without_subset (s u : Perms) : (s.without u).subset s = true := by
  rw [Perms.subset_iff]; intro q; cases q <;> simp [Perms.has, Perms.without] <;> intros <;> assumption

/-- Encoding a set ACPERM may leave and decoding it gives it back, for both values of the M-bit (R63, R65). -/
theorem apPerms_apEncode (x : Mxlen) (s : Perms) (m : Bool) (h : usefulSet x s = true) : apPerms x (apEncode x s m) = s := by
  obtain ⟨r, w, c, xx, asr, lm⟩ := s
  cases x <;> cases r <;> cases w <;> cases c <;> cases xx <;> cases asr <;> cases lm <;> cases m <;>
    first | rfl | exact absurd h (by decide)

/-- The encoding fits the AP field. -/
theorem apEncode_lt (x : Mxlen) (s : Perms) (m : Bool) : apEncode x s m < 2 ^ x.apWidth := by
  obtain ⟨r, w, c, xx, asr, lm⟩ := s
  cases x <;> cases r <;> cases w <;> cases c <;> cases xx <;> cases asr <;> cases lm <;> cases m <;> decide

theorem apEncode64_lt (s : Perms) : apEncode64 s < 64 := by
  obtain ⟨r, w, c, xx, asr, lm⟩ := s
  cases r <;> cases w <;> cases c <;> cases xx <;> cases asr <;> cases lm <;> decide

/-- No MXLEN=32 encoding is a reserved AP value (R69). -/
theorem apTable32_apEncode32 (s : Perms) (m : Bool) : (apTable32 (apEncode32 s m)).isSome = true := by
  obtain ⟨r, w, c, xx, asr, lm⟩ := s
  cases r <;> cases w <;> cases c <;> cases xx <;> cases asr <;> cases lm <;> cases m <;> decide

/-- The set of the encoding: the set itself where it is useful. -/
theorem withPerms_perms {f : Format} (c : Cap f) (s : Perms) (h : usefulSet f.mxlen s = true) : (c.withPerms s).perms = s := by
  simp only [Cap.perms, Cap.withPerms, BitVec.toNat_ofNat]
  rw [Nat.mod_eq_of_lt (apEncode_lt _ _ _)]
  exact apPerms_apEncode _ _ _ h

@[simp] theorem usefulSet_none (x : Mxlen) : usefulSet x Perms.none = true := by cases x <;> decide

section
variable {f : Format} (c : Cap f) (s : Perms)
@[simp] theorem withPerms_tag : (c.withPerms s).tag = c.tag := rfl
@[simp] theorem withPerms_sdp : (c.withPerms s).sdp = c.sdp := rfl
@[simp] theorem withPerms_ct : (c.withPerms s).ct = c.ct := rfl
@[simp] theorem withPerms_address : (c.withPerms s).address = c.address := rfl
@[simp] theorem withPerms_reserved : (c.withPerms s).reserved = c.reserved := rfl
@[simp] theorem withPerms_bounds : (c.withPerms s).bounds = c.bounds := rfl
@[simp] theorem withPerms_malformed : (c.withPerms s).malformed = c.malformed := rfl
@[simp] theorem andPerms_bounds (mask : XWord f) : (c.andPerms mask).bounds = c.bounds := rfl
@[simp] theorem andPerms_malformed (mask : XWord f) : (c.andPerms mask).malformed = c.malformed := rfl
end

end Sys2Proof
end

