-- ==== Sys2Proof/Tests/Slice0.lean ====
section
/-! SUPPORT. Tests whose expected results come from spec/ (95_test_vectors.md vectors V, P, A, J, M, and words written out from
opcode_table.json), and a witness for every statement with hypotheses. -/

namespace Sys2Proof.Tests

open Sys2Proof Sys2Proof.Machine

/-! ## Ill-formed terms are refused -/

theorem test_wf_refuses_lwu_rv32 : Instr.wf .rv32 (.lwu 1 2 0) = false := by decide
theorem test_wf_refuses_ld_rv32 : Instr.wf .rv32 (.ld 1 2 0) = false := by decide
theorem test_wf_refuses_sd_rv32 : Instr.wf .rv32 (.sd 1 2 0) = false := by decide
theorem test_wf_refuses_cadd_without_index : Instr.wf .rv64 (.cadd 3 1 0) = false := by decide
theorem test_wf_accepts : Instr.wf .rv64 (.ld 1 2 0) = true ∧ Instr.wf .rv32 (.cadd 3 1 31) = true := by decide

/-! ## Words written out from the table: funct7 or immediate, rs2, rs1, funct3, rd, opcode -/

theorem test_decode_gcperm : decode .rv32 0b00010000000100011000001010110011#32 = .ok (.gcperm 5 3) := rfl
theorem test_decode_acperm : decode .rv64 0b00001100010000011010001010110011#32 = .ok (.acperm 5 3 4) := rfl
theorem test_decode_gcbase : decode .rv32 0b00010000010100011000001010110011#32 = .ok (.gcbase 5 3) := rfl
theorem test_decode_cadd : decode .rv32 0b00001100001000001000000110110011#32 = .ok (.cadd 3 1 2) := rfl
theorem test_decode_caddi : decode .rv64 0b11111111111101100010011010011011#32 = .ok (.caddi 13 12 0xFFF#12) := rfl
theorem test_decode_scaddr : decode .rv64 0b00001100101101010001011000110011#32 = .ok (.scaddr 12 10 11) := rfl
theorem test_decode_cbld : decode .rv32 0b00001101111100001101000110110011#32 = .ok (.cbld 3 1 31) := rfl
theorem test_decode_jalr : decode .rv32 0b00000000010000001000001011100111#32 = .ok (.jalr 5 1 4) := rfl
theorem test_decode_lb : decode .rv32 0b11111111110000001000001100000011#32 = .ok (.lb 6 1 0xFFC#12) := rfl
theorem test_decode_lh : decode .rv32 0b00000000010000001001001100000011#32 = .ok (.lh 6 1 4) := rfl
theorem test_decode_lw : decode .rv32 0b00000100000000001010001110000011#32 = .ok (.lw 7 1 64) := rfl
theorem test_decode_lbu : decode .rv64 0b00000000010000001100001100000011#32 = .ok (.lbu 6 1 4) := rfl
theorem test_decode_lhu : decode .rv32 0b00000000010000001101001100000011#32 = .ok (.lhu 6 1 4) := rfl
theorem test_decode_lwu : decode .rv64 0b00000000010000001110001100000011#32 = .ok (.lwu 6 1 4) := rfl
theorem test_decode_ld : decode .rv64 0b00000000100000001011001100000011#32 = .ok (.ld 6 1 8) := rfl
theorem test_decode_sb : decode .rv32 0b00000000001100001000011000100011#32 = .ok (.sb 3 1 12) := rfl
theorem test_decode_sh : decode .rv32 0b11111110001100001001111000100011#32 = .ok (.sh 3 1 0xFFC#12) := rfl
theorem test_decode_sw : decode .rv32 0b01000000001100001010011000100011#32 = .ok (.sw 3 1 0x40C#12) := rfl
theorem test_decode_sd : decode .rv64 0b00000000001100001011010000100011#32 = .ok (.sd 3 1 8) := rfl
theorem test_decode_lc_rv32 : decode .rv32 0b00000000100000001011001000000011#32 = .ok (.lc 4 1 8) := rfl
theorem test_decode_lc_rv64 : decode .rv64 0b00000001000000001100001000001111#32 = .ok (.lc 4 1 16) := rfl
theorem test_decode_sc_rv32 : decode .rv32 0b00000000001000001011010000100011#32 = .ok (.sc 2 1 8) := rfl
theorem test_decode_sc_rv64 : decode .rv64 0b00000000001000001100100000100011#32 = .ok (.sc 2 1 16) := rfl

/-- R57, K5: the move pattern, a hole in the R-type space, LWU and the MXLEN=64 LC at MXLEN=32, all zero. -/
theorem test_decode_refuses :
    decode .rv32 0x0C0081B3#32 = .error .caddWithoutIndex ∧ decode .rv32 0x0C20B1B3#32 = .error .noRow ∧
    decode .rv32 0x0040E303#32 = .error .noRow ∧ decode .rv32 0x0100C20F#32 = .error .noRow ∧
    decode .rv64 0#32 = .error .noRow := ⟨rfl, rfl, rfl, rfl, rfl⟩

theorem test_decode_bytes_truncated : decodeBytes Decoder.ofTable .rv32 [0xB3, 0x81, 0x20] = .error .truncated := rfl

/-- R54, D22: a machine's own word before the table, a word it does not admit, and the decoder that admits no row. -/
theorem test_decoder_parameter :
    Decoder.decode { table := true, words := [(0x0C0081B3#32, some (.cadd 3 1 0)), (0#32, none)] } .rv32 0x0C0081B3#32 =
      .ok (.cadd 3 1 0) ∧
    Decoder.decode { table := true, words := [(0x0C2081B3#32, none)] } .rv32 0x0C2081B3#32 = .error .notAdmitted ∧
    Decoder.unconfirmed.decode .rv32 0x0C2081B3#32 = .error .notAdmitted := ⟨rfl, rfl, rfl⟩

theorem test_table_word : decodeTableWord 32 0x0C2081B3 = some (.cadd 3 1 2) ∧ decodeTableWord 32 0x0C000033 = none := by
  decide

/-! ## Small machines -/

abbrev F32 : Format := { mxlen := .rv32, sdplen := 2 }
abbrev F64 : Format := { mxlen := .rv64, sdplen := 4 }

/-- K4's layout for MXLEN=32. -/
def lay32 : Layout :=
  { sdp := 30, ap := 25, m := 0, ct := 20, ef := 19, l8 := 18, tHigh := 12, te := 10, bHigh := 2, be := 0
    reserved := [21, 22, 23, 24] }

def P32 : Params :=
  { format := F32, layout := lay32, decoder := Decoder.ofTable, hybrid := false, levels := false, withoutC := .clearTag, retainInvalid := false }

/-- With HYBRID and CAP_ACCESS_WITHOUT_C = fault. -/
def P32h : Params :=
  { format := F32, layout := lay32, decoder := Decoder.ofTable, hybrid := true, levels := false, withoutC := .fault, retainInvalid := false }

def P64 : Params :=
  { format := F64, layout := resetLayout, decoder := Decoder.ofTable, hybrid := false, levels := false, withoutC := .clearTag, retainInvalid := false }

def c32 (tag ct : Bool) (ap : Nat) (ef : Bool) (l8 t b a : Nat) : Cap F32 :=
  { tag := tag, sdp := 0, ap := BitVec.ofNat _ ap, m := 0, ct := ct, ef := ef, l8 := BitVec.ofNat _ l8,
    tstored := BitVec.ofNat _ t, bstored := BitVec.ofNat _ b, reserved := 0, address := BitVec.ofNat _ a }

def c64 (tag ct : Bool) (ap : Nat) (ef : Bool) (t b a : Nat) : Cap F64 :=
  { tag := tag, sdp := 0, ap := BitVec.ofNat _ ap, m := 0, ct := ct, ef := ef, l8 := 0,
    tstored := BitVec.ofNat _ t, bstored := BitVec.ofNat _ b, reserved := 0, address := BitVec.ofNat _ a }

/-- `cap5` of 95_test_vectors.md section 3 and `capD` of section 4. -/
def cap5 : Cap F32 := c32 true false 0x05 true 0 0x10 0x3F0 0x13F8
def capD : Cap F32 := c32 true false 0x1F true 0 0x40 0x000 0x2000
/-- The sentry of J1: fields of V8. -/
def sentry : Cap F32 := c32 true true 0x0A false 1 0xA1 0x120 0x41200
def root32 : Cap F32 := { Cap.infinite F32 false with address := 0x1000 }
def v9a : Cap F32 := c32 true false 0x05 false 1 0x02 0 0x2000
/-- The capability of V12. -/
def capV12 : Cap F64 := c64 true false 0x27 false 0x5AE 0x3FF9 0x00007FFFFFFF0000
/-- MXLEN=64: bounds 0x2000 to 0x2040, every permission. -/
def capD64 : Cap F64 := c64 true false 0x27 true 0x040 0x2000 0x2000

/-- Code at 0x1000, data at 0x2000. -/
def mem0 : Memory := { map := [{ base := 0x1000, size := 0x100 }, { base := 0x2000, size := 0x40 }], bytes := [], tags := [] }

def hartOf (p : Params) (pcc : Cap p.format) (mem : Memory) (regs : List (Reg × Cap p.format)) : Hart p :=
  regs.foldl (fun h rc => h.writeC rc.1 rc.2) { resetHart p with pcc := pcc, mem := mem }

/-- c1 = capD, c2 = cap5, c3 = the integer 0xAABBCCDD, c4 = the sentry, c5 = V9a, c6 = the integer 0x2F8. -/
def h32 : Hart P32 :=
  hartOf P32 root32 mem0
    [(1, capD), (2, cap5), (3, Cap.ofInt F32 0xAABBCCDD), (4, sentry), (5, v9a), (6, Cap.ofInt F32 0x2F8)]

def h32h : Hart P32h := hartOf P32h root32 mem0 [(1, { capD with ap := 0x05 }), (2, cap5)]

def h64 : Hart P64 :=
  hartOf P64 { Cap.infinite F64 false with address := 0x1000 } mem0
    [(1, capD64), (2, capV12), (3, Cap.ofInt F64 0x1122334455667788), (4, Cap.ofInt F64 0x00007FFFFFFDFFC0)]

def at32 (h : Hart P32) : State := { params := P32, hart := h }
def at64 (h : Hart P64) : State := { params := P64, hart := h }

/-- Tag, CT, AP and address of a register after the step. -/
def regAfter (o : Host.Outcome State Fault Refusal) (r : Reg) : Option (Bool × Bool × Nat × Nat) :=
  match o with
  | .next t => some ((t.hart.readC r).tag, (t.hart.readC r).ct, (t.hart.readC r).ap.toNat, (t.hart.readC r).address.toNat)
  | _ => none

/-- The same of pcc. -/
def pccAfter (o : Host.Outcome State Fault Refusal) : Option (Bool × Bool × Nat × Nat) :=
  match o with
  | .next t => some (t.hart.pcc.tag, t.hart.pcc.ct, t.hart.pcc.ap.toNat, t.hart.pcc.address.toNat)
  | _ => none

/-- The n bytes from a, as a number, and the tagged words, after the step. -/
def memAfter (o : Host.Outcome State Fault Refusal) (a n : Nat) : Option (Nat × List Nat) :=
  match o with
  | .next t => some (t.hart.mem.load a n, t.hart.mem.tags)
  | _ => none

def faultOf (o : Host.Outcome State Fault Refusal) : Option Fault :=
  match o with
  | .fault r => some r
  | _ => none

def refusalOf (o : Host.Outcome State Fault Refusal) : Option Refusal :=
  match o with
  | .refused r => some r
  | _ => none

/-- The hart after SC c2, 8(c1): vector M1. -/
def h32stored : Hart P32 := { h32 with mem := h32.mem.writeCap lay32 0x2008 cap5 }

/-! ## Bounds (V) and representability -/

def bt {f : Format} (c : Cap f) : Nat × Nat := (c.bounds.base.toNat, c.bounds.top.toNat)

/-- V1, V2, V15: infinite bounds. -/
theorem test_bounds_infinite :
    bt (Cap.null F32) = (0, 0x100000000) ∧ bt (Cap.null F64) = (0, 0x10000000000000000) ∧
    bt (c32 true false 5 false 0 4 0 0x12345678) = (0, 0x104000000) := by decide

/-- V4, V5, V6, V7c, V7d: EF = 1, and the corrections. -/
theorem test_bounds_ef1 :
    bt (c32 true false 5 true 1 0x20 0x20 0x10000024) = (0x10000020, 0x10000120) ∧ bt cap5 = (0x13F0, 0x1410) ∧
    bt { cap5 with address := 0x1404 } = (0x13F0, 0x1410) ∧ bt { cap5 with address := 0x16F0 } = (0x17F0, 0x1810) ∧
    bt { cap5 with address := 0x12EF } = (0xFF0, 0x1010) := by decide

/-- V8, V17, V9e. -/
theorem test_bounds_ef0 :
    bt sentry = (0x41200, 0x42A00) ∧ bt (c32 true false 5 false 0 3 2 0xABCDEF) = (0xA00000, 0xA40000) ∧
    bt (c32 true false 5 false 0 0 0x101 77) = (0x80000000, 0x100000000) := by decide

/-- V10a, V10b, V10c: the top-bit correction. -/
theorem test_bounds_wrap :
    bt { cap5 with address := 0xFFFFFFF8 } = (0xFFFFFFF0, 0x100000010) ∧
    bt { cap5 with address := 4 } = (0xFFFFFFF0, 0x100000010) ∧
    bt (c32 true false 5 true 0 0xF8 0x3F0 4) = (0xFFFFFFF0, 0xFFFFFFF8) := by decide

/-- V11, V12, V13. -/
theorem test_bounds_rv64 :
    bt (c64 true false 5 true 0x123 0x100 0x8000004110) = (0x8000004100, 0x8000004123) ∧
    bt capV12 = (0x00007FFFFFFDFFC0, 0x00007FFFFFFEAD40) ∧
    bt (c64 true false 5 false 6 4 0xDEADBEEF) = (0xDEADC000, 0xDEADD000) := by decide

/-- V9a, V9b, V9c, V9d, V9f, V14, V16: malformed. -/
theorem test_bounds_malformed :
    bt v9a = (0, 0) ∧ bt (c32 true false 5 false 1 2 1 0) = (0, 0) ∧ bt (c32 true false 5 false 0 0 4 0) = (0, 0) ∧
    bt (c32 true false 5 false 0 0 0x201 0) = (0, 0) ∧ bt (c32 true false 5 false 1 3 3 0) = (0, 0) ∧
    bt (c64 true false 5 false 0 8 0) = (0, 0) ∧ bt (c64 true false 5 false 7 5 0x1000) = (0, 0) := by decide

/-- A13, A14, A15 and the wrap-around case of section 3. -/
theorem test_representable :
    capV12.representable 0x00007FFFFFFDFFBF = true ∧ capV12.representable 0x00007FFFFFFD7FC0 = true ∧
    capV12.representable 0x00007FFFFFFD7FBF = false ∧
    Cap.representable { cap5 with address := 0xFFFFFFF8 } 0x2EF = true ∧
    Cap.representable { cap5 with address := 0xFFFFFFF8 } 0x2F0 = false := by decide

/-! ## Permissions (S4, S5, P) -/

theorem test_perms_rv32 :
    apPerms .rv32 0x0B = { r := true, w := false, c := true, x := true, asr := false, lm := true } ∧
    apPerms .rv32 0x1B = { Perms.none with r := true, c := true, lm := true } ∧ apPerms .rv32 0x12 = Perms.none := by decide

theorem test_perms_rv64 :
    apPerms .rv64 0x0D = { Perms.none with c := true, r := true, x := true } ∧
    apPerms .rv64 0x06 = { Perms.none with w := true, r := true } ∧
    apPerms .rv64 0xC0 = Perms.none := by decide

theorem test_mbit : (c32 true false 0x0B true 0 0 0 0).mbit = true ∧ (c32 true false 0x1B true 0 0 0 0).mbit = false := by decide

/-- C7: for MXLEN=64 a legal AP of which `acperm_reduce` must drop ASR is not one RETAIN_INVALID_LOADED_PERMS speaks of. -/
theorem test_retain_not_observable :
    ({ capD64 with ap := 0x37 } : Cap F64).encodingLegal false = true ∧ ({ capD64 with ap := 0x37 } : Cap F64).invalidPerms = false ∧
    ({ capD64 with ap := 0x77 } : Cap F64).invalidPerms = true := by decide

/-! ## Instructions on registers -/

/-- P1: GCPERM of a reserved AP value reports the empty set. -/
theorem test_gcperm_reserved :
    (c32 false false 0x12 true 0 0 0 0).packed = Config.gcpermPack F32 Perms.none false 0 := rfl

/-- J7, V9a: GCBASE of a sealed capability and of malformed bounds. -/
theorem test_gcbase :
    regAfter (exec (.gcbase 7 4) (at32 h32)) 7 = some (false, false, 0, 0x41200) ∧
    regAfter (exec (.gcbase 7 5) (at32 h32)) 7 = some (false, false, 0, 0) := by decide

/-- P6: ACPERM of a sealed capability. -/
theorem test_acperm_sealed : (sentry.andPerms 0).tag = false := rfl

/-- P7: ACPERM of a capability without permissions. -/
theorem test_acperm_empty : (Cap.andPerms (c32 true false 0 true 0 0 0 0) 0).perms = Perms.none := by
  have h : acpermReduce .rv32 Perms.none = Perms.none := by
    unfold acpermReduce
    generalize Config.acpermFree Mxlen.rv32 Perms.none = s
    obtain ⟨r, w, c, x, asr, lm⟩ := s
    revert r w c x asr lm
    decide
  show apPerms .rv32 _ = _
  have h2 : (Cap.andPerms (c32 true false 0 true 0 0 0 0) 0).ap =
      BitVec.ofNat 5 (apEncode .rv32 (acpermReduce .rv32 Perms.none) ((acpermReduce .rv32 Perms.none).x && false)) := rfl
  rw [h2, h]
  decide

/-- A2 and A10: CADD out of the representable range, and of malformed bounds. -/
theorem test_cadd :
    regAfter (exec (.cadd 7 2 6) (at32 h32)) 7 = some (false, false, 5, 0x16F0) ∧
    regAfter (exec (.cadd 7 5 6) (at32 h32)) 7 = some (false, false, 5, 0x22F8) := by decide

/-- A3 and A4: CADDI at the low edge of the window, with a negative immediate. -/
theorem test_caddi :
    regAfter (exec (.caddi 7 2 0xEF8#12) (at32 h32)) 7 = some (true, false, 5, 0x12F0) ∧
    regAfter (exec (.caddi 7 2 0xEF7#12) (at32 h32)) 7 = some (false, false, 5, 0x12EF) := by decide

/-- A12 (program 4) and R117: SCADDR, of a plain and of a sealed source, destination equal to the source. -/
theorem test_scaddr :
    regAfter (exec (.scaddr 2 2 4) (at64 h64)) 2 = some (true, false, 0x27, 0x00007FFFFFFDFFC0) ∧
    regAfter (exec (.scaddr 4 4 6) (at32 h32)) 4 = some (false, true, 0x0A, 0x2F8) := by decide

/-- J10, J8: CBLD with a larger source, and with an untagged authority, is untagged whatever `cbld_extra` is. -/
theorem test_cbld :
    (Cap.build false cap5 { cap5 with tstored := 0x11 }).tag = false ∧
    (Cap.build false { root32 with tag := false } cap5).tag = false := ⟨rfl, rfl⟩

/-- J9: every necessary condition holds, the seal is gone. -/
theorem test_cbld_sealed_source :
    cbldNecessary false root32 { sentry with tag := false } = true ∧
    (Cap.build false root32 { sentry with tag := false }).ct = false := ⟨by decide, rfl⟩

/-- J1: JALR through a sentry. -/
theorem test_jalr_sentry :
    pccAfter (exec (.jalr 7 4 0) (at32 h32)) = some (true, false, 0x0A, 0x41200) ∧
    regAfter (exec (.jalr 7 4 0) (at32 h32)) 7 = some (true, true, 0x08, 0x1004) := by decide

/-- J2: with an offset the sentry loses its tag; the target register is read before the link is written. -/
theorem test_jalr_offset :
    pccAfter (exec (.jalr 4 4 4) (at32 h32)) = some (false, true, 0x0A, 0x41204) ∧
    regAfter (exec (.jalr 4 4 4) (at32 h32)) 4 = some (true, true, 0x08, 0x1004) := by decide

/-! ## Loads and stores -/

/-- M1: bytes F8 13 00 00, then the metadata word; the tag of 0x2008. -/
theorem test_sc :
    memAfter (exec (.sc 2 1 8) (at32 h32)) 0x2008 4 = some (0x13F8, [0x2008]) ∧
    memAfter (exec (.sc 2 1 8) (at32 h32)) 0x200C 4 = some ((cap5.metadata lay32).toNat, [0x2008]) := by decide

/-- Program 3, second line: the capability comes back whole. -/
theorem test_lc : regAfter (exec (.lc 7 1 8) (at32 h32stored)) 7 = some (true, false, 5, 0x13F8) := by decide

/-- M7: without C-permission the tag is cleared, or the access faults. -/
theorem test_lc_without_c :
    regAfter (exec (.lc 7 1 8) (at32 (h32stored.writeC 1 { capD with ap := 0x05 }))) 7 = some (false, false, 5, 0x13F8) ∧
    faultOf (exec (.lc 7 1 8) { params := P32h, hart := h32h }) =
      some (.cheri (.permitViolation .c) .load 0x2008 0x1000) := by decide

/-- M6: a sealed word comes through an authority without LM unchanged. -/
theorem test_lc_filter_sealed :
    loadFilter false { capD with ap := 0x13 } { capD with ct := true } = { capD with ct := true } := rfl

/-- Program 3, third line: the byte and the tag. -/
theorem test_sb : memAfter (exec (.sb 3 1 12) (at32 h32stored)) 0x200C 1 = some (0xDD, []) := by decide

/-- M3: another word keeps its tag. -/
theorem test_sw : memAfter (exec (.sw 3 1 4) (at32 h32stored)) 0x2004 4 = some (0xAABBCCDD, [0x2008]) := by decide

theorem test_sh : memAfter (exec (.sh 3 1 0x3E) (at32 h32)) 0x203E 2 = some (0xCCDD, []) := by decide

theorem test_sd : memAfter (exec (.sd 3 1 8) (at64 h64)) 0x2008 8 = some (0x1122334455667788, []) := by decide

/-- Sign and zero extension of the byte 0xDD, the half 0xCCDD and the word 0xAABBCCDD. -/
def h32data : Hart P32 := { h32 with mem := Memory.write h32.mem .rv32 0x2000 4 0xAABBCCDD }

def h64data : Hart P64 := { h64 with mem := Memory.write h64.mem .rv64 0x2000 8 0x11223344AABBCCDD }

theorem test_lb : regAfter (exec (.lb 7 1 0) (at32 h32data)) 7 = some (false, false, 0, 0xFFFFFFDD) := by decide
theorem test_lbu : regAfter (exec (.lbu 7 1 3) (at32 h32data)) 7 = some (false, false, 0, 0xAA) := by decide
theorem test_lh : regAfter (exec (.lh 7 1 0) (at32 h32data)) 7 = some (false, false, 0, 0xFFFFCCDD) := by decide
theorem test_lhu : regAfter (exec (.lhu 7 1 2) (at32 h32data)) 7 = some (false, false, 0, 0xAABB) := by decide
/-- M10. -/
theorem test_lw_address : regAfter (exec (.lw 7 1 8) (at32 h32stored)) 7 = some (false, false, 0, 0x13F8) := by decide
theorem test_lw_rv64 : regAfter (exec (.lw 7 1 0) (at64 h64data)) 7 = some (false, false, 0, 0xFFFFFFFFAABBCCDD) := by decide
theorem test_lwu : regAfter (exec (.lwu 7 1 0) (at64 h64data)) 7 = some (false, false, 0, 0xAABBCCDD) := by decide
theorem test_ld : regAfter (exec (.ld 7 1 0) (at64 h64data)) 7 = some (false, false, 0, 0x11223344AABBCCDD) := by decide

/-- M5: below the base and at the top. M4: misaligned capability access. M8: the tag comes before the seal. M9. -/
theorem test_access_faults :
    faultOf (exec (.lw 7 1 0xFFC#12) (at32 h32)) = some (.cheri .boundsViolation .load 0x1FFC 0x1000) ∧
    faultOf (exec (.lw 7 1 0x40) (at32 h32)) = some (.cheri .boundsViolation .load 0x2040 0x1000) ∧
    faultOf (exec (.lc 7 1 4) (at32 h32)) = some (.cheri .misalignedCap .load 0x2004 0x1000) ∧
    faultOf (exec (.lw 7 7 0) (at32 (h32.writeC 7 { capD with tag := false, ct := true }))) =
      some (.cheri .tagViolation .load 0x2000 0x1000) ∧
    faultOf (exec (.sw 3 7 0) (at32 (h32.writeC 7 { capD with ap := 0x01 }))) =
      some (.cheri (.permitViolation .w) .store 0x2000 0x1000) := by decide

/-- R156's example: bounds 0x1000 to 0x1010, offsets 14 (misaligned and out of bounds: refused), 16, and 14 through an untagged
base (R155: always TagViolation). -/
theorem test_misaligned_before_bounds :
    refusalOf (exec (.lw 7 7 14) (at32 (h32.writeC 7 (c32 true false 0x01 true 0 0x10 0 0x1000)))) =
      some (.misalignedInteger 0x100E) ∧
    faultOf (exec (.lw 7 7 16) (at32 (h32.writeC 7 (c32 true false 0x01 true 0 0x10 0 0x1000)))) =
      some (.cheri .boundsViolation .load 0x1010 0x1000) ∧
    faultOf (exec (.lw 7 0 14) (at32 h32)) = some (.cheri .tagViolation .load 14 0x1000) := by decide

/-- J6, M11, R42. -/
theorem test_access_stops :
    faultOf (exec (.sc 2 4 0) (at32 h32)) = some (.cheri .sealViolation .store 0x41200 0x1000) ∧
    faultOf (exec (.lb 7 5 0) (at32 h32)) = some (.cheri .boundsViolation .load 0x2000 0x1000) ∧
    refusalOf (exec (.lw 7 1 2) (at32 h32)) = some (.misalignedInteger 0x2002) := by decide

/-! ## Fetching -/

/-- Program 1, first line, from memory. -/
theorem test_step_program1 :
    regAfter (step ((at32 (h32.writeC 6 (Cap.ofInt F32 0x2F7))).withFetchWord 32 0x0C610333)) 6 = some (true, false, 5, 0x16EF) ∧
    pccAfter (step ((at32 h32).withFetchWord 32 0x0C610333)) = some (true, false, 8, 0x1004) := by decide

/-- J3, J4 and a word that is no instruction. -/
theorem test_step_fetch_stops :
    faultOf (step (at32 { h32 with pcc := { root32 with tag := false } })) =
      some (.cheri .tagViolation .fetch 0x1000 0x1000) ∧
    faultOf (step (at32 { h32 with pcc := { root32 with ap := 0x05 } })) =
      some (.cheri (.permitViolation .x) .fetch 0x1000 0x1000) ∧
    refusalOf (step (at32 h32)) = some (.undecodable .noRow 0x1000) := by decide

/-- The reset machine runs a placed word. -/
theorem test_reset_runs : ∃ t, step (State.reset.withFetchWord 32 0x10500033) = .next t := ⟨_, rfl⟩

/-! ## Witnesses: concrete states and operands that meet the hypotheses of the statements -/

theorem authorised_of {p : Params} {h : Hart p} {auth : Cap p.format} {needs : List Perm} {ea n : Nat}
    (h1 : auth.tag = true ∧ auth.ct = false ∧ ∀ q ∈ needs, auth.perms.has q = true)
    (h2 : auth.bounds.base.toNat ≤ ea ∧ ea + n ≤ auth.bounds.top.toNat ∧ ea % n = 0) (h3 : h.mem.presentRange ea n = true) :
    h.Authorised auth needs ea n :=
  { tag := h1.1, unsealed := h1.2.1, perms := h1.2.2, low := h2.1, high := h2.2.1, aligned := h2.2.2,
    present := (presentRange_iff _ _ _).1 h3 }

theorem witness_DecodeOfEncodeIsTheInstruction :
    Instr.wf .rv32 (.sc 31 31 0x800#12) = true ∧ Instr.wf .rv64 (.lwu 31 0 0x7FF#12) = true := by decide

theorem witness_EncodeOfDecodeIsTheWord : ∃ i, decode .rv64 0xFFF6269B#32 = .ok i := ⟨_, rfl⟩

/-- Four bytes of code at 0x1000, and pcc with bounds of exactly these four bytes. -/
def pcc4 : Cap F32 := c32 true false 0x0A true 0 0x04 0x000 0x1000
def h32code : Hart P32 := Hart.placeWord { h32 with pcc := pcc4 } 0x0C610333

theorem witness_StepRunsDecodedInstruction :
    P32.levels = false ∧ h32code.xlen = .rv32 ∧ h32code.Authorised h32code.pcc [.x] h32code.pc.toNat 4 ∧
    (P32.hybrid && h32code.pcc.mbit) = false ∧
    P32.decoder.decode .rv32 (h32code.mem.readByte (h32code.pc.toNat + 3) ++ h32code.mem.readByte (h32code.pc.toNat + 2) ++
      h32code.mem.readByte (h32code.pc.toNat + 1) ++ h32code.mem.readByte h32code.pc.toNat) = .ok (.cadd 6 2 6) :=
  ⟨rfl, rfl, authorised_of (by decide) (by decide) (by decide), rfl, rfl⟩

/-- A hart with the given pcc whose code is the word 0. -/
def fetching (p : Params) (pcc : Cap p.format) : Hart p := hartOf p pcc mem0 []

theorem witness_FetchIsCheckedThroughPcc_faults :
    ({ pcc4 with tag := false } : Cap F32).tag = false ∧
    (({ pcc4 with ct := true } : Cap F32).tag = true ∧ ({ pcc4 with ct := true } : Cap F32).ct = true) ∧
    (cap5.tag = true ∧ cap5.ct = false ∧ cap5.perms.x = false) ∧
    (pcc4.tag = true ∧ pcc4.ct = false ∧ pcc4.perms.x = true ∧
      ¬ (pcc4.bounds.base.toNat ≤ 0x0FFF ∧ 0x0FFF + 4 ≤ pcc4.bounds.top.toNat) ∧
      ¬ (pcc4.bounds.base.toNat ≤ 0x1001 ∧ 0x1001 + 4 ≤ pcc4.bounds.top.toNat)) ∧
    (root32.tag = true ∧ root32.ct = false ∧ root32.perms.x = true ∧ root32.bounds.base.toNat ≤ 0x1002 ∧
      0x1002 + 4 ≤ root32.bounds.top.toNat ∧ 0x1002 % 4 ≠ 0) := by decide

/-- pc at the end of the code region: of its four bytes none exists. -/
theorem witness_FetchIsCheckedThroughPcc_stuck :
    root32.tag = true ∧ root32.ct = false ∧ root32.perms.x = true ∧ root32.bounds.base.toNat ≤ 0x1100 ∧
    0x1100 + 4 ≤ root32.bounds.top.toNat ∧ 0x1100 % 4 = 0 ∧ mem0.present 0x1100 = false ∧
    faultOf (step (at32 (fetching P32 { root32 with address := 0x1100 }))) = some (.stuck .fetch 0x1100 0x1100) := by decide

theorem witness_FetchIsCheckedThroughPcc_refusals :
    ((fetching P32h { root32 with ap := 0x09 }).Authorised { root32 with ap := 0x09 } [.x] 0x1000 4 ∧ P32h.hybrid = true ∧
      ({ root32 with ap := 0x09 } : Cap F32).mbit = true) ∧
    ((fetching P32 pcc4).Authorised pcc4 [.x] 0x1000 4 ∧ (P32.hybrid && pcc4.mbit) = false ∧
      P32.decoder.decode .rv32 0#32 = .error .noRow) :=
  ⟨⟨authorised_of (by decide) (by decide) (by decide), rfl, rfl⟩,
    authorised_of (by decide) (by decide) (by decide), rfl, rfl⟩

theorem witness_UncoveredMachinesAreRefused :
    ({ resetParams with levels := true } : Params).levels = true ∧ resetParams.levels = false ∧
    ({ resetHart resetParams with xlen := .rv32 } : Hart resetParams).xlen ≠ resetParams.format.mxlen := by decide

theorem witness_StepKeepsParameters : ∃ t, step { params := P32, hart := h32code } = .next t := ⟨_, rfl⟩

theorem witness_NonJumpsAdvancePccByFour :
    (∀ cd cs1 imm, Instr.gcbase 7 4 ≠ .jalr cd cs1 imm) ∧
    ∃ h' : Hart P32, exec (.gcbase 7 4) { params := P32, hart := h32 } = .next { params := P32, hart := h' } :=
  ⟨by simp, _, rfl⟩

theorem witness_PlacedWordIsFetched :
    P32.levels = false ∧ h32.xlen = .rv32 ∧ h32.mem.wf .rv32 = true ∧ (P32.hybrid && h32.pcc.mbit) = false ∧
    h32.pcc.tag = true ∧ h32.pcc.ct = false ∧ h32.pcc.perms.x = true ∧ h32.pcc.bounds.base.toNat ≤ h32.pc.toNat ∧
    h32.pc.toNat + 4 ≤ h32.pcc.bounds.top.toNat ∧ h32.pc.toNat % 4 = 0 ∧
    P32.decoder.decode .rv32 (BitVec.ofNat 32 0x0C610333) = .ok (.cadd 6 2 6) := by
  refine ⟨rfl, rfl, ?_, rfl, ?_, ?_, ?_, ?_, ?_, ?_, rfl⟩ <;> decide

/-- R147 item 3: without HYBRID an untagged pcc may have its M-bit set. -/
def h64m : Hart P64 := { resetHart P64 with pcc := { Cap.null F64 with m := 1 } }

theorem h64m_launch : State.Launch { params := P64, hart := h64m } := by
  refine ⟨⟨by decide, by decide, ?_⟩, by decide, by decide, by decide, by decide⟩
  rintro c ⟨ht, rfl | ⟨r, rfl⟩ | h | ⟨a, h, -⟩⟩
  · exact absurd ht (by decide)
  · revert ht
    revert r
    decide
  · have hn : tidCaps h64m.tid = [] := rfl
    simp [hn] at h
  · have hn : h64m.mem.tags = [] := rfl
    simp [hn] at h

/-! ### Bounds -/

theorem witness_MalformedBoundsClassified :
    cap5.ef = true ∧
    (v9a.ef = false ∧ v9a.eStored = 24) ∧ (c32 true false 5 false 1 3 3 0).eStored = 31 ∧
    (c64 true false 5 false 6 5 0).eStored = 53 ∧ (c64 true false 5 false 7 7 0).eStored = 63 ∧
    (c32 true false 5 false 0 0 4 0).eStored = 0 ∧ (Cap.null F64).eStored = 0 ∧
    (c32 true false 5 false 0 0 0x201 0).eStored = 1 ∧ (c32 true false 5 false 0 0 0x1FD 0).eStored = 1 ∧
    (c32 true false 5 false 0 0 2 0).eStored = 2 ∧ (c32 true false 5 false 1 1 3 0).eStored = 23 ∧
    (c64 true false 5 false 0 2 0).eStored = 2 ∧ (c64 true false 5 false 6 4 0).eStored = 52 ∧
    v9a.malformed = true := by decide

theorem witness_ExponentRange :
    (Cap.null F32).exponent = 24 ∧ (c32 true false 5 false 1 3 3 0).exponent = -7 ∧ (Cap.null F64).exponent = 52 ∧
    (c64 true false 5 false 7 7 0).exponent = -11 ∧ (c64 true false 5 false 6 5 0).exponent < 0 := by decide

theorem witness_LengthIsTheScaledDifference :
    (cap5.malformed = false ∧ cap5.ef = true) ∧ (c32 true false 5 true 1 0xFF 0 0).malformed = false ∧
    (sentry.malformed = false ∧ sentry.ef = false) ∧ (c32 true false 5 false 0 0 0x101 77).malformed = false ∧ capV12.malformed = false := by decide

/-- V8 with E + MW = 14, V9e with E + MW = 33, and E + MW = 32 itself. -/
theorem witness_BoundsSubstituteTheStoredFields :
    (cap5.malformed = false ∧ cap5.ef = true) ∧ (sentry.malformed = false ∧ sentry.exponent.toNat + 10 ≤ 32) ∧
    ((c32 true false 5 false 0 0 0x101 77).malformed = false ∧ 32 < (c32 true false 5 false 0 0 0x101 77).exponent.toNat + 10) ∧
    ((c32 true false 5 false 0 0 2 77).malformed = false ∧ (c32 true false 5 false 0 0 2 77).exponent.toNat + 10 = 32) := by decide

/-- M12: a capability of length 0. -/
def empty32 : Cap F32 := c32 true false 0x1F true 0 0x20 0x020 0x2020

theorem witness_BaseIsAtMostTop : cap5.malformed = false ∧ empty32.decT = empty32.decB ∧ empty32.lMsb = 0 := by decide

theorem witness_InfiniteBoundsCharacterised :
    ((Cap.null F32).exponent = 24 ∧ (Cap.null F32).malformed = false) ∧
    ((c32 true false 5 false 0 4 0 77).bounds.base.toNat = 0 ∧ 2 ^ 32 ≤ (c32 true false 5 false 0 4 0 77).bounds.top.toNat) ∧
    ((c32 true false 5 false 0 0 4 0).exponent = 24 ∧ (c32 true false 5 false 0 0 4 0).malformed = true) := by decide

theorem witness_RoamingKeepsBounds :
    cap5.malformed = false ∧ cap5.exponent.toNat + 10 ≤ 32 ∧
    ((cap5.bounds.base.toNat : Int) - 2 ^ 8 ≤ 0x12F0 ∧ (0x12F0 : Int) < (cap5.bounds.top.toNat : Int) + 2 ^ 8) ∧
    ((cap5.bounds.base.toNat : Int) - 2 ^ 8 ≤ 0x150F ∧ (0x150F : Int) < (cap5.bounds.top.toNat : Int) + 2 ^ 8) := by decide

theorem witness_RepresentableRangeIsTheWindow :
    cap5.malformed = false ∧ cap5.representable 0x16EF = true ∧ cap5.representable 0x16F0 = false ∧
    root32.malformed = false ∧ 32 ≤ root32.exponent.toNat + 10 := by decide

theorem witness_NextLinearInstructionIsRepresentable :
    ({ cap5 with address := 0x140F } : Cap F32).malformed = false ∧ 256 ≤ 2 ^ (10 - 2) ∧
    ({ cap5 with address := 0x140F } : Cap F32).bounds.base.toNat ≤ 0x140F ∧
    0x140F < ({ cap5 with address := 0x140F } : Cap F32).bounds.top.toNat := by decide

/-! ### Memory -/

theorem witness_RecordAndBitsAreInverse : P32.wf = true ∧ P64.wf = true ∧ 2 ^ 64 - 1 < 2 ^ (2 * 32) := by decide

theorem witness_StoredCapabilityReadsBack : P32.wf = true ∧ h32stored.mem.wf .rv32 = true := by decide

/-- The last byte of one word and the first of the next are written; the tag of a third is left. -/
theorem witness_IntegerWriteClearsTags :
    h32stored.mem.wf .rv32 = true ∧ 0 < 2 ∧ ¬ (0x2007 ≤ 0x2006 ∧ 0x2006 < 0x2007 + 2) ∧ ¬ (0x2007 ≤ 0x2009 ∧ 0x2009 < 0x2007 + 2) ∧
    (0x2007 ≤ 0x2008 ∧ 0x2008 < 0x2007 + 2) ∧ (0x2010 % 8 = 0 ∧ ∀ y, 0x2007 ≤ y → y < 0x2007 + 2 → y - y % 8 ≠ 0x2010) := by
  refine ⟨by decide, by decide, by decide, by decide, by decide, by decide, ?_⟩
  intro y h1 h2
  omega

/-! ### Permissions -/

theorem witness_ApTableByQuadrants :
    F32.mxlen = .rv32 ∧ cap5.apLegal = true ∧ cap5.ap.toNat / 8 = 0 ∧ sentry.ap.toNat / 8 = 1 ∧
    ({ capD with ap := 0x12 } : Cap F32).apLegal = false ∧ ({ capD with ap := 0x13 } : Cap F32).apLegal = true ∧
    ({ capD with ap := 0x13 } : Cap F32).ap.toNat / 8 = 2 ∧ capD.apLegal = true ∧ capD.ap.toNat / 8 = 3 := by decide

theorem witness_Rv64PermissionsArePerBit : F64.mxlen = .rv64 ∧ capV12.apLegal = true ∧
    ({ capV12 with ap := 0x40 } : Cap F64).apLegal = false := by decide

theorem witness_InfiniteGrantsEverything : F32.mxlen = .rv32 ∧ F64.mxlen = .rv64 ∧ 1 < F32.sdplen := by decide

theorem witness_ReservedApReadsAsNoPermissions : F32.mxlen = .rv32 ∧ apTable32 (c32 false false 0x12 true 0 0 0 0).ap.toNat = none := by
  decide

/-- M6: AP 0x13 grants R and C, not LM; the loaded word is capD; a reserved AP value; an authority with LM. -/
theorem witness_LoadFilterRemovesWriteAndMutable :
    (({ capD with ap := 0x13 } : Cap F32).perms.r = true ∧ ({ capD with ap := 0x13 } : Cap F32).perms.c = true ∧
      ({ capD with ap := 0x13 } : Cap F32).perms.lm = false ∧ capD.tag = true ∧ capD.ct = false ∧ capD.apLegal = true) ∧
    ({ capD with ap := 0x12 } : Cap F32).apLegal = false ∧
    (({ capD with ap := 0x04 } : Cap F32).perms.r = false ∧ ({ capD with ap := 0x05 } : Cap F32).perms.c = false ∧
      capD.perms.lm = true ∧ ({ capD with tag := false } : Cap F32).tag = false ∧ sentry.ct = true) := by decide

/-! ### Instructions -/

theorem witness_GcbaseReadsDecodedBase : (h32.readC 5).malformed = true := by decide

theorem witness_JalrJumpsAndLinks :
    (({ sentry with address := 0x41201 } : Cap F32).ct = true ∧
      ({ sentry with address := 0x41201 } : Cap F32).address.toNat % 2 = 1) ∧ ¬ ((h32.readC 4).ct = true ∧ (0 : Imm12) = 0 ∧ (h32.readC 4).address.toNat % 2 = 1) ∧
    ((h32.readC 4).ct = true ∧ (0 : Imm12) = 0) ∧ ¬ ((h32.readC 4).ct = true ∧ (4 : Imm12) = 0) ∧
    ¬ ((h32.readC 2).ct = true ∧ (0 : Imm12) = 0) := by decide

/-- A1 and A2: the last address of the window and the one past it. -/
theorem witness_LeavingTheRepresentableRangeClearsTheTag :
    (7 : Reg) ≠ 0 ∧ Cap.bounds { h32.readC 2 with address := (h32.readC 2).address + h32.readX 6 } ≠ (h32.readC 2).bounds ∧
    (Cap.bounds { h32.readC 2 with address := 0x16EF } = (h32.readC 2).bounds ∧ (h32.readC 2).tag = true ∧
      (h32.readC 2).ct = false ∧ (h32.readC 2).malformed = false) := by decide

theorem witness_AddressUpdatesOfMalformedSourcesAreUntagged :
    (h32.readC 5).malformed = true ∧ ¬ ((h32.readC 5).ct = true ∧ (0 : Imm12) = 0) ∧
    (∃ h' : Hart P32, exec (.cadd 7 5 3) { params := P32, hart := h32 } = .next { params := P32, hart := h' }) ∧
    ∃ h' : Hart P32, exec (.jalr 7 5 0) { params := P32, hart := h32 } = .next { params := P32, hart := h' } :=
  ⟨by decide, by decide, ⟨_, rfl⟩, _, rfl⟩

/-- Every capability untagged. -/
def h32untagged : Hart P32 :=
  hartOf P32 { root32 with tag := false } mem0 [(1, { capD with tag := false }), (2, { cap5 with tag := false })]

theorem witness_InvalidOperandsGiveInvalidResults :
    (∃ h' : Hart P32, exec (.acperm 7 2 3) { params := P32, hart := h32untagged } = .next { params := P32, hart := h' }) ∧
    (∃ h' : Hart P32, exec (.cbld 7 2 2) { params := P32, hart := h32untagged } = .next { params := P32, hart := h' }) ∧
    (∃ h' : Hart P32, exec (.jalr 7 2 0) { params := P32, hart := h32untagged } = .next { params := P32, hart := h' }) ∧
    (h32untagged.readC 2).tag = false ∧ h32untagged.pcc.tag = false ∧
    (∃ h' : Hart P32, exec (.lc 7 1 0) { params := P32, hart := h32 } = .next { params := P32, hart := h' }) ∧
    h32.mem.tagAt 0x2000 = false ∧
    (∃ h' : Hart P32, exec (.sc 3 1 0) { params := P32, hart := h32 } = .next { params := P32, hart := h' }) ∧
    (h32.readC 3).tag = false :=
  ⟨⟨_, rfl⟩, ⟨_, rfl⟩, ⟨_, rfl⟩, rfl, rfl, ⟨_, rfl⟩, rfl, ⟨_, rfl⟩, rfl⟩

theorem witness_SealedSourcesLoseTheTag :
    (h32.readC 4).ct = true ∧
    (∃ h' : Hart P32, exec (.cadd 7 4 0) { params := P32, hart := h32 } = .next { params := P32, hart := h' }) ∧
    (∃ h' : Hart P32, exec (.jalr 7 4 4) { params := P32, hart := h32 } = .next { params := P32, hart := h' }) :=
  ⟨rfl, ⟨_, rfl⟩, ⟨_, rfl⟩⟩

/-! ### Loads and stores: the first and the last item inside the bounds of capD -/

theorem witness_ByteLoadsComplete :
    h32.Authorised (h32.readC 1) [.r] 0x2000 1 ∧ h32.Authorised (h32.readC 1) [.r] 0x203F 1 ∧
    (effectiveAddress (h32.readC 1) 0x3F).toNat = 0x203F :=
  ⟨authorised_of (by decide) (by decide) (by decide), authorised_of (by decide) (by decide) (by decide), by decide⟩

theorem witness_HalfLoadsComplete :
    h32.Authorised (h32.readC 1) [.r] 0x203E 2 ∧ (effectiveAddress (h32.readC 1) 0x3E).toNat = 0x203E :=
  ⟨authorised_of (by decide) (by decide) (by decide), by decide⟩

theorem witness_WordLoadsComplete :
    (h32.Authorised (h32.readC 1) [.r] 0x203C 4 ∧ (effectiveAddress (h32.readC 1) 0x3C).toNat = 0x203C) ∧
    h64.Authorised (h64.readC 1) [.r] (effectiveAddress (h64.readC 1) 0x3C).toNat 4 ∧ P64.format.mxlen = .rv64 :=
  ⟨⟨authorised_of (by decide) (by decide) (by decide), by decide⟩, authorised_of (by decide) (by decide) (by decide), rfl⟩

theorem witness_DoubleLoadCompletes :
    P64.format.mxlen = .rv64 ∧ h64.Authorised (h64.readC 1) [.r] (effectiveAddress (h64.readC 1) 0x38).toNat 8 :=
  ⟨rfl, authorised_of (by decide) (by decide) (by decide)⟩

theorem witness_IntegerStoresComplete :
    (h32.mem.wf .rv32 = true ∧ h32.Authorised (h32.readC 1) [.w] (effectiveAddress (h32.readC 1) 0x3F).toNat 1 ∧
      h32.Authorised (h32.readC 1) [.w] (effectiveAddress (h32.readC 1) 0x3E).toNat 2 ∧
      h32.Authorised (h32.readC 1) [.w] (effectiveAddress (h32.readC 1) 0x3C).toNat 4) ∧
    (h64.mem.wf .rv64 = true ∧ P64.format.mxlen = .rv64 ∧
      h64.Authorised (h64.readC 1) [.w] (effectiveAddress (h64.readC 1) 0x38).toNat 8) :=
  ⟨⟨by decide, authorised_of (by decide) (by decide) (by decide), authorised_of (by decide) (by decide) (by decide),
    authorised_of (by decide) (by decide) (by decide)⟩, by decide, rfl, authorised_of (by decide) (by decide) (by decide)⟩

/-- With both values of CAP_ACCESS_WITHOUT_C. -/
def h32hD : Hart P32h := hartOf P32h root32 mem0 [(1, capD), (2, cap5)]

theorem witness_CapabilityLoadCompletes :
    h32.Authorised (h32.readC 1) [.r] (effectiveAddress (h32.readC 1) 0x38).toNat 8 ∧ P32.withoutC ≠ .fault ∧
    (h32hD.Authorised (h32hD.readC 1) [.r] (effectiveAddress (h32hD.readC 1) 0x38).toNat 8 ∧ P32h.withoutC = .fault ∧
      (h32hD.readC 1).perms.c = true) ∧
    h64.Authorised (h64.readC 1) [.r] (effectiveAddress (h64.readC 1) 0x30).toNat 16 :=
  ⟨authorised_of (by decide) (by decide) (by decide), by decide,
    ⟨authorised_of (by decide) (by decide) (by decide), rfl, by decide⟩, authorised_of (by decide) (by decide) (by decide)⟩

theorem witness_CapabilityStoreCompletes :
    P32.wf = true ∧ h32.mem.wf .rv32 = true ∧ h32.Authorised (h32.readC 1) [.w] (effectiveAddress (h32.readC 1) 0x38).toNat 8 ∧
    (P32h.wf = true ∧ h32hD.mem.wf .rv32 = true ∧
      h32hD.Authorised (h32hD.readC 1) [.w] (effectiveAddress (h32hD.readC 1) 0x38).toNat 8 ∧ (h32hD.readC 1).perms.c = true) :=
  ⟨by decide, by decide, authorised_of (by decide) (by decide) (by decide), by decide, by decide,
    authorised_of (by decide) (by decide) (by decide), by decide⟩

theorem witness_LoadsNeedReadAndStoresNeedWrite :
    (Instr.lw 7 1 2).wf .rv32 = true ∧ (Instr.sc 7 1 0).wf .rv32 = true ∧
    (capD.tag = true ∧ capD.ct = false ∧ ({ capD with ap := 0x04 } : Cap F32).perms.r = false ∧
      ({ capD with ap := 0x01 } : Cap F32).perms.w = false) := by decide

/-- One access for each condition that fails: tag, seal, permission (the second one of LC with CAP_ACCESS_WITHOUT_C = fault among
them), bounds (one byte below the base, one past the top). -/
theorem witness_AccessReportsFirstFailure :
    (Instr.lc 7 1 0).memAccess P32h = some { kind := .load, integer := false, needs := [.r, .c], auth := 1, off := 0, size := 8 } ∧
    (Instr.lb 7 1 0).memAccess P32 = some { kind := .load, integer := true, needs := [.r], auth := 1, off := 0, size := 1 } ∧
    (Instr.lb 7 1 0).wf .rv32 = true ∧
    (h32untagged.readC 1).tag = false ∧ ((h32.readC 4).tag = true ∧ (h32.readC 4).ct = true) ∧
    ((h32h.readC 1).tag = true ∧ (h32h.readC 1).ct = false ∧ [Perm.r, .c].find? (fun q => !(h32h.readC 1).perms.has q) = some .c) ∧
    ((h32.readC 1).tag = true ∧ (h32.readC 1).ct = false ∧ (∀ q ∈ [Perm.r], (h32.readC 1).perms.has q = true) ∧ 0x1FFF % 1 = 0 ∧
      ¬ ((h32.readC 1).bounds.base.toNat ≤ 0x1FFF ∧ 0x1FFF + 1 ≤ (h32.readC 1).bounds.top.toNat) ∧
      ¬ ((h32.readC 1).bounds.base.toNat ≤ 0x2040 ∧ 0x2040 + 1 ≤ (h32.readC 1).bounds.top.toNat)) := by decide

/-- V15's bounds end past 2^32. -/
def beyond : Cap F32 := c32 true false 0x1F false 0 4 0 0xFFFFFFFC

/-- In the order of the clauses; the misaligned integer access of two bytes is at 0x203D, in bounds, and at 0x203F, out of them. -/
theorem witness_AllowedAccessesThatDoNotComplete :
    ((h32.readC 1).tag = true ∧ (h32.readC 1).ct = false ∧ (∀ q ∈ [Perm.r, .w, .c], (h32.readC 1).perms.has q = true)) ∧
    ((effectiveAddress (h32.readC 1) 0x3D).toNat = 0x203D ∧ 0x203D % 2 ≠ 0 ∧
      (effectiveAddress (h32.readC 1) 0x3F).toNat = 0x203F ∧ 0x203F % 2 ≠ 0) ∧
    (beyond.tag = true ∧ beyond.ct = false ∧ (∀ q ∈ [Perm.r], beyond.perms.has q = true) ∧
      beyond.bounds.base.toNat ≤ 0xFFFFFFFC ∧ 0xFFFFFFFC + 8 ≤ beyond.bounds.top.toNat ∧ 2 ^ 32 < 0xFFFFFFFC + 8) ∧
    ((h32.readC 1).bounds.base.toNat ≤ 0x2004 ∧ 0x2004 + 8 ≤ (h32.readC 1).bounds.top.toNat ∧ 0x2004 % 8 ≠ 0) ∧
    (root32.tag = true ∧ root32.ct = false ∧ (∀ q ∈ [Perm.r], root32.perms.has q = true) ∧ root32.bounds.base.toNat ≤ 0x2040 ∧
      0x2040 + 4 ≤ root32.bounds.top.toNat ∧ 0x2040 % 4 = 0 ∧ h32.mem.present 0x2040 = false) := by decide

theorem witness_CapabilityAccessWithoutCFaults :
    P32h.withoutC = .fault ∧ (h32h.readC 1).tag = true ∧ (h32h.readC 1).ct = false ∧ (h32h.readC 1).perms.c = false ∧
    (h32h.readC 1).perms.r = true ∧ (h32h.readC 1).perms.w = true := by decide

theorem witness_DoubleWordFormsNeedMxlen64 : P32.format.mxlen = .rv32 := rfl

def tid32 : TidRegs F32 :=
  { utid := 1, stid := 2, mtid := 3, utidc := Cap.null F32, stidc := Cap.null F32, mtidc := Cap.null F32 }

theorem witness_TidWritesNeedAsr :
    h32.tid = none ∧
    (({ h32 with tid := some tid32 } : Hart P32).tid = some tid32 ∧ h32.pcc.tag = true ∧ h32.pcc.ct = false ∧
      h32.pcc.perms.asr = true) ∧ pcc4.perms.asr = false ∧
    ({ root32 with tag := false } : Cap F32).perms.asr = true ∧ ({ root32 with ct := true } : Cap F32).perms.asr = true :=
  ⟨rfl, ⟨rfl, rfl, rfl, by decide⟩, by decide, by decide, by decide⟩

/-! ### Whole-machine rules -/

theorem h32untagged_holds_nothing : ∀ c, ¬ h32untagged.Holds c := by
  rintro c ⟨ht, rfl | ⟨r, rfl⟩ | h | ⟨a, h, -⟩⟩
  · exact absurd ht (by decide)
  · revert ht
    revert r
    decide
  · have hn : tidCaps h32untagged.tid = [] := rfl
    simp [hn] at h
  · have hn : h32untagged.mem.tags = [] := rfl
    simp [hn] at h

theorem witness_NoTagFromNothing :
    (∀ c, ¬ h32untagged.Holds c) ∧
    ∃ h' : Hart P32, exec (.cadd 7 2 2) { params := P32, hart := h32untagged } = .next { params := P32, hart := h' } :=
  ⟨h32untagged_holds_nothing, _, rfl⟩

/-- A hart with tagged capabilities in pcc, in registers and in memory that meets the invariant, and runs. -/
def h32inv : Hart P32 :=
  Hart.placeWord { hartOf P32 root32 mem0 [(1, capD), (2, cap5)] with mem := mem0.writeCap lay32 0x2008 cap5 } 0x0C2081B3

theorem h32inv_inv : h32inv.Inv where
  params := by decide
  mem := by decide
  caps := by
    rintro c ⟨ht, rfl | ⟨r, rfl⟩ | h | ⟨a, h, rfl⟩⟩
    · decide
    · revert ht
      revert r
      decide
    · have hn : tidCaps h32inv.tid = [] := rfl
      simp [hn] at h
    · have ha : a = 0x2008 := by
        have : h32inv.mem.tags = [0x2008] := by decide
        simpa [this] using h
      subst ha
      decide

theorem witness_StepKeepsCapabilityInvariants :
    State.Inv { params := P32, hart := h32inv } ∧ ∃ t, step { params := P32, hart := h32inv } = .next t :=
  ⟨h32inv_inv, _, rfl⟩

theorem witness_StepNeverWidensAuthority :
    P32.wf = true ∧ h32inv.mem.wf .rv32 = true ∧
    ∃ h' : Hart P32, step { params := P32, hart := h32inv } = .next { params := P32, hart := h' } ∧ h'.Holds h'.pcc :=
  ⟨by decide, by decide, _, rfl, by decide, .inl rfl⟩

end Sys2Proof.Tests
end

section

/-! Scope (00_scope.md): which machines the parameters range over, which are refused, and what no step changes. -/

namespace Sys2Proof

/-! ## Every function of words is a decoder (R54, D22) -/

/-- Some list holds all words of n bits. Stated with an existential, so that the list of 2^32 words is never evaluated. -/
theorem exists_list_of_all_words (n : Nat) : ∃ l : List (BitVec n), ∀ w, w ∈ l :=
  ⟨(List.range (2 ^ n)).map (BitVec.ofNat n), fun w =>
    List.mem_map.2 ⟨w.toNat, List.mem_range.2 w.isLt, by simp⟩⟩

/-- The decoder that lists the words of l with what the function says of them, and does not admit the table. -/
def Decoder.listing (l : List (BitVec 32)) (d : BitVec 32 → Option Instr) : Decoder :=
  { table := false, words := l.map fun v => (v, d v) }

section
variable {l : List (BitVec 32)} {w : BitVec 32} (hl : w ∈ l) {d : BitVec 32 → Option Instr} (x : Mxlen)
include hl

/-- A listed word that the function maps is decoded to the function's instruction. -/
theorem Decoder.listing_decode_some {i : Instr} (h : d w = some i) : (Decoder.listing l d).decode x w = .ok i := by
  simp only [Decoder.decode, Decoder.listing, lookupWord_map l d w hl, h]

/-- A listed word that the function does not map is not admitted. -/
theorem Decoder.listing_decode_none (h : d w = none) : (Decoder.listing l d).decode x w = .error .notAdmitted := by
  simp only [Decoder.decode, Decoder.listing, lookupWord_map l d w hl, h]

end

/-- Settles O4: the decoder that lists all words is the one asked for. -/
theorem everyDecoderIsAParameter : Obligations.EveryDecoderIsAParameter := by
  obtain ⟨l, hl⟩ := exists_list_of_all_words 32
  refine ⟨fun x d => ⟨Decoder.listing l d, fun w => ⟨fun i hi => ?_, fun hn => ?_⟩⟩, ?_, ?_⟩
  · exact Decoder.listing_decode_some (hl w) x hi
  · exact ⟨.notAdmitted, Decoder.listing_decode_none (hl w) x hn⟩
  · exact fun x w => unconfirmed_decode x w
  · exact fun x w => ofTable_decode x w

namespace Machine

/-! ## Machines the model does not cover (R4, D1, D2) -/

theorem step_refuses_levels {s : State} (hl : s.params.levels = true) : step s = .refused .levels := by
  simp only [step, hl, if_true]

theorem step_refuses_xlen {s : State} (hl : s.params.levels = false) (hx : s.hart.xlen ≠ s.params.format.mxlen) :
    step s = .refused .xlenNotMxlen := by
  simp only [step, hl, Bool.false_eq_true, if_false, if_pos hx]

/-- Settles O8: the two checks a step begins with. -/
theorem uncoveredMachinesAreRefused : Obligations.UncoveredMachinesAreRefused :=
  fun _ => ⟨step_refuses_levels, step_refuses_xlen⟩

/-! ## What no step changes -/

variable {p : Params}

/-- The memory map, the TID registers and XLEN are those from before, whichever of the eight shapes the instruction has. -/
theorem Completes.keeps_map_tid_xlen {h h' : Hart p} (hc : Completes h h') :
    h'.mem.map = h.mem.map ∧ h'.tid = h.tid ∧ h'.xlen = h.xlen := by
  cases hc with
  | integer => simp
  | reduce => simp
  | move => simp
  | build => simp
  | jump => simp
  | loadCap => simp
  | storeInt => simp
  | storeCap => simp

/-- A step that goes on keeps the parameters and completes an instruction on the hart. -/
theorem step_next_completes {h : Hart p} {t : State} (hs : step { params := p, hart := h } = .next t) :
    ∃ h' : Hart p, t = { params := p, hart := h' } ∧ Completes h h' := by
  obtain ⟨-, -, i, -, hx⟩ := (step_next_iff _ _).1 hs
  exact exec_next hx

/-- Settles O9: a step that goes on completes an instruction, and each of the eight shapes keeps the three fields. -/
theorem stepKeepsParameters : Obligations.StepKeepsParameters := by
  intro p h t hs
  obtain ⟨h', rfl, hc⟩ := step_next_completes hs
  exact ⟨h', rfl, hc.keeps_map_tid_xlen⟩

end Machine

end Sys2Proof

end

section

/-! The record in CLEN bits and back (30_encoding.md R52, R53): under a layout that obeys R52 each field of a capability is read
back from its position in the metadata word. -/

namespace Sys2Proof

/-! ## One field of several that do not overlap -/

theorem any_of_countP_zero {α : Type} {l : List α} {q : α → Bool} (g : α → Bool) (h : l.countP q = 0) :
    (l.any fun y => q y && g y) = false := by
  rw [List.countP_eq_zero] at h
  simpa using fun y hy hq => absurd hq (h y hy)

/-- Where at most one element of a list has the property, that element alone decides. -/
theorem any_of_countP_le_one {α : Type} {l : List α} {q : α → Bool} (g : α → Bool) {x : α} (hx : x ∈ l) (hq : q x = true)
    (h : l.countP q ≤ 1) : (l.any fun y => q y && g y) = g x := by
  induction l with
  | nil => simp at hx
  | cons y l ih =>
    rw [List.countP_cons] at h
    rw [List.any_cons]
    rcases List.mem_cons.1 hx with rfl | hx
    · rw [any_of_countP_zero g (by rw [if_pos hq] at h; omega), hq, Bool.true_and, Bool.or_false]
    · have hpos : 0 < l.countP q := List.countP_pos_iff.2 ⟨x, hx, hq⟩
      have hy : q y = false := by
        cases hy : q y
        · rfl
        · rw [if_pos hy] at h; omega
      rw [ih hx (by omega), hy, Bool.false_and, Bool.false_or]

/-- A bit of a field's value put at its position. -/
theorem getLsbD_placed {n w : Nat} (v : BitVec w) (lo : Nat) {pos : Nat} (hpos : pos < n) :
    (v.setWidth n <<< lo).getLsbD pos = (Layout.covers (lo, w) pos && v.toNat.testBit (pos - lo)) := by
  rw [BitVec.getLsbD_shiftLeft, BitVec.getLsbD_setWidth, BitVec.testBit_toNat]
  by_cases hlo : pos < lo
  · simp [Layout.covers, hlo]
  · by_cases hw : pos < lo + w
    · simp [Layout.covers, hpos, hw, Nat.le_of_not_lt hlo, show pos - lo < n by omega]
    · simp [Layout.covers, hw, BitVec.getLsbD_of_ge v (pos - lo) (by omega)]

/-! ## The metadata word bit by bit -/

section
variable {f : Format}

/-- The fields of the layout with the values a capability has in them. -/
def Cap.placed (l : Layout) (c : Cap f) : List ((Nat × Nat) × Nat) :=
  [((l.sdp, f.sdplen), c.sdp.toNat), ((l.ap, f.mxlen.apWidth), c.ap.toNat), ((l.m, f.mxlen.mWidth), c.m.toNat),
   ((l.ct, 1), (BitVec.ofBool c.ct).toNat), ((l.ef, 1), (BitVec.ofBool c.ef).toNat),
   ((l.l8, f.mxlen.l8Width), c.l8.toNat), ((l.tHigh, f.mxlen.mw - 2 - f.mxlen.half), c.tHigh.toNat),
   ((l.te, f.mxlen.half), c.te.toNat), ((l.bHigh, f.mxlen.mw - f.mxlen.half), c.bHigh.toNat),
   ((l.be, f.mxlen.half), c.be.toNat)]

theorem placed_fields (l : Layout) (c : Cap f) : (c.placed l).map Prod.fst = l.fields f := rfl

/-- A bit of the metadata word is a bit of the field that covers its position, or a reserved bit. -/
theorem metadata_getLsbD (l : Layout) (c : Cap f) {pos : Nat} (hpos : pos < f.mxlen.bits) :
    (c.metadata l).getLsbD pos =
      (((c.placed l).any fun y => Layout.covers y.1 pos && y.2.testBit (pos - y.1.1)) ||
        (spread l.reserved c.reserved.toNat).testBit pos) := by
  simp only [Cap.metadata, BitVec.getLsbD_or, getLsbD_placed _ _ hpos, BitVec.getLsbD_ofNat, hpos, decide_true,
    Bool.true_and, Cap.placed, List.any_cons, List.any_nil, Bool.or_false, Bool.or_assoc]

end

/-! ## What a layout that obeys R52 says of a position -/

section
variable {f : Format} {l : Layout} (hl : l.wf f = true)
include hl

/-- Every field lies in the metadata word; every position is covered by one field or holds one reserved bit; there are as many
reserved bits as R50 counts. -/
theorem Layout.wf_parts :
    (∀ fld ∈ l.fields f, fld.1 + fld.2 ≤ f.mxlen.bits) ∧
    (∀ pos < f.mxlen.bits, (l.fields f).countP (Layout.covers · pos) + l.reserved.count pos = 1) ∧
    (∀ pos ∈ l.reserved, pos < f.mxlen.bits) ∧ l.reserved.length = f.reservedWidth := by
  simp only [Layout.wf, Bool.and_eq_true, List.all_eq_true, decide_eq_true_eq, List.mem_range] at hl
  obtain ⟨⟨⟨hfit, hone⟩, hres⟩, hlen⟩ := hl
  exact ⟨hfit, hone, hres, hlen⟩

theorem Layout.reserved_nodup : l.reserved.Nodup := by
  obtain ⟨-, hone, hres, -⟩ := Layout.wf_parts hl
  rw [List.nodup_iff_count_le_one]
  intro pos
  by_cases hmem : pos ∈ l.reserved
  · have := hone pos (hres pos hmem)
    omega
  · rw [List.count_eq_zero_of_not_mem hmem]
    exact Nat.zero_le 1

/-- Of the placed fields and the reserved bits, exactly one has the position. -/
theorem placed_countP (c : Cap f) {pos : Nat} (hpos : pos < f.mxlen.bits) :
    (c.placed l).countP (fun y => Layout.covers y.1 pos) + l.reserved.count pos = 1 := by
  obtain ⟨-, hone, -, -⟩ := Layout.wf_parts hl
  have h := hone pos hpos
  rw [← placed_fields l c, List.countP_map] at h
  exact h

/-- The metadata word read at a field's position gives the field's value. -/
theorem extractLsb'_metadata (c : Cap f) {lo w : Nat} (v : BitVec w) (hv : ((lo, w), v.toNat) ∈ c.placed l) :
    (c.metadata l).extractLsb' lo w = v := by
  obtain ⟨hfit, -⟩ := Layout.wf_parts hl
  apply BitVec.eq_of_getLsbD_eq
  intro i hi
  have hfld : (lo, w) ∈ l.fields f := List.mem_map_of_mem (f := Prod.fst) hv
  have hpos : lo + i < f.mxlen.bits := by
    have := hfit _ hfld
    simp only at this
    omega
  have hcov : Layout.covers (lo, w) (lo + i) = true := by simp [Layout.covers, hi]
  have hone := placed_countP hl c hpos
  have hcount : 0 < (c.placed l).countP (fun y => Layout.covers y.1 (lo + i)) := List.countP_pos_iff.2 ⟨_, hv, hcov⟩
  have hnot : lo + i ∉ l.reserved := List.count_eq_zero.1 (by omega)
  rw [BitVec.getLsbD_extractLsb', metadata_getLsbD l c hpos, any_of_countP_le_one _ hv hcov (by omega),
    spread_testBit _ (Layout.reserved_nodup hl)]
  simp [hi, hnot, BitVec.testBit_toNat]

/-- The metadata word read at the reserved positions gives the reserved bits. -/
theorem gather_metadata (c : Cap f) : gather l.reserved (c.metadata l).toNat = c.reserved.toNat := by
  obtain ⟨-, -, hres, hlen⟩ := Layout.wf_parts hl
  apply Nat.eq_of_testBit_eq
  intro j
  rw [gather_testBit, BitVec.testBit_toNat]
  by_cases hj : j < l.reserved.length
  · have hmem : l.reserved[j] ∈ l.reserved := List.getElem_mem hj
    have hone := placed_countP hl c (hres _ hmem)
    have hcount : 0 < l.reserved.count l.reserved[j] := List.count_pos_iff.2 hmem
    rw [dif_pos hj, BitVec.testBit_toNat, metadata_getLsbD l c (hres _ hmem), any_of_countP_zero _ (by omega),
      spread_testBit _ (Layout.reserved_nodup hl), (Layout.reserved_nodup hl).idxOf_getElem j hj]
    simp [hmem, BitVec.testBit_toNat]
  · rw [dif_neg hj, BitVec.getLsbD_of_ge _ _ (by omega)]

end

/-! ## The round trip -/

section
variable {f : Format}

/-- The words of a capability give it back (R53). -/
theorem ofWords_metadata {l : Layout} (hl : l.wf f = true) (c : Cap f) : Cap.ofWords l c.tag (c.metadata l) c.address = c := by
  have hbit : ∀ (b : Bool) (lo : Nat), ((lo, 1), (BitVec.ofBool b).toNat) ∈ c.placed l → (c.metadata l).getLsbD lo = b := by
    intro b lo hb
    have h := congrArg (BitVec.getLsbD · 0) (extractLsb'_metadata hl c (BitVec.ofBool b) hb)
    simpa using h
  obtain ⟨ht, hb⟩ := joinFields_stored c
  unfold Cap.ofWords
  rw [extractLsb'_metadata hl c c.sdp (by simp [Cap.placed]), extractLsb'_metadata hl c c.ap (by simp [Cap.placed]),
    extractLsb'_metadata hl c c.m (by simp [Cap.placed]), hbit c.ct l.ct (by simp [Cap.placed]),
    hbit c.ef l.ef (by simp [Cap.placed]), extractLsb'_metadata hl c c.l8 (by simp [Cap.placed]),
    extractLsb'_metadata hl c c.tHigh (by simp [Cap.placed]), extractLsb'_metadata hl c c.te (by simp [Cap.placed]),
    extractLsb'_metadata hl c c.bHigh (by simp [Cap.placed]), extractLsb'_metadata hl c c.be (by simp [Cap.placed]),
    gather_metadata hl c, ht, hb, BitVec.ofNat_toNat, BitVec.setWidth_eq]

/-- The image of a capability is a number of CLEN bits. -/
theorem capToBits_lt (l : Layout) (c : Cap f) : capToBits l c < 2 ^ (2 * f.mxlen.bits) := by
  rw [two_mul, pow_add, capToBits]
  exact Nat.lt_of_lt_of_le (Nat.add_lt_add_left c.address.isLt _)
    (Nat.succ_mul .. ▸ Nat.mul_le_mul_right _ (c.metadata l).isLt)

/-- The bits of a capability, its tag beside them, give it back (R53). -/
theorem bitsToCap_capToBits {l : Layout} (hl : l.wf f = true) (c : Cap f) : bitsToCap l c.tag (capToBits l c) = c := by
  have hdiv : capToBits l c / 2 ^ f.mxlen.bits = (c.metadata l).toNat := by
    rw [capToBits, Nat.add_comm, Nat.add_mul_div_right _ _ (Nat.two_pow_pos _), Nat.div_eq_of_lt c.address.isLt, Nat.zero_add]
  have hmod : BitVec.ofNat f.mxlen.bits (capToBits l c) = c.address := by
    apply BitVec.eq_of_toNat_eq
    rw [BitVec.toNat_ofNat, capToBits, Nat.mul_add_mod_self_right, Nat.mod_eq_of_lt c.address.isLt]
  rw [bitsToCap, hdiv, hmod, BitVec.ofNat_toNat, BitVec.setWidth_eq]
  exact ofWords_metadata hl c

theorem Params.wf_layout {p : Params} (hp : p.wf = true) : p.layout.wf p.format = true := by
  simp only [Params.wf, Bool.and_eq_true] at hp
  exact hp.2

end

end Sys2Proof
end

section

/-! Addresses that keep the bounds (41_bounds.md R91 to R97, 42_address_and_sealing.md R110, R114): the decoded base is the only
number of its residue whose window holds the address, so every address between base and top decodes to the same bounds. -/

namespace Sys2Proof

/-- The window of `s` bytes that holds an address modulo `X` tells the base: two bases of one residue modulo `s` whose windows
hold the same address are equal. -/
theorem Arith.window_base_unique {s X b₁ b₂ d₁ d₂ : Nat} {t k₁ k₂ : Int} (hs : s ∣ X) (hb₁ : b₁ < X) (hb₂ : b₂ < X)
    (hmod : b₁ % s = b₂ % s) (hd₁ : d₁ < s) (hd₂ : d₂ < s) (h₁ : (b₁ : Int) + d₁ = t + k₁ * X)
    (h₂ : (b₂ : Int) + d₂ = t + k₂ * X) : b₁ = b₂ := by
  have hsX : (s : Int) ∣ X := Int.natCast_dvd_natCast.2 hs
  have hbs : (s : Int) ∣ b₂ - b₁ := (Nat.modEq_iff_dvd).1 hmod
  have hd : d₁ = d₂ := by
    have hds : (s : Int) ∣ d₂ - d₁ := by
      rw [show (d₂ : Int) - d₁ = (k₂ - k₁) * X - (b₂ - b₁) by linarith]
      exact Int.dvd_sub (Dvd.dvd.mul_left hsX _) hbs
    exact Nat.ModEq.eq_of_lt_of_lt (Nat.modEq_iff_dvd.2 hds) hd₁ hd₂
  have hbX : (X : Int) ∣ b₂ - b₁ := ⟨k₂ - k₁, by subst hd; linarith⟩
  exact Nat.ModEq.eq_of_lt_of_lt (Nat.modEq_iff_dvd.2 hbX) hb₁ hb₂

theorem Bounds.eq_of_toNat_eq {x : Mxlen} {p q : Bounds x} (hb : p.base.toNat = q.base.toNat)
    (ht : p.top.toNat = q.top.toNat) : p = q := by
  cases p; cases q
  rw [Bounds.mk.injEq]
  exact ⟨BitVec.eq_of_toNat_eq hb, BitVec.eq_of_toNat_eq ht⟩

section
variable {f : Format} (c : Cap f)

/-- An address that is, modulo 2^MXLEN, a number in the window of s = 2^(E+MW) bytes from s/4 below the base decodes to the same
bounds; where E + MW > MXLEN every address does. -/
theorem bounds_withAddress_of_window (hm : c.malformed = false) {a : XWord f} {z k : Int}
    (hz : (a.toNat : Int) = z + k * (2 ^ f.mxlen.bits : Nat))
    (hwin : c.exponent.toNat + f.mxlen.mw ≤ f.mxlen.bits →
      (c.bounds.base.toNat : Int) ≤ z + (2 ^ (c.exponent.toNat + f.mxlen.mw - 2) : Nat) ∧
      z + (2 ^ (c.exponent.toNat + f.mxlen.mw - 2) : Nat) < c.bounds.base.toNat + (2 ^ (c.exponent.toNat + f.mxlen.mw) : Nat)) :
    Cap.bounds { c with address := a } = c.bounds := by
  obtain ⟨c', hc'⟩ : ∃ c', c' = { c with address := a } := ⟨_, rfl⟩
  obtain ⟨hm', he', hB', -, hL'⟩ := hc' ▸ withAddress_fields c a
  have ha' : c'.address = a := hc' ▸ rfl
  rw [← hc']
  suffices hb : c'.bounds.base.toNat = c.bounds.base.toNat ∧
      c.bounds.top.toNat = c.bounds.base.toNat + c.length * 2 ^ c.exponent.toNat ∧
      c'.bounds.top.toNat = c'.bounds.base.toNat + c'.length * 2 ^ c'.exponent.toNat by
    obtain ⟨hbase, htop, htop'⟩ := hb
    exact Bounds.eq_of_toNat_eq hbase (by rw [htop', htop, hbase, hL', he'])
  by_cases he : c.exponent.toNat + f.mxlen.mw ≤ f.mxlen.bits
  · obtain ⟨hbase, htop⟩ := bounds_small c hm he
    obtain ⟨hbase', htop'⟩ := bounds_small c' (hm'.trans hm) (he' ▸ he)
    rw [he', hB', ha'] at hbase'
    obtain ⟨hlt, hmod, -⟩ := rawBase_spec f.mxlen _ _ c.address.toNat he (decB_lt c)
    obtain ⟨hlt', hmod', k', d', hd', hsum'⟩ := rawBase_spec f.mxlen _ _ a.toNat he (decB_lt c)
    rw [← hbase] at hlt hmod
    rw [← hbase'] at hlt' hmod' hsum'
    obtain ⟨hlow, hhigh⟩ := hwin he
    obtain ⟨d, hd⟩ := Int.eq_ofNat_of_zero_le (sub_nonneg.2 hlow)
    refine ⟨?_, htop, htop'⟩
    refine Arith.window_base_unique (t := z + (2 ^ (c.exponent.toNat + f.mxlen.mw - 2) : Nat)) (k₁ := k + k') (k₂ := 0)
      (pow_dvd_pow 2 he) hlt' hlt (hmod'.trans hmod.symm) hd' (d₂ := d) (by omega) ?_ (by omega)
    push_cast at hz hsum' ⊢
    linarith
  · obtain ⟨hbase, htop⟩ := bounds_large c hm he
    obtain ⟨hbase', htop'⟩ := bounds_large c' (hm'.trans hm) (he' ▸ he)
    rw [he', hB', ← hbase] at hbase'
    exact ⟨hbase', htop, htop'⟩

/-- The top is less than s/2 above the base (R99). -/
theorem top_lt_of_small (hm : c.malformed = false) (he : c.exponent.toNat + f.mxlen.mw ≤ f.mxlen.bits) :
    c.bounds.top.toNat < c.bounds.base.toNat + 2 * 2 ^ (c.exponent.toNat + f.mxlen.mw - 2) := by
  have hmw : 2 ≤ f.mxlen.mw := by cases f.mxlen <;> decide
  rw [(bounds_small c hm he).2]
  calc c.bounds.base.toNat + c.length * 2 ^ c.exponent.toNat
      < c.bounds.base.toNat + 2 ^ (f.mxlen.mw - 1) * 2 ^ c.exponent.toNat :=
        Nat.add_lt_add_left (Nat.mul_lt_mul_of_pos_right (length_lt c) (Nat.two_pow_pos _)) _
    _ = c.bounds.base.toNat + 2 * 2 ^ (c.exponent.toNat + f.mxlen.mw - 2) := by
        rw [← pow_add, ← pow_succ']; congr 2; omega

/-- The address of a number from the base to the top, the top included, is representable (R114). -/
theorem representable_ofNat_of_between (hm : c.malformed = false) {x : Nat} (hlow : c.bounds.base.toNat ≤ x)
    (hhigh : x ≤ c.bounds.top.toNat) : c.representable (BitVec.ofNat f.mxlen.bits x) = true := by
  refine decide_eq_true (bounds_withAddress_of_window c hm (z := x) (k := -(x / 2 ^ f.mxlen.bits : Nat)) ?_ ?_).symm
  · have h := Nat.div_add_mod' x (2 ^ f.mxlen.bits)
    rw [BitVec.toNat_ofNat]
    zify at h ⊢
    linarith
  · intro he
    have htop := top_lt_of_small c hm he
    have hs : (2 : Nat) ^ (c.exponent.toNat + f.mxlen.mw) = 4 * 2 ^ (c.exponent.toNat + f.mxlen.mw - 2) := by
      rw [show (4 : Nat) = 2 ^ 2 from rfl, ← pow_add]
      congr 1
      have hmw : 2 ≤ f.mxlen.mw := by cases f.mxlen <;> decide
      omega
    omega

/-- The address just past an access in bounds is representable. -/
theorem representable_add_of_inBounds {n : Nat} (hn : 0 < n) (hin : c.inBounds c.address.toNat n = true) :
    c.representable (c.address + BitVec.ofNat f.mxlen.bits n) = true := by
  have hm : c.malformed = false := by
    cases hm : c.malformed
    · rfl
    · exact absurd hin (by rw [Machine.inBounds_malformed c hm _ _ hn]; decide)
  simp only [Cap.inBounds, Bool.and_eq_true, decide_eq_true_eq] at hin
  obtain ⟨hlow, hhigh⟩ := hin
  have h := representable_ofNat_of_between c hm (x := c.address.toNat + n) (by omega) hhigh
  rwa [BitVec.ofNat_add, BitVec.ofNat_toNat, BitVec.setWidth_eq] at h

end

end Sys2Proof
end

section

/-! What a capability made from another keeps of it (10_state.md R12, R17): one lemma per operation that makes one. -/

namespace Sys2Proof

/-! ## Reduced permissions -/

theorem usefulSet_acpermReduce (x : Mxlen) (s : Perms) : usefulSet x (acpermReduce x s) = true := by
  unfold acpermReduce
  split
  · rename_i h
    exact ((Bool.and_eq_true _ _).mp h).2
  · exact usefulSet_none x

theorem acpermReduce_subset (x : Mxlen) (s : Perms) : (acpermReduce x s).subset s = true := by
  unfold acpermReduce
  split
  · rename_i h
    exact ((Bool.and_eq_true _ _).mp h).1
  · exact Perms.none_subset s

section
variable {f : Format}

theorem withPerms_ap_toNat (c : Cap f) (s : Perms) :
    (c.withPerms s).ap.toNat = apEncode f.mxlen s (s.x && c.mbit) :=
  Nat.mod_eq_of_lt (apEncode_lt _ _ _)

/-- An MXLEN=32 encoding has the M-bit of quadrant 1 only where it was asked for (R68). -/
theorem mbit_apEncode32 (s : Perms) (m : Bool)
    (h : (decide (apEncode32 s m / 8 = 1) && (apEncode32 s m).testBit 0) = true) : m = true := by
  obtain ⟨r, w, c, x, asr, lm⟩ := s
  revert r w c x asr lm m
  decide

/-- An M field made of a bit holds 1 only where the bit is set. -/
theorem mField_eq_one (m : Bool) (h : (BitVec.ofNat 1 m.toNat).toNat = 1) : m = true := by
  revert m
  decide

/-- The M-bit survives a reduction only beside X and where it was set (R67, R75). -/
theorem mbit_of_withPerms_mbit {c : Cap f} {s : Perms} (h : (c.withPerms s).mbit = true) : s.x = true ∧ c.mbit = true := by
  rw [← Bool.and_eq_true]
  have hap := withPerms_ap_toNat c s
  rcases f with ⟨x, n⟩
  cases x with
  | rv32 =>
    simp only [Cap.mbit, hap, apEncode] at h ⊢
    exact mbit_apEncode32 s _ h
  | rv64 =>
    exact mField_eq_one _ (of_decide_eq_true h)

theorem withPerms_apLegal (c : Cap f) (s : Perms) : (c.withPerms s).apLegal = true := by
  have hap := withPerms_ap_toNat c s
  rcases f with ⟨x, n⟩
  cases x with
  | rv32 =>
    simp only [Cap.apLegal, hap, apEncode]
    exact apTable32_apEncode32 s _
  | rv64 =>
    simp only [Cap.apLegal, hap, apEncode]
    exact decide_eq_true (apEncode64_lt s)

/-! ## R17 and the order of authority in their parts -/

@[simp] theorem representable_self (c : Cap f) : c.representable c.address = true := decide_eq_true rfl

theorem Cap.valid_iff (hybrid : Bool) (c : Cap f) :
    c.valid hybrid = true ↔
      c.malformed = false ∧ c.reserved = 0 ∧ c.apLegal = true ∧ (c.mbit = true → hybrid = true ∧ c.perms.x = true) := by
  simp [Cap.valid, Cap.encodingLegal, Cap.mLegal, and_assoc, imp_iff_not_or]

theorem Cap.within_of {c d : Cap f} (hb : c.bounds = d.bounds) (hp : c.perms.subset d.perms = true)
    (hs : c.sdp &&& ~~~ d.sdp = 0) : c.within d = true := by
  simp [Cap.within, hb, hp, hs]

/-- The tagged capability `c` is made from the tagged capability `d`, with no more authority and obeying R17 where `d` does. -/
structure Cap.DerivedFrom (hybrid : Bool) (c d : Cap f) : Prop where
  source : d.tag = true
  within : c.within d = true
  valid : d.valid hybrid = true → c.valid hybrid = true

section
variable {hybrid : Bool} {d : Cap f}

theorem Cap.DerivedFrom.refl (ht : d.tag = true) : d.DerivedFrom hybrid d where
  source := ht
  within := Cap.within_of rfl (Perms.subset_refl _) (BitVec.and_not_self _)
  valid := id

/-- A change of address, tag or seal that keeps the bounds. -/
theorem Cap.DerivedFrom.of_bounds {a : XWord f} {t ct : Bool} (ht : d.tag = true)
    (hb : Cap.bounds { d with address := a } = d.bounds) :
    Cap.DerivedFrom hybrid { d with tag := t, ct := ct, address := a } d where
  source := ht
  within := Cap.within_of hb (Perms.subset_refl _) (BitVec.and_not_self _)
  valid hv := (Cap.valid_iff _ _).2 ((Cap.valid_iff hybrid d).1 hv)

/-- A reduction of the permissions to a useful set among them, and of SDP. -/
theorem Cap.DerivedFrom.withPerms {s : Perms} {m : BitVec f.sdplen} {t : Bool} (ht : d.tag = true)
    (hu : usefulSet f.mxlen s = true) (hs : s.subset d.perms = true) :
    Cap.DerivedFrom hybrid { d.withPerms s with sdp := d.sdp &&& m, tag := t } d where
  source := ht
  within := Cap.within_of rfl ((congrArg (Perms.subset · d.perms) (withPerms_perms d s hu)).trans hs)
    (show d.sdp &&& m &&& ~~~ d.sdp = 0 by
      rw [BitVec.and_comm d.sdp m, BitVec.and_assoc, BitVec.and_not_self]
      exact BitVec.and_zero)
  valid hv := by
    obtain ⟨hmal, hres, -, hm⟩ := (Cap.valid_iff hybrid d).1 hv
    refine (Cap.valid_iff _ _).2 ⟨hmal, hres, withPerms_apLegal d s, fun hb => ?_⟩
    obtain ⟨hx, hb'⟩ := mbit_of_withPerms_mbit (c := d) (s := s) hb
    exact ⟨(hm hb').1, (congrArg Perms.x (withPerms_perms d s hu)).trans hx⟩

/-! ## One lemma per operation -/

theorem andPerms_derived {mask : XWord f} (ht : (d.andPerms mask).tag = true) :
    (d.andPerms mask).DerivedFrom hybrid d :=
  Cap.DerivedFrom.withPerms ((Bool.and_eq_true _ _).mp ht).1 (usefulSet_acpermReduce _ _)
    (Perms.subset_trans (acpermReduce_subset _ _) (Perms.inter_subset_left _ _))

theorem setAddr_derived {a : XWord f} (ht : (d.setAddr a).tag = true) : (d.setAddr a).DerivedFrom hybrid d := by
  have hb := Machine.setAddr_bounds d a ht
  rw [Machine.setAddr_tag, Bool.and_assoc, Bool.and_assoc, Bool.and_eq_true] at ht
  exact Cap.DerivedFrom.of_bounds ht.1 hb

theorem sealLink_derived {a : XWord f} (ht : (d.sealLink a).tag = true) : (d.sealLink a).DerivedFrom hybrid d := by
  obtain ⟨htag, hrep⟩ := (Bool.and_eq_true _ _).mp ht
  exact Cap.DerivedFrom.of_bounds htag (of_decide_eq_true hrep).symm

theorem build_derived {src : Cap f} (ht : (Cap.build hybrid d src).tag = true) :
    (Cap.build hybrid d src).DerivedFrom hybrid d := by
  have hn : cbldNecessary hybrid d src = true := ((Bool.and_eq_true _ _).mp ht).1
  simp only [cbldNecessary, Bool.and_eq_true, Bool.not_eq_true', decide_eq_true_eq] at hn
  obtain ⟨⟨⟨⟨⟨⟨⟨htag, -⟩, hmal⟩, hleg⟩, hbase⟩, htop⟩, hperms⟩, hsdp⟩ := hn
  exact
    { source := htag
      within := by
        simp only [Cap.within, Bool.and_eq_true, decide_eq_true_eq]
        exact ⟨⟨⟨hbase, htop⟩, hperms⟩, hsdp⟩
      valid := fun _ => by
        simp only [Cap.valid, representable_self, Bool.and_true, Bool.and_eq_true, Bool.not_eq_true']
        exact ⟨hmal, hleg⟩ }

/-- The load-mutable rule leaves the capability or takes permissions from it (R77, R80). -/
theorem loadFilter_cases (retain : Bool) (auth v : Cap f) :
    loadFilter retain auth v = v ∨
      ∃ s, usefulSet f.mxlen s = true ∧ s.subset v.perms = true ∧ loadFilter retain auth v = v.withPerms s := by
  unfold loadFilter
  split
  · split
    · split
      · exact .inl rfl
      · exact .inr ⟨_, usefulSet_none _, Perms.none_subset _, rfl⟩
    · exact .inr ⟨_, usefulSet_acpermReduce _ _,
        Perms.subset_trans (acpermReduce_subset _ _) (Perms.without_subset _ _), rfl⟩
  · exact .inl rfl

@[simp] theorem loadFilter_tag (retain : Bool) (auth v : Cap f) : (loadFilter retain auth v).tag = v.tag := by
  rcases loadFilter_cases retain auth v with h | ⟨s, -, -, h⟩ <;> rw [h]
  rfl

theorem loadFilter_derived {retain : Bool} {auth : Cap f} (ht : d.tag = true) :
    (loadFilter retain auth d).DerivedFrom hybrid d := by
  rcases loadFilter_cases retain auth d with h | ⟨s, hu, hs, h⟩
  · rw [h]
    exact Cap.DerivedFrom.refl ht
  · rw [h]
    have hw := Cap.DerivedFrom.withPerms (hybrid := hybrid) (m := BitVec.allOnes _) (t := d.tag) ht hu hs
    rwa [BitVec.and_allOnes] at hw

end

end

namespace Machine

variable {f : Format}

theorem jumpTarget_derived {hybrid : Bool} {target new : Cap f} {imm : Imm12} (hj : jumpTarget target imm = some new)
    (ht : new.tag = true) : new.DerivedFrom hybrid target := by
  unfold jumpTarget at hj
  split at hj
  · split at hj
    · simp at hj
    · obtain rfl := Option.some.inj hj
      exact Cap.DerivedFrom.of_bounds (a := target.address) ht rfl
  · obtain rfl := Option.some.inj hj
    exact setAddr_derived ht

/-- A capability moved without C has no tag, so one that has its tag is the one that was moved (R39). -/
theorem tagWithC_of_tag {auth v : Cap f} (ht : (tagWithC auth v).tag = true) : tagWithC auth v = v := by
  unfold tagWithC at ht ⊢
  split
  · rfl
  · rename_i hc
    rw [if_neg hc] at ht
    exact absurd ht Bool.false_ne_true

theorem tagWithC_untagged {f : Format} (auth : Cap f) {v : Cap f} (hv : v.tag = false) : (tagWithC auth v).tag = false := by
  unfold tagWithC
  split
  · exact hv
  · rfl

end Machine

end Sys2Proof
end

section

/-! Where the capabilities of a hart come from (10_state.md R11, R12, R29): after an instruction every tagged capability in pcc,
in a register, in a TID register or in memory is derived from one that was held before. -/

namespace Sys2Proof.Machine

variable {p : Params}

/-! ## Completed instructions -/

theorem liftHart_eq_next {o : Host.Outcome (Hart p) Fault Refusal} {h' : Hart p}
    (ho : liftHart o = .next { params := p, hart := h' }) : o = .next h' := by
  obtain ⟨h'', hn, he⟩ := liftHart_next_iff.1 ho
  obtain rfl : h' = h'' := by simpa using he
  exact hn

theorem exec_completes {i : Instr} {h h' : Hart p}
    (hx : exec i { params := p, hart := h } = .next { params := p, hart := h' }) : Completes h h' := by
  obtain ⟨h'', he, hc⟩ := exec_next hx
  obtain rfl : h' = h'' := by simpa using he
  exact hc

/-! ## What a hart holds -/

theorem Hart.Holds.pcc {h : Hart p} (ht : h.pcc.tag = true) : h.Holds h.pcc := ⟨ht, .inl rfl⟩

theorem Hart.Holds.reg {h : Hart p} {r : Reg} (ht : (h.readC r).tag = true) : h.Holds (h.readC r) :=
  ⟨ht, .inr (.inl ⟨r, rfl⟩)⟩

theorem Hart.Holds.tid {h : Hart p} {c : Cap p.format} (ht : c.tag = true) (hc : c ∈ tidCaps h.tid) : h.Holds c :=
  ⟨ht, .inr (.inr (.inl hc))⟩

@[simp] theorem readCap_tag {f : Format} (l : Layout) (m : Memory) (a : Nat) :
    (m.readCap l a : Cap f).tag = m.tagAt a := rfl

theorem Hart.Holds.mem {h : Hart p} {a : Nat} (ha : a ∈ h.mem.tags) : h.Holds (h.mem.readCap p.layout a) :=
  ⟨tagAt_iff.2 ha, .inr (.inr (.inr ⟨a, ha, rfl⟩))⟩

/-- The capability is derived from one the hart holds. -/
def Hart.Derives (h : Hart p) (c : Cap p.format) : Prop := ∃ d, h.Holds d ∧ c.DerivedFrom p.hybrid d

theorem Hart.Holds.derives {h : Hart p} {c : Cap p.format} (hc : h.Holds c) : h.Derives c :=
  ⟨c, hc, Cap.DerivedFrom.refl hc.1⟩

theorem Hart.derives_of_pcc {h : Hart p} {c : Cap p.format} (hc : c.DerivedFrom p.hybrid h.pcc) : h.Derives c :=
  ⟨_, .pcc hc.source, hc⟩

theorem Hart.derives_of_reg {h : Hart p} {r : Reg} {c : Cap p.format} (hc : c.DerivedFrom p.hybrid (h.readC r)) :
    h.Derives c :=
  ⟨_, .reg hc.source, hc⟩

/-! ## Registers -/

/-- If what is written is derived where it is tagged, every tagged register is. -/
theorem Hart.derives_readC_writeC {h : Hart p} {cd r : Reg} {v : Cap p.format} (hv : v.tag = true → h.Derives v)
    (ht : ((h.writeC cd v).readC r).tag = true) : h.Derives ((h.writeC cd v).readC r) := by
  rw [Hart.readC_writeC] at ht ⊢
  split at ht
  · rename_i hr
    rw [if_pos hr]
    exact hv ht
  · rename_i hr
    rw [if_neg hr]
    exact (Hart.Holds.reg ht).derives

/-- The value a capability load writes comes from the tagged word that was read (R158). -/
theorem Hart.loadedCap_derives {h : Hart p} {auth : Cap p.format} {a : Nat} (ht : (h.loadedCap auth a).tag = true) :
    h.Derives (h.loadedCap auth a) := by
  have htw : (tagWithC auth (h.mem.readCap p.layout a)).tag = true := by
    rwa [Hart.loadedCap, loadFilter_tag] at ht
  have hw := tagWithC_of_tag htw
  rw [hw, readCap_tag] at htw
  rw [Hart.loadedCap, hw]
  exact ⟨_, .mem (tagAt_iff.1 htw), loadFilter_derived htw⟩

/-- After an instruction every tagged register holds what is derived from a capability held before. -/
theorem Completes.readC_derives {h h' : Hart p} (hc : Completes h h') {r : Reg} (ht : (h'.readC r).tag = true) :
    h.Derives (h'.readC r) := by
  cases hc with
  | integer rd v => exact Hart.derives_readC_writeC (fun hv => absurd hv (by simp)) ht
  | reduce cd cs1 mask => exact Hart.derives_readC_writeC (fun hv => Hart.derives_of_reg (andPerms_derived hv)) ht
  | move cd cs1 a => exact Hart.derives_readC_writeC (fun hv => Hart.derives_of_reg (setAddr_derived hv)) ht
  | build cd cs1 cs2 => exact Hart.derives_readC_writeC (fun hv => Hart.derives_of_reg (build_derived hv)) ht
  | jump cd cs1 imm new target =>
    exact Hart.derives_readC_writeC (fun hv => Hart.derives_of_pcc (sealLink_derived hv)) ht
  | loadCap cd cs1 addr pass => exact Hart.derives_readC_writeC Hart.loadedCap_derives ht
  | storeInt => exact (Hart.Holds.reg (h := h) ht).derives
  | storeCap => exact (Hart.Holds.reg (h := h) ht).derives

/-! ## pcc -/

/-- After an instruction pcc is the old one at pc + 4, or a jump's target. -/
theorem Completes.pcc_cases {h h' : Hart p} (hc : Completes h h') :
    h'.pcc = { h.pcc with address := h.pc + 4 } ∨ (h'.pcc.tag = true → h.Derives h'.pcc) := by
  cases hc with
  | jump cd cs1 imm new target => exact .inr fun ht => Hart.derives_of_reg (jumpTarget_derived target ht)
  | integer => exact .inl (by simp)
  | reduce => exact .inl (by simp)
  | move => exact .inl (by simp)
  | build => exact .inl (by simp)
  | loadCap => exact .inl (by simp)
  | storeInt => exact .inl rfl
  | storeCap => exact .inl rfl

/-! ## Memory -/

/-- The bits of a capability fill the bytes it is stored in. -/
theorem capToBits_lt_bytes {f : Format} (l : Layout) (c : Cap f) : capToBits l c < 256 ^ f.mxlen.capBytes := by
  have h := capToBits_lt l c
  have hsize : (256 : Nat) ^ f.mxlen.capBytes = 2 ^ (2 * f.mxlen.bits) := by cases f.mxlen <;> decide
  rwa [hsize]

theorem readCap_congr {f : Format} (l : Layout) {m m' : Memory} {a : Nat} (ht : m.tagAt a = m'.tagAt a)
    (hb : m.load a f.mxlen.capBytes = m'.load a f.mxlen.capBytes) :
    (m.readCap l a : Cap f) = m'.readCap l a := by
  rw [Memory.readCap, Memory.readCap, ht, hb]

/-- A load depends on the listed bytes only, not on tags or the map. -/
theorem load_of_bytes_eq {m m' : Memory} (h : m.bytes = m'.bytes) (a n : Nat) : m.load a n = m'.load a n :=
  load_congr _ _ _ _ fun x _ _ => congrArg (cellAt · x) h

theorem load_write (m : Memory) (x : Mxlen) (a n v b k : Nat) :
    (m.write x a n v).load b k = (m.storeBytes a n v).load b k :=
  load_of_bytes_eq (clearTags_bytes ..) b k

theorem load_writeCap {f : Format} (l : Layout) (m : Memory) (a : Nat) (c : Cap f) (b k : Nat) :
    (m.writeCap l a c).load b k = (m.storeBytes a f.mxlen.capBytes (capToBits l c)).load b k :=
  load_of_bytes_eq (setTag_bytes ..) b k

/-- A word still tagged after an integer store was tagged before, and reads as before (R33). -/
theorem readCap_write {f : Format} (l : Layout) {m : Memory} (hm : m.wf f.mxlen = true) {a n v w : Nat} (hn : 0 < n)
    (hw : w ∈ (m.write f.mxlen a n v).tags) :
    w ∈ m.tags ∧ ((m.write f.mxlen a n v).readCap l w : Cap f) = m.readCap l w := by
  obtain ⟨hmem, htouch⟩ := mem_clearTags.1 hw
  rw [storeBytes_tags] at hmem
  refine ⟨hmem, readCap_congr l ((tagAt_iff.2 hw).trans (tagAt_iff.2 hmem).symm) ?_⟩
  rw [load_write]
  refine load_storeBytes_disjoint m ((wf_iff _ m).1 hm).1 a n v w _ ?_
  simp only [wordTouched, hn, decide_true, Bool.true_and, Bool.and_eq_false_iff, decide_eq_false_iff_not] at htouch
  omega

theorem tagAt_writeCap_same {f : Format} (l : Layout) (m : Memory) (a : Nat) (c : Cap f) :
    (m.writeCap l a c).tagAt a = c.tag := by
  rw [Bool.eq_iff_iff, tagAt_iff, Memory.writeCap, mem_setTag, if_pos rfl]

/-- A capability stored under a layout the spec admits reads back as it was (R34, R36, R53). -/
theorem readCap_writeCap_same {f : Format} {l : Layout} (hl : l.wf f = true) {m : Memory} (hm : m.wf f.mxlen = true)
    (a : Nat) (c : Cap f) : ((m.writeCap l a c).readCap l a : Cap f) = c := by
  have hload : (m.writeCap l a c).load a f.mxlen.capBytes = capToBits l c := by
    rw [load_writeCap, load_storeBytes_same m ((wf_iff _ m).1 hm).1, Nat.mod_eq_of_lt (capToBits_lt_bytes l c)]
  rw [Memory.readCap, tagAt_writeCap_same, hload, bitsToCap_capToBits hl]

/-- Another tagged word reads as before a capability store to an aligned address (R34). -/
theorem readCap_writeCap_ne {f : Format} (l : Layout) {m : Memory} (hm : m.wf f.mxlen = true) {a w : Nat} (c : Cap f)
    (ha : a % f.mxlen.capBytes = 0) (hne : w ≠ a) (hw : w ∈ (m.writeCap l a c).tags) :
    w ∈ m.tags ∧ ((m.writeCap l a c).readCap l w : Cap f) = m.readCap l w := by
  obtain ⟨hrise, -, -, htags, -⟩ := (wf_iff _ m).1 hm
  have hmem : w ∈ m.tags := by rwa [Memory.writeCap, mem_setTag, if_neg hne, storeBytes_tags] at hw
  refine ⟨hmem, readCap_congr l ((tagAt_iff.2 hw).trans (tagAt_iff.2 hmem).symm) ?_⟩
  rw [load_writeCap]
  refine load_storeBytes_disjoint m hrise a _ _ w _ ?_
  obtain ⟨i, rfl⟩ := Nat.dvd_of_mod_eq_zero ha
  obtain ⟨j, rfl⟩ := Nat.dvd_of_mod_eq_zero (htags w hmem).1
  rcases Nat.lt_or_gt_of_ne (fun hij : j = i => hne (hij ▸ rfl)) with hlt | hlt
  · exact .inl (Nat.mul_le_mul_left _ hlt)
  · exact .inr (Nat.mul_le_mul_left _ hlt)

/-- What an instruction does to memory: nothing, or a store that passed its check. -/
theorem Completes.mem_cases {h h' : Hart p} (hc : Completes h h') :
    h'.mem = h.mem ∨
    (∃ cs1 addr n v, 0 < n ∧ h.check .intStore (h.readC cs1) addr n = .pass ∧
      h'.mem = h.mem.write p.format.mxlen addr n v) ∨
    (∃ cs2 cs1 addr, h.check .capStore (h.readC cs1) addr p.format.mxlen.capBytes = .pass ∧
      h'.mem = h.mem.writeCap p.layout addr (tagWithC (h.readC cs1) (h.readC cs2))) := by
  cases hc with
  | integer => exact .inl (by simp)
  | reduce => exact .inl (by simp)
  | move => exact .inl (by simp)
  | build => exact .inl (by simp)
  | jump => exact .inl (by simp)
  | loadCap => exact .inl (by simp)
  | storeInt cs1 addr n v size pass => exact .inr (.inl ⟨cs1, addr, n, v, size.1, pass, rfl⟩)
  | storeCap cs2 cs1 addr pass => exact .inr (.inr ⟨cs2, cs1, addr, pass, rfl⟩)

/-- After an instruction every tagged word holds a capability that was held before: no store makes a new one. -/
theorem Completes.mem_holds {h h' : Hart p} (hc : Completes h h') (hp : p.wf = true) (hm : h.mem.wf p.format.mxlen = true)
    {a : Nat} (ha : a ∈ h'.mem.tags) : h.Holds (h'.mem.readCap p.layout a) := by
  rcases hc.mem_cases with he | ⟨cs1, addr, n, v, hn, -, he⟩ | ⟨cs2, cs1, addr, pass, he⟩
  · rw [he] at ha ⊢
    exact .mem ha
  · rw [he] at ha ⊢
    obtain ⟨hmem, hread⟩ := readCap_write p.layout hm hn ha
    exact hread ▸ .mem hmem
  · rw [he] at ha ⊢
    obtain ⟨-, -, -, -, -, halign, -⟩ := (Hart.check_pass_iff ..).1 pass
    by_cases hne : a = addr
    · subst hne
      have hread := readCap_writeCap_same (Params.wf_layout hp) hm a (tagWithC (h.readC cs1) (h.readC cs2))
      have ht : (tagWithC (h.readC cs1) (h.readC cs2)).tag = true := by
        rw [← hread, readCap_tag]
        exact tagAt_iff.2 ha
      have hmoved := tagWithC_of_tag ht
      rw [hmoved] at ht
      rw [hread, hmoved]
      exact .reg ht
    · obtain ⟨hmem, hread⟩ := readCap_writeCap_ne p.layout hm _ halign hne ha
      exact hread ▸ .mem hmem

/-- After an instruction the memory has the canonical form if it had it before. -/
theorem Completes.keeps_mem_wf {h h' : Hart p} (hc : Completes h h') (hm : h.mem.wf p.format.mxlen = true) :
    h'.mem.wf p.format.mxlen = true := by
  rcases hc.mem_cases with he | ⟨cs1, addr, n, v, -, pass, he⟩ | ⟨cs2, cs1, addr, pass, he⟩
  · rwa [he]
  · obtain ⟨-, -, -, -, -, -, hpresent⟩ := (Hart.check_pass_iff ..).1 pass
    exact he ▸ write_wf _ _ _ _ _ hm hpresent
  · obtain ⟨-, -, -, -, -, halign, hpresent⟩ := (Hart.check_pass_iff ..).1 pass
    exact he ▸ writeCap_wf _ _ _ _ hm halign hpresent

/-! ## The whole hart -/

/-- After an instruction a held capability is pcc moved on by 4 or derived from one that was held before. -/
theorem Completes.holds_cases {h h' : Hart p} (hc : Completes h h') (hp : p.wf = true)
    (hm : h.mem.wf p.format.mxlen = true) {c : Cap p.format} (hh : h'.Holds c) :
    c = { h.pcc with address := h.pc + 4 } ∨ h.Derives c := by
  obtain ⟨ht, rfl | ⟨r, rfl⟩ | htid | ⟨a, ha, rfl⟩⟩ := hh
  · exact hc.pcc_cases.imp_right fun hpcc => hpcc ht
  · exact .inr (hc.readC_derives ht)
  · rw [hc.keeps_map_tid_xlen.2.1] at htid
    exact .inr (Hart.Holds.tid ht htid).derives
  · exact .inr (hc.mem_holds hp hm ha).derives

/-- Settles O58: a capability held after a step is pcc at another address, which R17 does not look at, or derived from one held
before; the stores keep the canonical form. -/
theorem stepKeepsCapabilityInvariants : Obligations.StepKeepsCapabilityInvariants := by
  rintro ⟨p, h⟩ t ⟨hp, hm, hcaps⟩ hs
  obtain ⟨h', rfl, hc⟩ := step_next_completes hs
  refine ⟨hp, hc.keeps_mem_wf hm, fun c hh => ?_⟩
  rcases hc.holds_cases hp hm hh with rfl | ⟨d, hd, hder⟩
  · exact (Cap.valid_iff _ _).2 ((Cap.valid_iff p.hybrid h.pcc).1 (hcaps _ (.pcc hh.1)))
  · exact hder.valid (hcaps d hd)

/-- pcc moved on by 4 after a fetch is derived from pcc: the fetch was in its bounds (R114, R127). -/
theorem Hart.nextPcc_derived {h : Hart p} {i : Instr} (hf : h.fetch = .instr i) :
    Cap.DerivedFrom p.hybrid { h.pcc with address := h.pc + 4 } h.pcc := by
  obtain ⟨hk, -⟩ := (h.fetch_instr_iff i).1 hf
  obtain ⟨htag, -, -, hin, -⟩ := (h.check_pass_iff ..).1 hk
  exact Cap.DerivedFrom.of_bounds htag (of_decide_eq_true (representable_add_of_inBounds h.pcc (n := 4) (by decide) hin)).symm

/-- Settles O59: every capability held after a step is derived from one held before, pcc moved on by 4 included. -/
theorem stepNeverWidensAuthority : Obligations.StepNeverWidensAuthority := by
  intro p h h' hp hm hs c' hh
  obtain ⟨-, -, i, hf, hx⟩ := (step_next_iff _ _).1 hs
  rcases (exec_completes hx).holds_cases hp hm hh with rfl | ⟨d, hd, hder⟩
  · exact ⟨h.pcc, .pcc hh.1, (Hart.nextPcc_derived hf).within⟩
  · exact ⟨d, hd, hder.within⟩

/-! ## No tag from nothing -/

/-- A hart that holds a capability after an instruction held one before, whatever its parameters and memory. -/
theorem Completes.exists_holds {h h' : Hart p} (hc : Completes h h') {c : Cap p.format} (hh : h'.Holds c) :
    ∃ d, h.Holds d := by
  obtain ⟨ht, rfl | ⟨r, rfl⟩ | htid | ⟨a, ha, rfl⟩⟩ := hh
  · rcases hc.pcc_cases with he | hder
    · exact ⟨h.pcc, .pcc (by rw [he] at ht; exact ht)⟩
    · obtain ⟨d, hd, -⟩ := hder ht
      exact ⟨d, hd⟩
  · obtain ⟨d, hd, -⟩ := hc.readC_derives ht
    exact ⟨d, hd⟩
  · rw [hc.keeps_map_tid_xlen.2.1] at htid
    exact ⟨c, .tid ht htid⟩
  · rcases hc.mem_cases with he | ⟨cs1, _, _, _, -, pass, -⟩ | ⟨_, cs1, _, pass, -⟩
    · exact ⟨_, .mem (he ▸ ha)⟩
    · exact ⟨_, .reg ((h.check_pass_iff ..).1 pass).1⟩
    · exact ⟨_, .reg ((h.check_pass_iff ..).1 pass).1⟩

/-- Settles O57: a capability held after an instruction has a source among those held before. -/
theorem noTagFromNothing : Obligations.NoTagFromNothing := by
  intro p h h' i hnone hx c hh
  obtain ⟨d, hd⟩ := (exec_completes hx).exists_holds hh
  exact hnone d hd

end Sys2Proof.Machine
end

section

/-! A capability derived from an invalid one is invalid (10_state.md R12). -/

namespace Sys2Proof.Machine

variable {p : Params}

/-- A result that is derived from `d` where it is tagged is untagged where `d` is. -/
theorem untagged_of_derived {f : Format} {hybrid : Bool} {c d : Cap f} (hd : c.tag = true → c.DerivedFrom hybrid d)
    (ht : d.tag = false) : c.tag = false := by
  cases hc : c.tag
  · rfl
  · exact absurd (hd hc).source (by rw [ht]; decide)

/-- The written register reads untagged after an untagged value is written, register 0 included. -/
theorem Hart.readC_writeC_untagged (h : Hart p) (cd : Reg) {v : Cap p.format} (hv : v.tag = false) :
    ((h.writeC cd v).readC cd).tag = false := by
  rw [Hart.readC_writeC]
  split
  · exact hv
  · rename_i hcd
    obtain rfl : cd = 0 := by simpa using hcd
    simp [Cap.null]

/-- ACPERM, CADD, CADDI, SCADDR and CBLD write a capability derived from cs1 where it is tagged. -/
theorem exec_derive_result {h h' : Hart p} {i : Instr} {cd cs1 r2 : Reg} {imm : Imm12}
    (hi : i ∈ [Instr.acperm cd cs1 r2, .cadd cd cs1 r2, .caddi cd cs1 imm, .scaddr cd cs1 r2, .cbld cd cs1 r2])
    (hx : exec i { params := p, hart := h } = .next { params := p, hart := h' }) :
    ∃ v : Cap p.format, h' = (h.writeC cd v).advance ∧ (v.tag = true → v.DerivedFrom p.hybrid (h.readC cs1)) := by
  have hinj : ∀ {v : Cap p.format},
      Host.Outcome.next (φ := Fault) (ρ := Refusal) (State.mk p (h.writeC cd v).advance) = .next (State.mk p h') →
      h' = (h.writeC cd v).advance := fun e => by simpa [eq_comm] using e
  simp only [List.mem_cons, List.not_mem_nil, or_false] at hi
  rcases hi with rfl | rfl | rfl | rfl | rfl
  · exact ⟨_, hinj hx, andPerms_derived⟩
  · exact ⟨_, hinj hx, setAddr_derived⟩
  · exact ⟨_, hinj hx, setAddr_derived⟩
  · exact ⟨_, hinj hx, setAddr_derived⟩
  · exact ⟨_, hinj hx, build_derived⟩

/-- JALR that completes wrote the sealed link and moved to the jump's target. -/
theorem exec_jalr_next {h h' : Hart p} {cd cs1 : Reg} {imm : Imm12}
    (hx : exec (.jalr cd cs1 imm) { params := p, hart := h } = .next { params := p, hart := h' }) :
    ∃ new, jumpTarget (h.readC cs1) imm = some new ∧
      h' = { h.writeC cd (h.pcc.sealLink h.nextPc) with pcc := new } := by
  simp only [exec, execJalr] at hx
  cases hj : jumpTarget (h.readC cs1) imm with
  | none => simp [hj] at hx
  | some new =>
    simp only [hj, liftHart_next] at hx
    exact ⟨new, rfl, by simpa [eq_comm] using hx⟩

/-- LC that completes wrote the loaded capability. -/
theorem exec_lc_next {h h' : Hart p} {cd cs1 : Reg} {imm : Imm12}
    (hx : exec (.lc cd cs1 imm) { params := p, hart := h } = .next { params := p, hart := h' }) :
    h' = (h.writeC cd (h.loadedCap (h.readC cs1) (effectiveAddress (h.readC cs1) imm).toNat)).advance :=
  (Check.andNext_next_iff.1 (liftHart_eq_next hx)).2.symm

/-- SC that completes stored the register's capability. -/
theorem exec_sc_next {h h' : Hart p} {cs2 cs1 : Reg} {imm : Imm12}
    (hx : exec (.sc cs2 cs1 imm) { params := p, hart := h } = .next { params := p, hart := h' }) :
    h' = Hart.advance { h with
      mem := h.mem.writeCap p.layout (effectiveAddress (h.readC cs1) imm).toNat (tagWithC (h.readC cs1) (h.readC cs2)) } :=
  (Check.andNext_next_iff.1 (liftHart_eq_next hx)).2.symm

/-- Settles O42: each result is derived from its operand where it is tagged, or carries the tag that was moved. -/
theorem invalidOperandsGiveInvalidResults : Obligations.InvalidOperandsGiveInvalidResults := by
  intro p h h' cd cs1 r2 imm
  refine ⟨fun i hi hx ht => ?_, fun hx => ?_, fun hx ht => ?_, fun hx ht => ?_⟩
  · obtain ⟨v, rfl, hv⟩ := exec_derive_result hi hx
    exact h.readC_writeC_untagged cd (untagged_of_derived hv ht)
  · obtain ⟨new, hj, rfl⟩ := exec_jalr_next hx
    exact ⟨fun ht => h.readC_writeC_untagged cd (untagged_of_derived (hybrid := p.hybrid) sealLink_derived ht),
      fun ht => untagged_of_derived (hybrid := p.hybrid) (jumpTarget_derived hj) ht⟩
  · obtain rfl := exec_lc_next hx
    refine h.readC_writeC_untagged cd ?_
    rw [Hart.loadedCap, loadFilter_tag]
    exact tagWithC_untagged _ ht
  · obtain rfl := exec_sc_next hx
    exact (tagAt_writeCap_same ..).trans (tagWithC_untagged _ ht)

end Sys2Proof.Machine
end

section

/-! The two distinguished capabilities NULL and Infinite (10_state.md R24, R25). -/

namespace Sys2Proof

section
variable {f : Format} {c : Cap f}

/-- With EF, L8 and the stored T and B all 0 the bounds are the whole address space (R24, R98). -/
theorem wholeSpace_of_zero_fields (hef : c.ef = false) (hl8 : c.l8 = 0) (ht : c.tstored = 0) (hb : c.bstored = 0) :
    c.malformed = false ∧ c.exponent = f.mxlen.capMaxE ∧ c.bounds.base = 0 ∧ c.bounds.top.toNat = 2 ^ f.mxlen.bits := by
  have hexp : c.exponent = f.mxlen.capMaxE := by simp [Cap.exponent, Cap.eStored, Cap.te, Cap.be, hef, hl8, ht, hb]
  have hB : c.decB = 0 := by simp [Cap.decB, clearLow, hef, hb]
  have hT : c.tLow = 0 := by simp [Cap.tLow, clearLow, hef, ht]
  have hL : c.length = 2 ^ (f.mxlen.mw - 2) := by
    rw [length_eq, hT, Cap.bLow, hB]
    simp [Cap.lMsb, hef]
  have hcap : 0 < f.mxlen.capMaxE ∧ f.mxlen.bits < f.mxlen.capMaxE + f.mxlen.mw ∧
      f.mxlen.mw - 2 + f.mxlen.capMaxE = f.mxlen.bits := by cases f.mxlen <;> decide
  obtain ⟨hpos, hlarge, hbits⟩ := hcap
  have hm : c.malformed = false := by simp [Cap.malformed, Cap.malformedMsb, Cap.malformedLsb, hexp, hB, hpos.ne']
  have hE : c.exponent.toNat = f.mxlen.capMaxE := by omega
  obtain ⟨hbase, htop⟩ := bounds_large c hm (by omega)
  rw [hB, Nat.zero_mul] at hbase
  rw [hbase, hL, hE, ← pow_add, hbits, Nat.zero_add] at htop
  exact ⟨hm, hexp, BitVec.eq_of_toNat_eq hbase, htop⟩

end

theorem spread_zero (ps : List Nat) : spread ps 0 = 0 := by
  induction ps with
  | nil => rfl
  | cons pos ps ih => simp [spread, ih]

theorem gather_zero (ps : List Nat) : gather ps 0 = 0 := by
  induction ps with
  | nil => rfl
  | cons pos ps ih => simp [gather, ih]

theorem capToBits_null (f : Format) (l : Layout) : capToBits l (Cap.null f) = 0 := by
  simp [capToBits, Cap.metadata, Cap.null, Cap.tHigh, Cap.te, Cap.bHigh, Cap.be, spread_zero]

theorem bitsToCap_zero (f : Format) (l : Layout) : bitsToCap l false 0 = Cap.null f := by
  simp [bitsToCap, Cap.ofWords, Cap.null, joinFields, gather_zero]

theorem apPerms_zero (x : Mxlen) : apPerms x 0 = Perms.none := by cases x <;> decide

/-- Settles O13: the bounds are those of zero fields, and zero bits spread and gather to zero bits. -/
theorem nullIsAllZeroAndCoversEverything : Obligations.NullIsAllZeroAndCoversEverything := by
  intro f l
  obtain ⟨-, hexp, hbase, htop⟩ := wholeSpace_of_zero_fields (c := Cap.null f) rfl rfl rfl rfl
  have hperms : (Cap.null f).perms = Perms.none := by
    rw [Cap.perms, show (Cap.null f).ap.toNat = 0 from Nat.zero_mod _, apPerms_zero]
  exact ⟨rfl, hperms, rfl, hexp, hbase, htop, capToBits_null f l, bitsToCap_zero f l⟩

/-- The AP value of Infinite grants every permission (R63, R65). -/
theorem apPerms_infiniteAp (x : Mxlen) (hybrid : Bool) :
    apPerms x (infiniteAp x hybrid) = { r := true, w := true, c := true, x := true, asr := true, lm := true } := by
  cases x <;> cases hybrid <;> decide

theorem infiniteAp_lt (x : Mxlen) (hybrid : Bool) : infiniteAp x hybrid < 2 ^ x.apWidth := by
  cases x <;> cases hybrid <;> decide

section
variable (f : Format) (hybrid : Bool)

theorem infinite_ap : (Cap.infinite f hybrid).ap.toNat = infiniteAp f.mxlen hybrid :=
  Nat.mod_eq_of_lt (infiniteAp_lt _ _)

/-- The M field, which exists for MXLEN=64, is set exactly with HYBRID (R25). -/
theorem infinite_m (hx : f.mxlen = .rv64) :
    (Cap.infinite f hybrid).m.toNat = hybrid.toNat := by
  rcases f with ⟨x, n⟩
  obtain rfl : x = .rv64 := hx
  cases hybrid <;> rfl

theorem infinite_perms (q : Perm) : (Cap.infinite f hybrid).perms.has q = true := by
  rw [Cap.perms, infinite_ap, apPerms_infiniteAp]
  cases q <;> rfl

theorem infinite_mbit : (Cap.infinite f hybrid).mbit = hybrid := by
  have hap := infinite_ap f hybrid
  rcases f with ⟨x, n⟩
  cases x with
  | rv32 =>
    simp only [Cap.mbit, hap]
    cases hybrid <;> decide
  | rv64 => cases hybrid <;> rfl

theorem infinite_apLegal : (Cap.infinite f hybrid).apLegal = true := by
  rcases f with ⟨x, n⟩
  cases x <;> cases hybrid <;> rfl

end

/-- Settles O14: the bounds are those of zero fields; AP, the M-bit and what they grant by MXLEN and HYBRID. -/
theorem infiniteGrantsEverything : Obligations.InfiniteGrantsEverything := by
  intro f hybrid
  obtain ⟨hm, -, hbase, htop⟩ := wholeSpace_of_zero_fields (c := Cap.infinite f hybrid) rfl rfl rfl rfl
  have hvalid : (Cap.infinite f hybrid).valid hybrid = true :=
    (Cap.valid_iff _ _).2 ⟨hm, rfl, infinite_apLegal f hybrid, fun hb =>
      ⟨(infinite_mbit f hybrid).symm.trans hb, infinite_perms f hybrid .x⟩⟩
  refine ⟨rfl, rfl, ?_, ?_, ?_, ⟨rfl, rfl, rfl, rfl, rfl, rfl⟩, infinite_perms f hybrid, infinite_mbit f hybrid, hbase, htop,
    hvalid⟩
  · intro hx
    rw [infinite_ap, hx]
    rfl
  · intro hx
    exact ⟨(infinite_ap f hybrid).trans (by rw [hx]; rfl), infinite_m f hybrid hx⟩
  · intro i hi
    simp [Cap.infinite, hi]

end Sys2Proof
end

section

/-! Integers and capabilities in memory (20_memory.md R33 to R36, R41): what an integer write does to the tags of the words it
touches, and the integer view of a stored capability. -/

namespace Sys2Proof.Machine

/-! ## Tags after an integer write -/

/-- A CLEN-aligned word is touched exactly when it is the word of one of the bytes. -/
theorem wordTouched_iff {size word : Nat} (hsize : 0 < size) (hword : word % size = 0) (a n : Nat) :
    wordTouched size word a n = true ↔ ∃ y, a ≤ y ∧ y < a + n ∧ y - y % size = word := by
  obtain ⟨k, rfl⟩ := Nat.dvd_of_mod_eq_zero hword
  simp only [wordTouched, Bool.and_eq_true, decide_eq_true_eq]
  constructor
  · rintro ⟨⟨hn, hlow⟩, hhigh⟩
    refine ⟨max a (size * k), by omega, by omega, ?_⟩
    obtain ⟨d, hd⟩ := Nat.exists_eq_add_of_le (Nat.le_max_right a (size * k))
    rw [hd, Nat.mul_add_mod, Nat.mod_eq_of_lt (by omega), Nat.add_sub_cancel]
  · rintro ⟨y, hlow, hhigh, hy⟩
    have hmod : y % size < size := Nat.mod_lt _ hsize
    have hle : y % size ≤ y := Nat.mod_le _ _
    exact ⟨⟨by omega, by omega⟩, by omega⟩

/-- The tag of a word after an integer write: the old one unless the write touched the word (R33). -/
theorem tagAt_write (m : Memory) (x : Mxlen) (a n v word : Nat) :
    (m.write x a n v).tagAt word = (m.tagAt word && !wordTouched x.capBytes word a n) := by
  rw [Bool.eq_iff_iff, tagAt_iff, Memory.write, mem_clearTags, storeBytes_tags, ← tagAt_iff, Bool.and_eq_true,
    Bool.not_eq_true']

theorem capBytes_pos (x : Mxlen) : 0 < x.capBytes := by cases x <;> decide

/-- Settles O26: the bytes are those stored, and a tag is lost exactly where a byte of its word was written. -/
theorem integerWriteClearsTags : Obligations.IntegerWriteClearsTags := by
  intro x m a n v hm
  obtain ⟨hrise, -⟩ := (wf_iff x m).1 hm
  refine ⟨fun i hi => ?_, fun y hy => ?_, fun y hlow hhigh => ?_, fun word hword hnot => ?_⟩
  · rw [readByte_write m hrise, if_pos (by omega), Nat.add_sub_cancel_left]
  · rw [readByte_write m hrise, if_neg hy]
  · have haligned : (y - y % x.capBytes) % x.capBytes = 0 := Nat.mod_eq_zero_of_dvd (Nat.dvd_sub_mod y)
    rw [tagAt_write, (wordTouched_iff (capBytes_pos x) haligned a n).2 ⟨y, hlow, hhigh, rfl⟩, Bool.not_true, Bool.and_false]
  · have huntouched : wordTouched x.capBytes word a n = false := by
      rw [← Bool.not_eq_true, wordTouched_iff (capBytes_pos x) hword]
      rintro ⟨y, hlow, hhigh, hy⟩
      exact hnot y hlow hhigh hy
    rw [tagAt_write, huntouched, Bool.not_false, Bool.and_true]

/-! ## The integer view of a stored capability -/

/-- A load of j + k bytes is a load of the first j below a load of the other k (R41). -/
theorem load_add (m : Memory) (a j k : Nat) : m.load a (j + k) = m.load a j + 256 ^ j * m.load (a + j) k := by
  induction j generalizing a with
  | zero => simp [Memory.load]
  | succ j ih =>
    rw [Nat.add_right_comm, Memory.load, ih, Memory.load, Nat.pow_succ', Nat.add_right_comm a 1 j, ← Nat.add_assoc a j 1]
    ring

/-- The bits of a capability in their two halves (R45). -/
theorem capToBits_div_mod {f : Format} (l : Layout) (c : Cap f) :
    capToBits l c / 2 ^ f.mxlen.bits = (c.metadata l).toNat ∧ capToBits l c % 2 ^ f.mxlen.bits = c.address.toNat :=
  (Nat.div_mod_unique (Nat.two_pow_pos _)).2 ⟨by rw [capToBits]; ring, c.address.isLt⟩

theorem load_writeCap_same {f : Format} (l : Layout) {m : Memory} (hm : m.wf f.mxlen = true) (a : Nat) (c : Cap f) :
    (m.writeCap l a c).load a f.mxlen.capBytes = capToBits l c := by
  rw [load_writeCap, load_storeBytes_same m ((wf_iff _ m).1 hm).1, Nat.mod_eq_of_lt (capToBits_lt_bytes l c)]

/-- The two halves of a stored capability's word: the address below the metadata word (R36, R45, D9). -/
theorem load_writeCap_halves {f : Format} (l : Layout) {m : Memory} (hm : m.wf f.mxlen = true) (a : Nat) (c : Cap f) :
    (m.writeCap l a c).load a (f.mxlen.bits / 8) = c.address.toNat ∧
    (m.writeCap l a c).load (a + f.mxlen.bits / 8) (f.mxlen.bits / 8) = (c.metadata l).toNat := by
  have hhalves : f.mxlen.capBytes = f.mxlen.bits / 8 + f.mxlen.bits / 8 := by cases f.mxlen <;> decide
  have hpow : 256 ^ (f.mxlen.bits / 8) = 2 ^ f.mxlen.bits := by cases f.mxlen <;> decide
  have hlow := load_lt (m.writeCap l a c) a (f.mxlen.bits / 8)
  have hsum := load_writeCap_same l hm a c
  rw [hpow] at hlow
  rw [hhalves, load_add, hpow] at hsum
  obtain ⟨hmeta, haddr⟩ := capToBits_div_mod l c
  obtain ⟨hdiv, hmod⟩ := (Nat.div_mod_unique (Nat.two_pow_pos _)).2 ⟨hsum, hlow⟩
  exact ⟨hmod.symm.trans haddr, hdiv.symm.trans hmeta⟩

/-- Settles O25: the word reads back whole, and its bits are the metadata word above the address. -/
theorem storedCapabilityReadsBack : Obligations.StoredCapabilityReadsBack := by
  intro p m a c hp hm
  exact ⟨readCap_writeCap_same (Params.wf_layout hp) hm a c, load_writeCap_halves p.layout hm a c⟩

end Sys2Proof.Machine
end

section

/-! Loads and stores that stop (20_memory.md R37 to R42): each of them makes the checks of one access, and stops as the checks say. -/

namespace Sys2Proof.Machine

variable {p : Params}

/-! ## Stops -/

@[simp] theorem Check.fault_andNext (r : Fault) (h' : Hart p) : Check.andNext (.fault r) h' = .fault r := rfl

@[simp] theorem Check.refuse_andNext (r : Refusal) (h' : Hart p) : Check.andNext (.refuse r) h' = .refused r := rfl

@[simp] theorem liftHart_fault (r : Fault) : liftHart (p := p) (.fault r) = .fault r := rfl

@[simp] theorem liftHart_refused (r : Refusal) : liftHart (p := p) (.refused r) = .refused r := rfl

theorem inBounds_iff {f : Format} {c : Cap f} {addr n : Nat} :
    c.inBounds addr n = true ↔ c.bounds.base.toNat ≤ addr ∧ addr + n ≤ c.bounds.top.toNat := by
  simp [Cap.inBounds]

/-- A misaligned access of a capability raises MisalignedCap (R34). -/
theorem Hart.misaligned_capability (h : Hart p) {access : Access} (hint : access.isInteger = false)
    (hdata : access ≠ .fetch) (addr : Nat) : h.misaligned access addr = .fault (h.raise .misalignedCap access addr) := by
  cases access with
  | fetch => exact absurd rfl hdata
  | intLoad | intStore => exact absurd hint (by decide)
  | capLoad | capStore => rfl

/-! ## What the checks answer once tag, seal and permission are granted -/

section
variable {h : Hart p} {access : Access} {auth : Cap p.format} {addr n : Nat} (htag : auth.tag = true) (hct : auth.ct = false)
  (hperms : ∀ q ∈ access.needs p.withoutC, auth.perms.has q = true)
include htag hct hperms

/-- A misaligned integer access is refused, in bounds or not (R42, log 18). -/
theorem Hart.check_misalignedInteger (hint : access.isInteger = true) (hmod : addr % n ≠ 0) :
    h.check access auth addr n = .refuse (.misalignedInteger addr) := by
  rw [Hart.check_of_granted h addr n htag hct hperms, if_pos ⟨hint, hmod⟩]
  cases access with
  | intLoad | intStore => rfl
  | fetch | capLoad | capStore => exact absurd hint (by decide)

/-- The bounds are looked at before the end of the address space, a capability's alignment and the bytes (R40, R135). -/
theorem Hart.check_boundsViolation (halign : access.isInteger = true → addr % n = 0) (hbounds : auth.inBounds addr n = false) :
    h.check access auth addr n = .fault (h.raise .boundsViolation access addr) := by
  rw [Hart.check_of_granted h addr n htag hct hperms, if_neg fun hmis => hmis.2 (halign hmis.1), hbounds]
  rfl

section
variable (hbounds : auth.inBounds addr n = true)
include hbounds

/-- A capability access that ends past the address space is refused, aligned or not (R38, log 16). -/
theorem Hart.check_pastAddressSpace (hint : access.isInteger = false) (hend : 2 ^ p.format.mxlen.bits < addr + n) :
    h.check access auth addr n = .refuse (.pastAddressSpace addr) := by
  rw [Hart.check_of_granted h addr n htag hct hperms, hint, hbounds, if_neg (by simp), if_neg (by decide), if_pos hend]

/-- A misaligned access of other than integer data inside the address space, by its kind (R34, R128). -/
theorem Hart.check_misaligned (hint : access.isInteger = false) (hend : addr + n ≤ 2 ^ p.format.mxlen.bits)
    (hmod : addr % n ≠ 0) : h.check access auth addr n = h.misaligned access addr := by
  rw [Hart.check_of_granted h addr n htag hct hperms, hint, hbounds, if_neg (by simp), if_neg (by decide),
    if_neg (Nat.not_lt.2 hend), if_pos hmod]

/-- An allowed, aligned access to a byte that does not exist is stuck (R37, log 19). -/
theorem Hart.check_stuck (hend : addr + n ≤ 2 ^ p.format.mxlen.bits) (hmod : addr % n = 0)
    (habsent : h.mem.presentRange addr n = false) :
    h.check access auth addr n = .fault (.stuck access.kind addr h.pc.toNat) := by
  rw [Hart.check_of_granted h addr n htag hct hperms, hbounds, habsent, if_neg fun hmis => hmis.2 hmod, if_neg (by decide),
    if_neg (Nat.not_lt.2 hend), if_neg (not_not.2 hmod)]
  rfl

end

end

/-! ## The access of an instruction -/

/-- The access of the model's checks is the one R39 names: a load or store of the same data, with the same needs, of a size that
divides the size of a capability. -/
structure Access.Performs (access : Access) (p : Params) (a : MemAccess) : Prop where
  kind : access.kind = a.kind
  integer : access.isInteger = a.integer
  needs : access.needs p.withoutC = a.needs
  notFetch : access ≠ .fetch
  size : a.size ∣ p.format.mxlen.capBytes

/-- An instruction that has a word for this MXLEN is not refused for lack of MXLEN=64 (R156, R157). -/
theorem onlyRv64_of_wf {i : Instr} {s : State} (hwf : i.wf s.params.format.mxlen = true) (hi : i.rv64Only = true)
    (o : Host.Outcome State Fault Refusal) : onlyRv64 s o = o := by
  have hx : s.params.format.mxlen = .rv64 := by simpa [Instr.wf, hi] using ((Bool.and_eq_true _ _).mp hwf).1
  rw [onlyRv64, hx]

/-- A load or store is the checks of its access, through its authority at the effective address, and then a new hart (R156 to
R159). -/
theorem exec_memAccess {h : Hart p} {i : Instr} {a : MemAccess} (hwf : i.wf p.format.mxlen = true)
    (ha : i.memAccess p = some a) :
    ∃ (access : Access) (h' : Hart p), access.Performs p a ∧ exec i { params := p, hart := h } =
      liftHart ((h.check access (h.readC a.auth) (effectiveAddress (h.readC a.auth) a.off).toNat a.size).andNext h') := by
  obtain ⟨d1, d2, d4, d8⟩ := size_dvd p.format.mxlen
  cases i with
  | lb | lbu => obtain rfl := Option.some.inj ha; exact ⟨.intLoad, _, ⟨rfl, rfl, rfl, by decide, d1⟩, rfl⟩
  | lh | lhu => obtain rfl := Option.some.inj ha; exact ⟨.intLoad, _, ⟨rfl, rfl, rfl, by decide, d2⟩, rfl⟩
  | lw => obtain rfl := Option.some.inj ha; exact ⟨.intLoad, _, ⟨rfl, rfl, rfl, by decide, d4⟩, rfl⟩
  | lwu => obtain rfl := Option.some.inj ha; exact ⟨.intLoad, _, ⟨rfl, rfl, rfl, by decide, d4⟩, onlyRv64_of_wf hwf rfl _⟩
  | ld => obtain rfl := Option.some.inj ha; exact ⟨.intLoad, _, ⟨rfl, rfl, rfl, by decide, d8⟩, onlyRv64_of_wf hwf rfl _⟩
  | sb => obtain rfl := Option.some.inj ha; exact ⟨.intStore, _, ⟨rfl, rfl, rfl, by decide, d1⟩, rfl⟩
  | sh => obtain rfl := Option.some.inj ha; exact ⟨.intStore, _, ⟨rfl, rfl, rfl, by decide, d2⟩, rfl⟩
  | sw => obtain rfl := Option.some.inj ha; exact ⟨.intStore, _, ⟨rfl, rfl, rfl, by decide, d4⟩, rfl⟩
  | sd => obtain rfl := Option.some.inj ha; exact ⟨.intStore, _, ⟨rfl, rfl, rfl, by decide, d8⟩, onlyRv64_of_wf hwf rfl _⟩
  | lc => obtain rfl := Option.some.inj ha; exact ⟨.capLoad, _, ⟨rfl, rfl, rfl, by decide, dvd_rfl⟩, rfl⟩
  | sc => obtain rfl := Option.some.inj ha; exact ⟨.capStore, _, ⟨rfl, rfl, rfl, by decide, dvd_rfl⟩, rfl⟩
  | gcperm | acperm | gcbase | cadd | caddi | scaddr | cbld | jalr => simp [Instr.memAccess] at ha

/-- An aligned access inside the address space ends inside it, for its size divides 2^MXLEN. -/
theorem Access.Performs.end_le {access : Access} {a : MemAccess} (hk : access.Performs p a) {ea : XWord p.format}
    (hmod : ea.toNat % a.size = 0) : ea.toNat + a.size ≤ 2 ^ p.format.mxlen.bits := by
  have hcap : p.format.mxlen.capBytes ∣ 2 ^ p.format.mxlen.bits := by cases p.format.mxlen <;> decide
  have hsize : a.size ∣ 2 ^ p.format.mxlen.bits := hk.size.trans hcap
  exact Nat.le_of_lt_add_of_dvd (Nat.add_lt_add_right ea.isLt _)
    (Nat.dvd_add_self_right.2 (Nat.dvd_of_mod_eq_zero hmod)) hsize

/-! ## What an access that stops reports -/

/-- A load or store whose authority fails tag, seal or permission reports the first that fails, whatever else fails. -/
theorem exec_fault_of_violation {h : Hart p} {i : Instr} {a : MemAccess} {cause : SubCause}
    (hwf : i.wf p.format.mxlen = true) (ha : i.memAccess p = some a)
    (hv : grantViolation (h.readC a.auth) a.needs = some cause) :
    exec i { params := p, hart := h } =
      .fault (.cheri cause a.kind (effectiveAddress (h.readC a.auth) a.off).toNat h.pc.toNat) := by
  obtain ⟨access, h', hk, hx⟩ := exec_memAccess (h := h) hwf ha
  rw [hx, Hart.check_of_violation h _ _ (hk.needs ▸ hv), Check.fault_andNext, liftHart_fault, Hart.raise, hk.kind]

/-- Settles O52: the grant reports tag, seal and permission; the checks report the bounds next. -/
theorem accessReportsFirstFailure : Obligations.AccessReportsFirstFailure := by
  intro p h i a hwf ha
  refine ⟨fun htag => ?_, fun htag hct => ?_, fun htag hct q hq => ?_, fun htag hct hperms halign hbounds => ?_⟩
  · exact exec_fault_of_violation hwf ha (grantViolation_tag _ htag)
  · exact exec_fault_of_violation hwf ha (grantViolation_seal _ htag hct)
  · exact exec_fault_of_violation hwf ha (grantViolation_permit htag hct hq)
  · obtain ⟨access, h', hk, hx⟩ := exec_memAccess (h := h) hwf ha
    rw [← inBounds_iff, Bool.not_eq_true] at hbounds
    rw [hx, Hart.check_boundsViolation htag hct (hk.needs ▸ hperms) (hk.integer ▸ halign) hbounds, Check.fault_andNext,
      liftHart_fault, Hart.raise, hk.kind]

/-- Settles O53: one check answers in each clause, and an aligned access never ends past the address space. -/
theorem allowedAccessesThatDoNotComplete : Obligations.AllowedAccessesThatDoNotComplete := by
  intro p h i a hwf ha s auth ea pc htag hct hperms
  obtain ⟨access, h', hk, hx⟩ := exec_memAccess (h := h) hwf ha
  rw [← hk.needs] at hperms
  rw [← hk.kind, ← hk.integer]
  refine ⟨fun hint hmod => ?_, fun hlow hhigh => ⟨fun hint hend => ?_, fun hint hend hmod => ?_, ?_⟩⟩
  · rw [hx, Hart.check_misalignedInteger htag hct hperms hint hmod, Check.refuse_andNext, liftHart_refused]
  · rw [hx, Hart.check_pastAddressSpace htag hct hperms (inBounds_iff.2 ⟨hlow, hhigh⟩) hint hend, Check.refuse_andNext,
      liftHart_refused]
  · rw [hx, Hart.check_misaligned htag hct hperms (inBounds_iff.2 ⟨hlow, hhigh⟩) hint hend hmod,
      h.misaligned_capability hint hk.notFetch, Check.fault_andNext, liftHart_fault, Hart.raise]
  · rintro hmod ⟨x, hxlow, hxhigh, hxabsent⟩
    have habsent : h.mem.presentRange ea a.size = false := by
      rw [← Bool.not_eq_true, presentRange_iff]
      exact fun hall => absurd (hall x hxlow hxhigh) (by simp [hxabsent])
    rw [hx, Hart.check_stuck htag hct hperms (inBounds_iff.2 ⟨hlow, hhigh⟩) (hk.end_le hmod) hmod habsent,
      Check.fault_andNext, liftHart_fault]

/-- A load or store without the first permission it needs faults for lack of it. -/
theorem exec_fault_of_first_need {h : Hart p} {i : Instr} {kind : AccessKind} {integer : Bool} {q : Perm} {rest : List Perm}
    {cs1 : Reg} {imm : Imm12} {size : Nat} (hwf : i.wf p.format.mxlen = true) (htag : (h.readC cs1).tag = true)
    (hct : (h.readC cs1).ct = false) (hq : (h.readC cs1).perms.has q = false)
    (ha : i.memAccess p = some { kind, integer, needs := q :: rest, auth := cs1, off := imm, size }) :
    exec i { params := p, hart := h } =
      .fault (.cheri (.permitViolation q) kind (effectiveAddress (h.readC cs1) imm).toNat h.pc.toNat) :=
  exec_fault_of_violation hwf ha (grantViolation_permit htag hct (List.find?_cons_of_pos (by simp [hq])))

/-- LC needs R first, whether or not the lack of C faults (R39). -/
theorem memAccess_lc (p : Params) (cd cs1 : Reg) (imm : Imm12) :
    (Instr.lc cd cs1 imm).memAccess p =
      some { kind := .load, integer := false, needs := .r :: if p.withoutC = .fault then [.c] else [], auth := cs1,
             off := imm, size := p.format.mxlen.capBytes } := by
  cases hc : p.withoutC <;> simp [Instr.memAccess, hc]

/-- SC needs W first, whether or not the lack of C faults (R39). -/
theorem memAccess_sc (p : Params) (cs2 cs1 : Reg) (imm : Imm12) :
    (Instr.sc cs2 cs1 imm).memAccess p =
      some { kind := .store, integer := false, needs := .w :: if p.withoutC = .fault then [.c] else [], auth := cs1,
             off := imm, size := p.format.mxlen.capBytes } := by
  cases hc : p.withoutC <;> simp [Instr.memAccess, hc]

/-- LC and SC have a word for both MXLEN. -/
theorem capabilityAccess_wf (x : Mxlen) (r cs1 : Reg) (imm : Imm12) :
    (Instr.lc r cs1 imm).wf x = true ∧ (Instr.sc r cs1 imm).wf x = true := by
  cases x <;> exact ⟨rfl, rfl⟩

/-- Settles O51: R is the first need of every load, W of every store. -/
theorem loadsNeedReadAndStoresNeedWrite : Obligations.LoadsNeedReadAndStoresNeedWrite := by
  intro p h r cs1 imm i hwf s auth ea htag hct
  simp only [List.mem_cons, List.not_mem_nil, or_false]
  refine ⟨fun hr hi => ?_, fun hw hi => ?_⟩
  · have hload : ∃ integer rest size, i.memAccess p =
        some { kind := .load, integer, needs := .r :: rest, auth := cs1, off := imm, size } := by
      rcases hi with rfl | rfl | rfl | rfl | rfl | rfl | rfl | rfl
      pick_goal 8
      · exact ⟨_, _, _, memAccess_lc p r cs1 imm⟩
      all_goals exact ⟨_, _, _, rfl⟩
    obtain ⟨_, _, _, ha⟩ := hload
    exact exec_fault_of_first_need hwf htag hct hr ha
  · have hstore : ∃ integer rest size, i.memAccess p =
        some { kind := .store, integer, needs := .w :: rest, auth := cs1, off := imm, size } := by
      rcases hi with rfl | rfl | rfl | rfl | rfl
      pick_goal 5
      · exact ⟨_, _, _, memAccess_sc p r cs1 imm⟩
      all_goals exact ⟨_, _, _, rfl⟩
    obtain ⟨_, _, _, ha⟩ := hstore
    exact exec_fault_of_first_need hwf htag hct hw ha

/-- Settles O54: with R or W granted, C is the first need that is not. -/
theorem capabilityAccessWithoutCFaults : Obligations.CapabilityAccessWithoutCFaults := by
  intro p h cd cs1 imm hfault s auth ea htag hct hc
  obtain ⟨hwflc, hwfsc⟩ := capabilityAccess_wf p.format.mxlen cd cs1 imm
  have hlc := memAccess_lc p cd cs1 imm
  have hsc := memAccess_sc p cd cs1 imm
  rw [if_pos hfault] at hlc hsc
  refine ⟨fun hr => ?_, fun hw => ?_⟩
  · have hfirst : [Perm.r, .c].find? (fun q => !auth.perms.has q) = some .c := by simp [Perms.has, hr, hc]
    exact exec_fault_of_violation hwflc hlc (grantViolation_permit htag hct hfirst)
  · have hfirst : [Perm.w, .c].find? (fun q => !auth.perms.has q) = some .c := by simp [Perms.has, hw, hc]
    exact exec_fault_of_violation hwfsc hsc (grantViolation_permit htag hct hfirst)

end Sys2Proof.Machine
end

section

/-! Encoding (30_encoding.md R54 to R57): a word is put together again from its fields, so the decoder and the encoder are inverse
to each other on the words that decode and the instructions that have a word. -/

namespace Sys2Proof

/-- An instruction has a word unless it is for MXLEN=64 only and MXLEN is 32, or a CADD with rs2 = 0 (R121, R156, R157). -/
theorem Instr.wf_iff (x : Mxlen) (i : Instr) :
    i.wf x = true ↔ (i.rv64Only = true → x = .rv64) ∧ i.operandsEncodable = true := by
  rw [Instr.wf, Bool.and_eq_true, Bool.or_eq_true, decide_eq_true_eq, Bool.not_eq_true', ← Bool.not_eq_true, or_comm,
    imp_iff_not_or]

/-! ## A word from its fields (R55, R56) -/

section
variable {w : BitVec 32} {op : BitVec 7} {f3 : BitVec 3} (hop : opcodeOf w = op) (h3 : funct3Of w = f3)
include hop h3

theorem rWord_fields {f7 : BitVec 7} {rs2 : Reg} (h7 : funct7Of w = f7) (h2 : rs2Of w = rs2) :
    rWord f7 (regBits rs2) (regBits (rs1Of w)) f3 (regBits (rdOf w)) op = w := by
  subst hop h3 h7 h2
  unfold rWord funct7Of rs2Of rs1Of funct3Of rdOf opcodeOf regBits
  simp (disch := decide) only [BitVec.ofFin_toFin, BitVec.extractLsb'_append_extractLsb'_eq_extractLsb']
  exact extract_all w

theorem iWord_fields : iWord (immIOf w) (regBits (rs1Of w)) f3 (regBits (rdOf w)) op = w := by
  subst hop h3
  unfold iWord immIOf rs1Of funct3Of rdOf opcodeOf regBits
  simp (disch := decide) only [BitVec.ofFin_toFin, BitVec.extractLsb'_append_extractLsb'_eq_extractLsb']
  exact extract_all w

theorem sWord_fields : sWord (immSOf w) (regBits (rs2Of w)) (regBits (rs1Of w)) f3 op = w := by
  subst hop h3
  unfold sWord immSOf rs2Of rs1Of funct3Of opcodeOf regBits
  rw [BitVec.extractLsb'_append_eq_left, BitVec.extractLsb'_append_eq_right]
  simp (disch := decide) only [BitVec.ofFin_toFin, BitVec.extractLsb'_append_extractLsb'_eq_extractLsb']
  exact extract_all w

end

/-! ## Decoding an encoded instruction -/

/-- The decoder's tests find the fields the encoder wrote: the opcode and funct3, funct7 of the register-to-register rows, and
rs2, which tells GCPERM from GCBASE and refuses CADD without an index. -/
theorem decode_encode {x : Mxlen} {i : Instr} (hwf : i.wf x = true) : decode x (encode x i) = .ok i := by
  obtain ⟨hx, hop⟩ := (Instr.wf_iff x i).1 hwf
  have h1 : (1#5).toFin = (1 : Reg) := rfl
  have h5 : (5#5).toFin = (5 : Reg) := rfl
  cases i with
  | gcperm | gcbase => simp [encode, decode, decodeOp, h1, h5, -BitVec.toFin_ofNat]
  | acperm | scaddr | cbld => simp [encode, decode, decodeOp]
  | cadd cd cs1 rs2 => simp [encode, decode, decodeOp, of_decide_eq_true hop]
  | caddi | jalr => simp [encode, decode]
  | lb | lh | lw | lbu | lhu => simp [encode, decode, decodeLoad]
  | lwu | ld => simp [encode, decode, decodeLoad, hx rfl]
  | sb | sh | sw => simp [encode, decode, decodeStore]
  | sd => simp [encode, decode, decodeStore, hx rfl]
  | lc => cases x <;> simp [encode, decode, decodeLoad]
  | sc => cases x <;> simp [encode, decode, decodeStore]

/-- The bytes of a word decode as the word, and the bytes after them are left (R41). -/
theorem decodeBytes_wordBytes {d : Decoder} {x : Mxlen} {w : BitVec 32} {i : Instr} (h : d.decode x w = .ok i)
    (rest : List Byte) : decodeBytes d x (wordBytes w ++ rest) = .ok (i, rest) := by
  have hjoin := wordBytes_join w
  exact (decodeBytes_four d x _ _ _ _ rest i).2 (by rwa [hjoin])

/-- Settles O1: each instruction's word decodes to it, and its bytes are joined to that word. -/
theorem decodeOfEncodeIsTheInstruction : Obligations.DecodeOfEncodeIsTheInstruction :=
  fun _ _ hwf => ⟨decode_encode hwf, decodeBytes_wordBytes (decode_encode hwf)⟩

/-! ## Encoding a decoded word -/

section
variable {x : Mxlen} {w : BitVec 32} {i : Instr}

/-- The register-to-register rows: funct7 and funct3 are tested, and rs2 for GCPERM, GCBASE and CADD. -/
theorem encode_of_decodeOp (hop : opcodeOf w = 0x33#7) (h : decodeOp w = .ok i) : i.wf x = true ∧ encode x i = w := by
  rw [Instr.wf_iff]
  unfold decodeOp at h
  split_ifs at h with h7 h3 h2 h3 h3 h3 h7 h3 h2 h2 <;> cases h
  · exact ⟨⟨nofun, decide_eq_true h2⟩, rWord_fields hop h3 h7 rfl⟩
  · exact ⟨⟨nofun, rfl⟩, rWord_fields hop h3 h7 rfl⟩
  · exact ⟨⟨nofun, rfl⟩, rWord_fields hop h3 h7 rfl⟩
  · exact ⟨⟨nofun, rfl⟩, rWord_fields hop h3 h7 rfl⟩
  · exact ⟨⟨nofun, rfl⟩, rWord_fields hop h3 h7 h2⟩
  · exact ⟨⟨nofun, rfl⟩, rWord_fields hop h3 h7 h2⟩

/-- The loads: on a machine of MXLEN=64 every one has a word; for MXLEN=32 none that decodes is for MXLEN=64 only. -/
theorem encode_of_decodeLoad (hop : opcodeOf w = 0x03#7) (h : decodeLoad x w = .ok i) : i.wf x = true ∧ encode x i = w := by
  rw [Instr.wf_iff]
  unfold decodeLoad at h
  cases x with
  | rv32 =>
    split_ifs at h with h3 h3 h3 h3 h3 h3 h3 <;> cases h
    all_goals exact ⟨⟨nofun, rfl⟩, iWord_fields hop h3⟩
  | rv64 =>
    split_ifs at h with h3 h3 h3 h3 h3 h3 h3 <;> cases h
    all_goals exact ⟨⟨fun _ => rfl, rfl⟩, iWord_fields hop h3⟩

/-- The stores, as the loads. -/
theorem encode_of_decodeStore (hop : opcodeOf w = 0x23#7) (h : decodeStore x w = .ok i) :
    i.wf x = true ∧ encode x i = w := by
  rw [Instr.wf_iff]
  unfold decodeStore at h
  cases x with
  | rv32 =>
    split_ifs at h with h3 h3 h3 h3 h3 <;> cases h
    all_goals exact ⟨⟨nofun, rfl⟩, sWord_fields hop h3⟩
  | rv64 =>
    split_ifs at h with h3 h3 h3 h3 h3 <;> cases h
    all_goals exact ⟨⟨fun _ => rfl, rfl⟩, sWord_fields hop h3⟩

/-- CADDI, JALR and the LC of MXLEN=64 have an opcode of their own; the other rows are those of the three tables above. -/
theorem encode_of_decode (h : decode x w = .ok i) : i.wf x = true ∧ encode x i = w := by
  unfold decode at h
  split_ifs at h with hop hop h3 hop h3 hop hop h3 hop
  · exact encode_of_decodeOp hop h
  · cases h
    exact ⟨(Instr.wf_iff _ _).2 ⟨nofun, rfl⟩, iWord_fields hop h3⟩
  · cases h
    exact ⟨(Instr.wf_iff _ _).2 ⟨nofun, rfl⟩, iWord_fields hop h3⟩
  · exact encode_of_decodeLoad hop h
  · cases x <;> cases h
    exact ⟨(Instr.wf_iff _ _).2 ⟨nofun, rfl⟩, iWord_fields hop h3⟩
  · cases x <;> cases h
  · exact encode_of_decodeStore hop h

/-- Settles O2: whichever row of the table the word matched, its fields put together are the word. -/
theorem encodeOfDecodeIsTheWord : Obligations.EncodeOfDecodeIsTheWord :=
  fun _ _ _ => encode_of_decode

end

end Sys2Proof
end

section

/-! The CLEN bits and back (30_encoding.md R48, R52, R53): under a layout that obeys R52 each bit of the metadata word is a bit of
one field of the capability read from it, or one of its reserved bits. -/

namespace Sys2Proof

/-- Two fields side by side are read back from their positions (R6, R48). -/
theorem setWidth_joinFields {h n w : Nat} (high : BitVec n) (low : BitVec h) (hw : h ≤ w) :
    (joinFields w high low).setWidth h = low := by
  apply BitVec.eq_of_getLsbD_eq
  intro i hi
  simp [joinFields, hi, show i < w by omega]

theorem extractLsb'_joinFields {h n w : Nat} (high : BitVec n) (low : BitVec h) (hw : h + n ≤ w) :
    (joinFields w high low).extractLsb' h n = high := by
  apply BitVec.eq_of_getLsbD_eq
  intro i hi
  simp [joinFields, hi, show h + i < w by omega]

/-- One bit of a word, as a field of width 1. -/
theorem ofBool_getLsbD {n : Nat} (w : BitVec n) (lo : Nat) : BitVec.ofBool (w.getLsbD lo) = w.extractLsb' lo 1 := by
  apply BitVec.eq_of_getLsbD_eq
  intro i hi
  simp [show i = 0 by omega]

section
variable {f : Format} (l : Layout) (tag : Bool) (w a : XWord f)

/-- The two fields of the stored T, and of the stored B, of the capability read from a metadata word (R48). -/
theorem ofWords_te_tHigh : (Cap.ofWords l tag w a).te = w.extractLsb' l.te f.mxlen.half ∧
    (Cap.ofWords l tag w a).tHigh = w.extractLsb' l.tHigh (f.mxlen.mw - 2 - f.mxlen.half) := by
  have hhalf : f.mxlen.half ≤ f.mxlen.mw - 2 := by cases f.mxlen <;> decide
  exact ⟨setWidth_joinFields _ _ hhalf, extractLsb'_joinFields _ _ (by omega)⟩

theorem ofWords_be_bHigh : (Cap.ofWords l tag w a).be = w.extractLsb' l.be f.mxlen.half ∧
    (Cap.ofWords l tag w a).bHigh = w.extractLsb' l.bHigh (f.mxlen.mw - f.mxlen.half) := by
  have hhalf : f.mxlen.half ≤ f.mxlen.mw := by cases f.mxlen <;> decide
  exact ⟨setWidth_joinFields _ _ hhalf, extractLsb'_joinFields _ _ (by omega)⟩

/-- Each field of the capability read from a metadata word holds the bits at the field's position. -/
theorem placed_ofWords {y : (Nat × Nat) × Nat} (hy : y ∈ (Cap.ofWords l tag w a).placed l) :
    y.2 = (w.extractLsb' y.1.1 y.1.2).toNat := by
  obtain ⟨hte, htHigh⟩ := ofWords_te_tHigh l tag w a
  obtain ⟨hbe, hbHigh⟩ := ofWords_be_bHigh l tag w a
  simp only [Cap.placed, List.mem_cons, List.not_mem_nil, or_false] at hy
  rcases hy with rfl | rfl | rfl | rfl | rfl | rfl | rfl | rfl | rfl | rfl
  · rfl
  · rfl
  · rfl
  · exact congrArg BitVec.toNat (ofBool_getLsbD w l.ct)
  · exact congrArg BitVec.toNat (ofBool_getLsbD w l.ef)
  · rfl
  · exact congrArg BitVec.toNat htHigh
  · exact congrArg BitVec.toNat hte
  · exact congrArg BitVec.toNat hbHigh
  · exact congrArg BitVec.toNat hbe

/-- The metadata word is given back by the capability read from it: the one field that covers a position, or the one reserved
bit there, has the word's bit. -/
theorem metadata_ofWords (hl : l.wf f = true) : (Cap.ofWords l tag w a).metadata l = w := by
  obtain ⟨-, -, -, hlen⟩ := Layout.wf_parts hl
  apply BitVec.eq_of_getLsbD_eq
  intro pos hpos
  have hone := placed_countP hl (Cap.ofWords l tag w a) hpos
  rw [metadata_getLsbD l _ hpos, spread_testBit _ (Layout.reserved_nodup hl)]
  by_cases hmem : pos ∈ l.reserved
  · have hcount : 0 < l.reserved.count pos := List.count_pos_iff.2 hmem
    have hidx : l.reserved.idxOf pos < l.reserved.length := List.idxOf_lt_length_iff.2 hmem
    rw [any_of_countP_zero _ (by omega)]
    simp [hmem, Cap.ofWords, gather_testBit, ← hlen, hidx, Nat.testBit_mod_two_pow, BitVec.testBit_toNat]
  · rw [List.count_eq_zero_of_not_mem hmem] at hone
    obtain ⟨y, hy, hcov⟩ := List.countP_pos_iff.1 (Nat.lt_of_lt_of_eq Nat.zero_lt_one hone.symm)
    rw [any_of_countP_le_one _ hy hcov (Nat.le_of_eq hone), placed_ofWords l tag w a hy]
    simp only [Layout.covers, Bool.and_eq_true, decide_eq_true_eq] at hcov
    obtain ⟨hlo, hhi⟩ := hcov
    simp [hmem, show pos - y.1.1 < y.1.2 by omega, Nat.add_sub_cancel' hlo, BitVec.testBit_toNat]

/-- The capability of a number of CLEN bits has these bits (R53). -/
theorem capToBits_bitsToCap (hl : l.wf f = true) {bits : Nat} (hbits : bits < 2 ^ (2 * f.mxlen.bits)) :
    capToBits l (bitsToCap (f := f) l tag bits) = bits := by
  have hmeta : bits / 2 ^ f.mxlen.bits < 2 ^ f.mxlen.bits := Nat.div_lt_of_lt_mul (by rwa [← pow_add, ← two_mul])
  have haddr : (bitsToCap (f := f) l tag bits).address.toNat = bits % 2 ^ f.mxlen.bits := BitVec.toNat_ofNat ..
  rw [capToBits, haddr, bitsToCap, metadata_ofWords _ _ _ _ hl, BitVec.toNat_ofNat, Nat.mod_eq_of_lt hmeta]
  exact Nat.div_add_mod' bits _

end

/-- Settles O24: the fields and the reserved bits partition the metadata word, so neither direction loses a bit. -/
theorem recordAndBitsAreInverse : Obligations.RecordAndBitsAreInverse := by
  intro p hp
  have hl := Params.wf_layout hp
  exact ⟨fun c => ⟨capToBits_lt p.layout c, bitsToCap_capToBits hl c⟩, fun tag _ => capToBits_bitsToCap p.layout tag hl⟩

end Sys2Proof
end

section

/-! The permissions of a capability (40_permissions.md): what AP grants in the two formats, what a reduction leaves, and the
operations that read or reduce them: GCPERM, ACPERM, the load-mutable rule and the TID registers. -/

namespace Sys2Proof

section
variable {f : Format} {c : Cap f}

/-! ## The permission views of a capability for each MXLEN -/

theorem perms_rv32 (hx : f.mxlen = .rv32) : c.perms = (apTable32 c.ap.toNat).getD Perms.none :=
  congrArg (apPerms · c.ap.toNat) hx

theorem apLegal_rv32 (hx : f.mxlen = .rv32) : c.apLegal = (apTable32 c.ap.toNat).isSome := by
  rcases f with ⟨x, n⟩
  obtain rfl : x = .rv32 := hx
  rfl

theorem mbit_rv32 (hx : f.mxlen = .rv32) : c.mbit = (decide (c.ap.toNat / 8 = 1) && c.ap.toNat.testBit 0) := by
  rcases f with ⟨x, n⟩
  obtain rfl : x = .rv32 := hx
  rfl

theorem ap_lt_rv32 (hx : f.mxlen = .rv32) : c.ap.toNat < 32 :=
  c.ap.isLt.trans_eq (congrArg (2 ^ ·.apWidth) hx)

theorem perms_rv64 (hx : f.mxlen = .rv64) : c.perms = apBits64 c.ap.toNat :=
  congrArg (apPerms · c.ap.toNat) hx

theorem apLegal_rv64 (hx : f.mxlen = .rv64) : c.apLegal = decide (c.ap.toNat < 64) := by
  rcases f with ⟨x, n⟩
  obtain rfl : x = .rv64 := hx
  rfl

theorem ap_lt_rv64 (hx : f.mxlen = .rv64) : c.ap.toNat < 256 :=
  c.ap.isLt.trans_eq (congrArg (2 ^ ·.apWidth) hx)

/-! ## The MXLEN=32 table (R63, R64) -/

theorem apTable32_isSome_iff {ap : Nat} (hap : ap < 32) :
    (apTable32 ap).isSome = true ↔
      ap ∈ [0x00, 0x01, 0x04, 0x05, 0x08, 0x09, 0x0A, 0x0B, 0x0C, 0x0D, 0x0E, 0x0F, 0x13, 0x1B, 0x1F] := by
  revert ap
  decide

/-- Quadrant 0: bit 0 grants R and bit 2 grants W. -/
theorem apTable32_quadrant0 {ap : Nat} (hap : ap < 32) (hs : (apTable32 ap).isSome = true) (hq : ap / 8 = 0) :
    apTable32 ap = some { Perms.none with r := ap.testBit 0, w := ap.testBit 2 } := by
  revert ap
  decide

/-- Quadrant 1: every value is legal, grants R and X, and bits 2 and 1 choose the others. -/
theorem apTable32_quadrant1 {ap : Nat} (hap : ap < 32) (hq : ap / 8 = 1) :
    apTable32 ap = some
      { r := true, x := true, w := decide (ap % 8 / 2 ≠ 1), c := decide (ap % 8 / 2 ≠ 3), lm := decide (ap % 8 / 2 ≠ 3),
        asr := decide (ap % 8 / 2 = 0) } := by
  revert ap
  decide

/-- Quadrant 2: read-only capabilities without LM. -/
theorem apTable32_quadrant2 {ap : Nat} (hap : ap < 32) (hs : (apTable32 ap).isSome = true) (hq : ap / 8 = 2) :
    apTable32 ap = some { Perms.none with r := true, c := true } := by
  revert ap
  decide

/-- Quadrant 3: capabilities with LM, bit 2 grants W. -/
theorem apTable32_quadrant3 {ap : Nat} (hap : ap < 32) (hs : (apTable32 ap).isSome = true) (hq : ap / 8 = 3) :
    apTable32 ap = some { Perms.none with r := true, c := true, lm := true, w := ap.testBit 2 } := by
  revert ap
  decide

/-- A legal AP value grants the set of the table. -/
theorem perms_of_apTable32 (hx : f.mxlen = .rv32) {s : Perms} (hap : apTable32 c.ap.toNat = some s) : c.perms = s := by
  rw [perms_rv32 hx, hap, Option.getD_some]

/-- A reserved AP value grants nothing (R70, R71). -/
theorem perms_of_reserved (hx : f.mxlen = .rv32) (hap : apTable32 c.ap.toNat = none) : c.perms = Perms.none := by
  rw [perms_rv32 hx, hap, Option.getD_none]

/-- A reserved AP value has M-bit 0, for no value of quadrant 1 is reserved (R68). -/
theorem mbit_of_reserved (hx : f.mxlen = .rv32) (hap : apTable32 c.ap.toNat = none) : c.mbit = false := by
  have hq : c.ap.toNat / 8 ≠ 1 := fun hq => by
    rw [apTable32_quadrant1 (ap_lt_rv32 hx) hq] at hap
    exact Option.some_ne_none _ hap
  simp [mbit_rv32 hx, hq]

end

/-- Settles O27: one lemma of the table per quadrant. -/
theorem apTableByQuadrants : Obligations.ApTableByQuadrants := by
  intro f cap hx ap q s
  have hap : ap < 32 := ap_lt_rv32 hx
  rw [apLegal_rv32 hx, mbit_rv32 hx]
  refine ⟨apTable32_isSome_iff hap, fun h => ?_, fun h hq => ?_, fun hq => ?_, fun hq => ?_, fun h hq => ?_, fun h hq => ?_⟩
  · exact perms_of_reserved hx (Option.isNone_iff_eq_none.1 (Option.isSome_eq_false_iff.1 h))
  · exact perms_of_apTable32 hx (apTable32_quadrant0 hap h hq)
  · rw [show s = _ from perms_of_apTable32 hx (apTable32_quadrant1 hap hq)]
    exact ⟨rfl, rfl, rfl, rfl, rfl, rfl, by rw [decide_eq_true hq, Bool.true_and]⟩
  · rw [decide_eq_false hq, Bool.false_and]
  · exact perms_of_apTable32 hx (apTable32_quadrant2 hap h hq)
  · exact perms_of_apTable32 hx (apTable32_quadrant3 hap h hq)

/-- Settles O29: neither the set nor the M-bit of a reserved value depends on the value. -/
theorem reservedApReadsAsNoPermissions : Obligations.ReservedApReadsAsNoPermissions := by
  intro f c hx hap
  have hs := perms_of_reserved hx hap
  exact ⟨hs, by rw [Cap.packed, hs, mbit_of_reserved hx hap]⟩

/-! ## The MXLEN=64 bits (R65) -/

/-- A number of eight bits is below 64 exactly if its upper two bits are clear. -/
theorem lt_64_iff_upper_bits_clear {n : Nat} (hn : n < 256) : n < 64 ↔ n.testBit 6 = false ∧ n.testBit 7 = false := by
  simp only [Nat.testBit_eq_decide_div_mod_eq, decide_eq_false_iff_not]
  omega

/-- Settles O28: the decoded set reads one bit per permission, and the legal values are those below 64. -/
theorem rv64PermissionsArePerBit : Obligations.Rv64PermissionsArePerBit := by
  intro f cap hx
  rw [perms_rv64 hx, apLegal_rv64 hx, decide_eq_true_iff, lt_64_iff_upper_bits_clear (ap_lt_rv64 hx)]
  exact ⟨⟨rfl, rfl, rfl, rfl, rfl, rfl⟩, Iff.rfl⟩

/-! ## What `acperm_reduce` leaves (R76) -/

/-- A set ACPERM may leave for MXLEN=32 is one of the table: its own encoding decodes to it (P2). -/
theorem exists_ap_of_usefulSet {s : Perms} (hs : usefulSet .rv32 s = true) : ∃ ap, ap < 32 ∧ apTable32 ap = some s :=
  ⟨apEncode32 s false, apEncode_lt .rv32 s false, of_decide_eq_true hs⟩

/-- A set ACPERM may leave for MXLEN=64 has ASR only beside X (P3). -/
theorem asr_needs_x_of_usefulSet {s : Perms} (hs : usefulSet .rv64 s = true) : s.asr = false ∨ s.x = true := by
  simpa [usefulSet] using hs

theorem Perms.eq_none_of_subset_none {s : Perms} (hs : s.subset Perms.none = true) : s = Perms.none := by
  cases s
  simpa [Perms.subset, Perms.none, and_assoc] using hs

/-- A permission outside a set is outside its subsets. -/
theorem Perms.has_eq_false_of_subset {s u : Perms} (h : s.subset u = true) {q : Perm} (hq : u.has q = false) : s.has q = false :=
  Bool.eq_false_iff.2 fun hs => Bool.eq_false_iff.1 hq ((Perms.subset_iff s u).1 h q hs)

/-- Settles O30: P1 to P3 are the filter on the proposal, and P4 follows from P1. -/
theorem acpermReduceProperties : Obligations.AcpermReduceProperties := fun x s =>
  ⟨acpermReduce_subset x s, exists_ap_of_usefulSet (usefulSet_acpermReduce .rv32 s),
    asr_needs_x_of_usefulSet (usefulSet_acpermReduce .rv64 s), Perms.eq_none_of_subset_none (acpermReduce_subset x Perms.none)⟩

/-! ## A capability with reduced permissions (R67, R75) -/

/-- The MXLEN=32 encoding of a set ACPERM may leave holds the M-bit in bit 0 of quadrant 1 where the set has X, and is in another
quadrant where it has not (R63, R68). -/
theorem mbit_apEncode32_of_usefulSet {s : Perms} (hs : usefulSet .rv32 s = true) (m : Bool) :
    (decide (apEncode32 s (s.x && m) / 8 = 1) && (apEncode32 s (s.x && m)).testBit 0) = (s.x && m) := by
  obtain ⟨r, w, c, x, asr, lm⟩ := s
  revert r w c x asr lm m
  decide

/-- The M-bit is kept exactly beside X. -/
theorem withPerms_mbit {f : Format} (c : Cap f) {s : Perms} (hs : usefulSet f.mxlen s = true) :
    (c.withPerms s).mbit = (s.x && c.mbit) := by
  have hap := withPerms_ap_toNat c s
  rcases f with ⟨x, n⟩
  cases x with
  | rv32 =>
    rw [mbit_rv32 rfl, hap]
    exact mbit_apEncode32_of_usefulSet hs c.mbit
  | rv64 =>
    change decide ((BitVec.ofNat 1 (s.x && c.mbit).toNat).toNat = 1) = (s.x && c.mbit)
    cases s.x && c.mbit <;> rfl

/-! ## The load-mutable rule (R77 to R80) -/

section
variable {f : Format} {auth v : Cap f}

theorem lmFilters_iff : lmFilters auth v = true ↔
    auth.perms.r = true ∧ auth.perms.c = true ∧ auth.perms.lm = false ∧ v.tag = true ∧ v.ct = false := by
  simp [lmFilters, Cap.isSealed, and_assoc]

theorem loadFilter_of_not_lmFilters (retain : Bool) (h : lmFilters auth v = false) : loadFilter retain auth v = v := by
  simp [loadFilter, h]

section
variable (h : lmFilters auth v = true)
include h

theorem loadFilter_of_apLegal (retain : Bool) (hap : v.apLegal = true) :
    loadFilter retain auth v =
      v.withPerms (acpermReduce f.mxlen (v.perms.without { Perms.none with w := true, lm := true })) := by
  simp [loadFilter, h, Cap.invalidPerms, hap]

theorem loadFilter_retained (hap : v.apLegal = false) : loadFilter true auth v = v := by
  simp [loadFilter, h, Cap.invalidPerms, hap]

theorem loadFilter_not_retained (hap : v.apLegal = false) : loadFilter false auth v = v.withPerms Perms.none := by
  simp [loadFilter, h, Cap.invalidPerms, hap]

end

/-- The rule changes no field but AP and M. -/
theorem loadFilter_frame (retain : Bool) (auth v : Cap f) : { loadFilter retain auth v with ap := v.ap, m := v.m } = v := by
  rcases loadFilter_cases retain auth v with h | ⟨s, -, -, h⟩
  · rw [h]
  · rw [h]
    rfl

end

/-- Settles O31: by the cases of the rule; what `acperm_reduce` leaves is among the stored permissions less W and LM. -/
theorem loadFilterRemovesWriteAndMutable : Obligations.LoadFilterRemovesWriteAndMutable := by
  refine fun f retain auth v => ⟨fun hr hc hlm ht hct => ?_, fun h => loadFilter_of_not_lmFilters retain ?_⟩
  · have hf : lmFilters auth v = true := lmFilters_iff.2 ⟨hr, hc, hlm, ht, hct⟩
    refine ⟨fun hap => ?_, fun hap hret => ?_, fun hap hret => ?_, loadFilter_frame retain auth v⟩
    · have hu := usefulSet_acpermReduce f.mxlen (v.perms.without { Perms.none with w := true, lm := true })
      have hsub := acpermReduce_subset f.mxlen (v.perms.without { Perms.none with w := true, lm := true })
      rw [loadFilter_of_apLegal hf retain hap, withPerms_perms v _ hu, withPerms_mbit v hu]
      exact ⟨rfl, Perms.has_eq_false_of_subset (q := .w) hsub (Bool.and_false _),
        Perms.has_eq_false_of_subset (q := .lm) hsub (Bool.and_false _),
        Perms.subset_trans hsub (Perms.without_subset _ _), rfl, withPerms_apLegal v _⟩
    · rw [hret, loadFilter_retained hf hap]
    · rw [hret, loadFilter_not_retained hf hap, withPerms_perms v _ (usefulSet_none _)]
  · rw [Bool.eq_false_iff, ne_eq, lmFilters_iff]
    rintro ⟨hr, hc, hlm, ht, hct⟩
    simp [hr, hc, hlm, ht, hct] at h

namespace Machine

variable {p : Params}

/-! ## GCPERM and ACPERM (R74, R75) -/

/-- A register result and the advance past the instruction change nothing else. -/
theorem Hart.onlyWrites_writeC_advance (h : Hart p) (cd : Reg) (v : Cap p.format) :
    h.OnlyWrites (h.writeC cd v).advance cd v where
  result := by
    by_cases h0 : cd = 0
    · simp [h0]
    · simp [h0, h.readC_writeC_same h0]
  regs r hr := h.readC_writeC_ne hr v
  pcc := by simp
  bytes _ := by simp
  tags _ := by simp
  map := by simp
  tid := by simp
  xlen := by simp

/-- Settles O32: GCPERM writes its packed view as an integer. -/
theorem gcpermReportsDecodedPermissions : Obligations.GcpermReportsDecodedPermissions := fun _ h rd _ =>
  ⟨_, rfl, h.onlyWrites_writeC_advance rd _⟩

/-- Settles O34: ACPERM writes its source with the permissions `acperm_reduce` leaves, a set that an AP value encodes. -/
theorem acpermReducesPermissions : Obligations.AcpermReducesPermissions := by
  intro p h cd cs1 rs2
  have hu := usefulSet_acpermReduce p.format.mxlen ((h.readC cs1).perms.inter (maskPerms (h.readX rs2)))
  have hs : ((h.readC cs1).andPerms (h.readX rs2)).perms = _ := withPerms_perms (h.readC cs1) _ hu
  refine ⟨_, _, rfl, h.onlyWrites_writeC_advance cd _, hs, ?_, withPerms_apLegal _ _, rfl, rfl, rfl⟩
  rw [hs]
  exact withPerms_mbit _ hu

/-! ## The TID registers (R61, R83) -/

theorem Hart.grantsAsr_iff (h : Hart p) :
    h.grantsAsr = true ↔ h.pcc.tag = true ∧ h.pcc.ct = false ∧ h.pcc.perms.asr = true := by
  simp [Hart.grantsAsr, Cap.isSealed, and_assoc]

/-- Settles O56: by whether the hart has the registers and whether pcc grants ASR. -/
theorem tidWritesNeedAsr : Obligations.TidWritesNeedAsr := by
  refine fun p h t => ⟨fun hn => ?_, fun old hs => ⟨?_, fun ht hct ha => ?_, fun hd => ?_⟩⟩
  · simp [Hart.readTid, Hart.writeTid, hn]
  · simp [Hart.readTid, hs]
  · simp [Hart.writeTid, hs, h.grantsAsr_iff.2 ⟨ht, hct, ha⟩]
  · have hg : h.grantsAsr ≠ true := fun hg => by
      obtain ⟨ht, hct, ha⟩ := h.grantsAsr_iff.1 hg
      simp [ht, hct, ha] at hd
    simp [Hart.writeTid, hs, hg]

end Machine

end Sys2Proof
end

section

/-! The decoded bounds of a capability (41_bounds.md R87 to R104): which are malformed, where they lie, how long they are, which
are infinite, and which addresses keep them. -/

namespace Sys2Proof

/-! ## The exponent and malformed bounds (R88, R89, R94) -/

section
variable {f : Format} (c : Cap f)

theorem exponent_of_ef (he : c.ef = true) : c.exponent = 0 := by simp [Cap.exponent, he]

theorem exponent_of_not_ef (he : c.ef = false) : c.exponent = (f.mxlen.capMaxE : Int) - c.eStored := by
  simp [Cap.exponent, he]

/-- The stored exponent is an EW-bit number. -/
theorem eStored_lt : c.eStored < 2 ^ f.mxlen.ew := by
  have hl := c.l8.isLt
  have ht := c.te.isLt
  have hb := c.be.isLt
  unfold Cap.eStored
  rcases f with ⟨x, n⟩
  cases x <;> simp only [Mxlen.l8Width, Mxlen.half, Mxlen.ew] at hl ht hb ⊢ <;> omega

theorem malformed_of_ef (he : c.ef = true) : c.malformed = false := by simp [Cap.malformed, he]

/-- R94 with EF=0, in terms of the stored exponent: the two largest exponents restrict B, and the smallest ones do not decode. -/
theorem malformed_iff_eStored (he : c.ef = false) :
    c.malformed = true ↔ (c.eStored = 0 ∧ c.decB ≠ 0) ∨ (c.eStored = 1 ∧ 2 ^ (f.mxlen.mw - 1) ≤ c.decB) ∨
      f.mxlen.capMaxE < c.eStored ∨ (c.eStored = f.mxlen.capMaxE ∧ f.mxlen = .rv32) := by
  have hmax : (f.mxlen.capMaxE : Int) - c.eStored = f.mxlen.capMaxE ↔ c.eStored = 0 := by omega
  have hnext : (f.mxlen.capMaxE : Int) - c.eStored = f.mxlen.capMaxE - 1 ↔ c.eStored = 1 := by omega
  have hneg : (f.mxlen.capMaxE : Int) - c.eStored < 0 ↔ f.mxlen.capMaxE < c.eStored := by omega
  have hzero : (f.mxlen.capMaxE : Int) - c.eStored = 0 ↔ c.eStored = f.mxlen.capMaxE := by omega
  have htop : c.decB / 2 ^ (f.mxlen.mw - 1) ≠ 0 ↔ 2 ^ (f.mxlen.mw - 1) ≤ c.decB := by
    rw [Nat.div_ne_zero_iff, and_iff_right (Nat.two_pow_pos _).ne']
  simp only [Cap.malformed, Cap.malformedMsb, Cap.malformedLsb, exponent_of_not_ef c he, hmax, hnext, hneg, hzero, htop, he,
    Bool.not_false, Bool.true_and, Bool.or_eq_true, Bool.and_eq_true, decide_eq_true_eq, or_assoc]

/-- CAP_MAX_E is the exponent of EF=0 with the stored exponent 0 alone. -/
theorem exponent_eq_capMaxE_iff : c.exponent = f.mxlen.capMaxE ↔ c.ef = false ∧ c.eStored = 0 := by
  have hpos : 0 < f.mxlen.capMaxE := by cases f.mxlen <;> decide
  cases he : c.ef
  · rw [exponent_of_not_ef c he, and_iff_right rfl]
    omega
  · rw [exponent_of_ef c he]
    simp only [Bool.true_eq_false, false_and, iff_false]
    omega

/-- The exponent of any bounds, malformed or not (R89): CAP_MAX_E less an EW-bit number. -/
theorem exponent_mem_range :
    (f.mxlen.capMaxE : Int) - (2 ^ f.mxlen.ew - 1 : Nat) ≤ c.exponent ∧ c.exponent ≤ f.mxlen.capMaxE := by
  have hs := eStored_lt c
  have hcap : f.mxlen.capMaxE < 2 ^ f.mxlen.ew := by cases f.mxlen <;> decide
  cases he : c.ef
  · rw [exponent_of_not_ef c he]
    omega
  · rw [exponent_of_ef c he]
    omega

end

/-- Settles O15: with EF=0 by the stored exponent, each clause a row of `malformed_iff_eStored`. -/
theorem malformedBoundsClassified : Obligations.MalformedBoundsClassified := by
  intro f c
  refine ⟨malformed_of_ef c, fun he hx hs => ?_, fun he hx hs => ?_, fun he hs => ?_, fun he hs => ?_, fun he hx hlo hhi => ?_,
    fun he hx hlo hhi => ?_, bounds_malformed c⟩
  · refine (malformed_iff_eStored c he).2 (.inr (.inr ?_))
    simp only [hx, Mxlen.capMaxE, and_true]
    omega
  · refine (malformed_iff_eStored c he).2 (.inr (.inr (.inl ?_)))
    rw [hx]
    exact hs
  · have hcap : 0 < f.mxlen.capMaxE := by cases f.mxlen <;> decide
    rw [Bool.eq_iff_iff, malformed_iff_eStored c he, decide_eq_true_iff, hs]
    omega
  · have hcap : 1 < f.mxlen.capMaxE := by cases f.mxlen <;> decide
    rw [Bool.eq_iff_iff, malformed_iff_eStored c he, decide_eq_true_iff, hs]
    omega
  · simp only [← Bool.not_eq_true, malformed_iff_eStored c he, hx, Mxlen.capMaxE]
    omega
  · simp only [← Bool.not_eq_true, malformed_iff_eStored c he, hx, Mxlen.capMaxE, reduceCtorEq, and_false, or_false]
    omega

/-- Settles O16: the exponent is CAP_MAX_E less an EW-bit number, and not negative for well-formed bounds. -/
theorem exponentRange : Obligations.ExponentRange := by
  intro f c
  have hs := eStored_lt c
  have hrange := exponent_mem_range c
  refine ⟨fun hx => ?_, fun hx => ?_, fun hneg => ?_⟩
  · simp only [hx, Mxlen.ew, Mxlen.capMaxE] at hs hrange
    omega
  · simp only [hx, Mxlen.ew, Mxlen.capMaxE] at hs hrange
    omega
  · by_contra hm
    have := (exponent_range c (Bool.eq_false_of_not_eq_true hm)).1
    omega

/-! ## Where the bounds lie and how long they are (R96, R99, R103) -/

section
variable {f : Format} (c : Cap f)

/-- The fields of T and B with EF=1 and with EF=0 (R87, R90). -/
theorem fields_of_ef (he : c.ef = true) :
    c.decB = c.bstored.toNat ∧ c.tLow = c.tstored.toNat ∧ c.lMsb = c.l8.toNat := by
  simp [Cap.decB, Cap.tLow, Cap.lMsb, he]

theorem fields_of_not_ef (he : c.ef = false) :
    c.decB = clearLow f.mxlen c.bstored.toNat ∧ c.tLow = clearLow f.mxlen c.tstored.toNat ∧ c.lMsb = 1 := by
  simp [Cap.decB, Cap.tLow, Cap.lMsb, he]

/-- T[MW-3:0] is the part of T that is stored. -/
theorem decT_mod : c.decT % 2 ^ (f.mxlen.mw - 2) = c.tLow := by
  rw [Cap.decT, Nat.mul_add_mod', Nat.mod_eq_of_lt (tLow_lt c)]

/-- In both cases of R96 the top is length * 2^E above the base. -/
theorem top_eq_base_add_length (hm : c.malformed = false) :
    c.bounds.top.toNat = c.bounds.base.toNat + c.length * 2 ^ c.exponent.toNat := by
  by_cases he : c.exponent.toNat + f.mxlen.mw ≤ f.mxlen.bits
  · exact (bounds_small c hm he).2
  · exact (bounds_large c hm he).2

theorem top_sub_base (hm : c.malformed = false) :
    c.bounds.top.toNat - c.bounds.base.toNat = c.length * 2 ^ c.exponent.toNat := by
  rw [top_eq_base_add_length c hm, Nat.add_sub_cancel_left]

/-- The length is less than half the window of 2^(E+MW) bytes. -/
theorem scaled_length_lt : c.length * 2 ^ c.exponent.toNat < 2 ^ (c.exponent.toNat + f.mxlen.mw - 1) := by
  have hmw : 1 ≤ f.mxlen.mw := by cases f.mxlen <;> decide
  calc c.length * 2 ^ c.exponent.toNat < 2 ^ (f.mxlen.mw - 1) * 2 ^ c.exponent.toNat :=
        Nat.mul_lt_mul_of_pos_right (length_lt c) (Nat.two_pow_pos _)
    _ = 2 ^ (c.exponent.toNat + f.mxlen.mw - 1) := by rw [← pow_add]; congr 1; omega

/-- Where E + MW ≤ MXLEN, base and top are B * 2^E and T * 2^E modulo 2^(E+MW). -/
theorem bounds_mod_window (hm : c.malformed = false) (he : c.exponent.toNat + f.mxlen.mw ≤ f.mxlen.bits) :
    c.bounds.base.toNat % 2 ^ (c.exponent.toNat + f.mxlen.mw) = c.decB * 2 ^ c.exponent.toNat ∧
    c.bounds.top.toNat % 2 ^ (c.exponent.toNat + f.mxlen.mw) = c.decT * 2 ^ c.exponent.toNat := by
  have hbase : c.bounds.base.toNat % 2 ^ (c.exponent.toNat + f.mxlen.mw) = c.decB * 2 ^ c.exponent.toNat := by
    rw [(bounds_small c hm he).1]
    exact (rawBase_spec f.mxlen _ _ c.address.toNat he (decB_lt c)).2.1
  refine ⟨hbase, ?_⟩
  rw [top_eq_base_add_length c hm, ← Nat.mod_add_mod, hbase, ← Nat.add_mul, Nat.add_comm c.exponent.toNat, pow_add,
    Nat.mul_mod_mul_right, ← decT_eq]

/-- Where E + MW > MXLEN, base and top are B * 2^E and T * 2^E: B + length has no carry out of MW bits, since the top fits in
MXLEN+1 bits. -/
theorem bounds_eq_of_large (hm : c.malformed = false) (he : f.mxlen.bits < c.exponent.toNat + f.mxlen.mw) :
    c.bounds.base.toNat = c.decB * 2 ^ c.exponent.toNat ∧ c.bounds.top.toNat = c.decT * 2 ^ c.exponent.toNat := by
  obtain ⟨hbase, htop⟩ := bounds_large c hm (Nat.not_le.2 he)
  rw [hbase, ← Nat.add_mul] at htop
  have hlt : c.decB + c.length < 2 ^ f.mxlen.mw := by
    refine Nat.lt_of_mul_lt_mul_right (a := 2 ^ c.exponent.toNat) ?_
    calc (c.decB + c.length) * 2 ^ c.exponent.toNat < 2 ^ (f.mxlen.bits + 1) := htop ▸ c.bounds.top.isLt
      _ ≤ 2 ^ (f.mxlen.mw + c.exponent.toNat) := Nat.pow_le_pow_right (by decide) (by omega)
      _ = 2 ^ f.mxlen.mw * 2 ^ c.exponent.toNat := pow_add ..
  rw [decT_eq, Nat.mod_eq_of_lt hlt]
  exact ⟨hbase, htop⟩

end

/-- Settles O17: the length in units of 2^E, and its two parts by `length_eq`. -/
theorem lengthIsTheScaledDifference : Obligations.LengthIsTheScaledDifference := by
  intro f c hm
  rw [top_sub_base c hm]
  refine ⟨rfl, fun he => ?_, fun he => ?_⟩
  · obtain ⟨hB, hT, hL⟩ := fields_of_ef c he
    rw [length_eq, exponent_of_ef c he, hT, hL, Cap.bLow, hB, Int.toNat_zero, pow_zero, Nat.mul_one]
  · obtain ⟨hB, hT, hL⟩ := fields_of_not_ef c he
    rw [length_eq, hT, hL, Cap.bLow, hB, Nat.one_mul]
    rfl

/-- Settles O18: the stored fields by EF, the bounds by whether the window fits in the address space. -/
theorem boundsSubstituteTheStoredFields : Obligations.BoundsSubstituteTheStoredFields := by
  intro f c hm
  refine ⟨fun he => ?_, fun he => ?_, bounds_mod_window c hm, bounds_eq_of_large c hm⟩
  · obtain ⟨hB, hT, -⟩ := fields_of_ef c he
    exact ⟨hB, (decT_mod c).trans hT⟩
  · obtain ⟨hB, hT, -⟩ := fields_of_not_ef c he
    exact ⟨hB, (decT_mod c).trans hT⟩

/-- Settles O19: the top is length * 2^E above the base, and the length is 0 where T = B. -/
theorem baseIsAtMostTop : Obligations.BaseIsAtMostTop := by
  intro f c
  refine ⟨?_, fun hm => ?_, fun hTB hL => ?_⟩
  · cases hm : c.malformed
    · rw [top_eq_base_add_length c hm]
      exact Nat.le_add_right _ _
    · rw [(bounds_malformed c hm).1]
      exact Nat.zero_le _
  · rw [top_sub_base c hm]
    exact scaled_length_lt c
  · have he : c.ef = true := by
      by_contra he
      rw [(fields_of_not_ef c (Bool.eq_false_of_not_eq_true he)).2.2] at hL
      exact Nat.one_ne_zero hL
    have hlen : c.length = 0 := by rw [Cap.length, hTB, Nat.add_sub_cancel_left, Nat.mod_self]
    have hbt : c.bounds.base.toNat = c.bounds.top.toNat := by
      rw [top_eq_base_add_length c (malformed_of_ef c he), hlen, Nat.zero_mul, Nat.add_zero]
    refine ⟨he, hbt, fun addr n hn => ?_⟩
    rw [← Bool.not_eq_true]
    simp only [Cap.inBounds, Bool.and_eq_true, decide_eq_true_eq]
    omega

/-! ## Infinite bounds (R98, R102) -/

section
variable {f : Format} (c : Cap f)

/-- With the largest exponent, well-formed bounds have B = 0, so no carry, and T has 01 above its stored part. -/
theorem fields_of_capMaxE (hE : c.exponent = f.mxlen.capMaxE) (hm : c.malformed = false) :
    c.decB = 0 ∧ c.lCout = 0 ∧ c.decT = 2 ^ (f.mxlen.mw - 2) + c.tLow := by
  obtain ⟨he, hs⟩ := (exponent_eq_capMaxE_iff c).1 hE
  have hB : c.decB = 0 := by
    by_contra hB
    exact Bool.eq_false_iff.1 hm ((malformed_iff_eStored c he).2 (.inl ⟨hs, hB⟩))
  have hC : c.lCout = 0 := by rw [lCout_eq, Cap.bLow, hB, Nat.zero_mod, if_neg (Nat.not_lt_zero _)]
  refine ⟨hB, hC, ?_⟩
  rw [Cap.decT, hB, hC, (fields_of_not_ef c he).2.2, Nat.zero_div]
  exact congrArg (· + c.tLow) (Nat.one_mul _)

/-- With the largest exponent, well-formed bounds are from 0 to 2^MXLEN or beyond. -/
theorem bounds_of_capMaxE (hE : c.exponent = f.mxlen.capMaxE) (hm : c.malformed = false) :
    c.bounds.base.toNat = 0 ∧ c.bounds.top.toNat = 2 ^ f.mxlen.bits + c.tLow * 2 ^ f.mxlen.capMaxE := by
  obtain ⟨hB, -, hT⟩ := fields_of_capMaxE c hE hm
  have hlarge : f.mxlen.bits < f.mxlen.capMaxE + f.mxlen.mw := by cases f.mxlen <;> decide
  have hbits : f.mxlen.mw - 2 + f.mxlen.capMaxE = f.mxlen.bits := by cases f.mxlen <;> decide
  have hE' : c.exponent.toNat = f.mxlen.capMaxE := by omega
  obtain ⟨hbase, htop⟩ := bounds_eq_of_large c hm (hE' ▸ hlarge)
  rw [hbase, htop, hB, hT, hE', Nat.zero_mul, Nat.add_mul, ← pow_add, hbits]
  exact ⟨rfl, rfl⟩

/-- Bounds from 0 to 2^MXLEN or beyond need the largest exponent: with a smaller one the length is below 2^MXLEN. -/
theorem capMaxE_of_bounds (hbase : c.bounds.base.toNat = 0) (htop : 2 ^ f.mxlen.bits ≤ c.bounds.top.toNat) :
    c.exponent = f.mxlen.capMaxE ∧ c.malformed = false := by
  have hm : c.malformed = false := by
    by_contra hm
    rw [(bounds_malformed c (Bool.eq_true_of_not_eq_false hm)).2] at htop
    exact (Nat.two_pow_pos _).not_ge htop
  rw [top_eq_base_add_length c hm, hbase, Nat.zero_add] at htop
  have hlt := (Nat.pow_lt_pow_iff_right (by decide)).1 (htop.trans_lt (scaled_length_lt c))
  have hcap : f.mxlen.capMaxE + f.mxlen.mw = f.mxlen.bits + 2 := by cases f.mxlen <;> decide
  obtain ⟨h0, hmax⟩ := exponent_range c hm
  exact ⟨by omega, hm⟩

end

/-- Settles O20: the two directions are `bounds_of_capMaxE` and `capMaxE_of_bounds`. -/
theorem infiniteBoundsCharacterised : Obligations.InfiniteBoundsCharacterised := by
  intro f c
  refine ⟨⟨fun ⟨hE, hm⟩ => ?_, fun ⟨hbase, htop⟩ => capMaxE_of_bounds c hbase htop⟩, (exponent_eq_capMaxE_iff c).1,
    fun hE hm => ?_, (wholeSpace_of_zero_fields (c := Cap.null f) rfl rfl rfl rfl).2.2.2,
    fun hybrid => (wholeSpace_of_zero_fields (c := Cap.infinite f hybrid) rfl rfl rfl rfl).2.2.2⟩
  · obtain ⟨hbase, htop⟩ := bounds_of_capMaxE c hE hm
    exact ⟨hbase, htop ▸ Nat.le_add_right _ _⟩
  · obtain ⟨hB, hC, hT⟩ := fields_of_capMaxE c hE hm
    refine ⟨hB, hC, ?_, (bounds_of_capMaxE c hE hm).2⟩
    rw [hT, Nat.add_div_left _ (Nat.two_pow_pos _), Nat.div_eq_of_lt (tLow_lt c)]

/-! ## Roaming (R101) -/

/-- The address of an integer is that integer modulo 2^n. -/
theorem toNat_ofInt_eq_add_mul (n : Nat) (z : Int) :
    ∃ k : Int, ((BitVec.ofInt n z).toNat : Int) = z + k * (2 ^ n : Nat) := by
  obtain ⟨k, hk, -⟩ := Arith.emod_toNat_spec (2 ^ n) (Nat.two_pow_pos n) z
  exact ⟨k, by rw [BitVec.toNat_ofInt]; exact hk⟩

/-- Settles O21: the roaming addresses lie in the window, since the top is less than two quarters of it above the base. -/
theorem roamingKeepsBounds : Obligations.RoamingKeepsBounds := by
  intro f c z hm he hlow hhigh
  obtain ⟨k, hk⟩ := toNat_ofInt_eq_add_mul f.mxlen.bits z
  refine bounds_withAddress_of_window c hm hk fun _ => ?_
  have hmw : 2 ≤ f.mxlen.mw := by cases f.mxlen <;> decide
  have hquarter : (2 : Nat) ^ (c.exponent.toNat + f.mxlen.mw) = 2 ^ (c.exponent.toNat + f.mxlen.mw - 2) * 2 ^ 2 := by
    rw [← pow_add]; congr 1; omega
  have htop := top_lt_of_small c hm he
  rw [hquarter]
  zify at htop ⊢
  constructor <;> omega

/-! ## GCBASE (R104) -/

namespace Machine

/-- Settles O33: GCBASE writes the decoded base as an integer, and malformed bounds decode as 0. -/
theorem gcbaseReadsDecodedBase : Obligations.GcbaseReadsDecodedBase := by
  intro p h rd cs1
  have hw := h.onlyWrites_writeC_advance rd (Cap.ofInt p.format (h.readC cs1).bounds.base)
  refine ⟨_, rfl, hw, fun hm => ?_⟩
  refine (congrArg Cap.address hw.result).trans ?_
  rw [(bounds_malformed _ hm).1]
  split <;> rfl

end Machine

end Sys2Proof
end

section

/-! One step (42_address_and_sealing.md R127, R128): the checks of a fetch through pcc, the word at pc and its instruction, and how
pcc moves on. -/

namespace Sys2Proof

/-! ## Words -/

/-- Settles O5: the register-to-register rows test rs2 before they give a CADD. -/
theorem movePatternIsNotCadd : Obligations.MovePatternIsNotCadd := by
  intro x cd cs1
  have hzero : (0#5).toFin = (0 : Reg) := rfl
  simp [decode, decodeOp, hzero, -BitVec.toFin_ofNat]

/-- Four bytes are decoded to nothing where the word they make, little-endian, is (R41, R128). -/
theorem decodeBytes_four_error {d : Decoder} {x : Mxlen} {b0 b1 b2 b3 : Byte} {rest : List Byte} {e : DecodeError}
    (hd : d.decode x (b3 ++ b2 ++ b1 ++ b0) = .error e) : decodeBytes d x (b0 :: b1 :: b2 :: b3 :: rest) = .error e := by
  simp only [decodeBytes, hd]

/-- A byte of a word is that byte of its number. -/
theorem extractLsb'_byte {n : Nat} (v : BitVec n) (k : Nat) :
    v.extractLsb' (8 * k) 8 = BitVec.ofNat 8 (v.toNat / 256 ^ k) := by
  rw [BitVec.extractLsb', Nat.shiftRight_eq_div_pow, Nat.pow_mul]

namespace Machine

variable {p : Params}

/-- The four bytes from a up as a word, little-endian (R41). -/
def Memory.wordAt (m : Memory) (a : Nat) : BitVec 32 :=
  m.readByte (a + 3) ++ m.readByte (a + 2) ++ m.readByte (a + 1) ++ m.readByte a

/-- A word whose bytes stand at a and up is read there. -/
theorem wordAt_of_bytes {m : Memory} {a : Nat} (w : BitVec 32)
    (hb : ∀ k, k < 4 → m.readByte (a + k) = BitVec.ofNat 8 (w.toNat / 256 ^ k)) : m.wordAt a = w := by
  have hb0 : m.readByte a = BitVec.ofNat 8 (w.toNat / 256 ^ 0) := hb 0 (by decide)
  rw [Memory.wordAt, hb 3 (by decide), hb 2 (by decide), hb 1 (by decide), hb0]
  simp only [← extractLsb'_byte]
  exact wordBytes_join w

/-! ## The steps a fetch leads to -/

section
variable {h : Hart p} (hl : p.levels = false) (hx : h.xlen = p.format.mxlen)
include hl hx

/-- The step faults with what the checks of the fetch report. -/
theorem step_of_check_fault {r : Fault} (hk : h.check .fetch h.pcc h.pc.toNat 4 = .fault r) :
    step { params := p, hart := h } = .fault r := by
  simp [step, hl, hx, Hart.fetch, hk]

/-- The step is refused where the checks of the fetch refuse. -/
theorem step_of_check_refuse {r : Refusal} (hk : h.check .fetch h.pcc h.pc.toNat 4 = .refuse r) :
    step { params := p, hart := h } = .refused r := by
  simp [step, hl, hx, Hart.fetch, hk]

section
variable (hk : h.check .fetch h.pcc h.pc.toNat 4 = .pass)
include hk

/-- An allowed fetch in integer mode (R58). -/
theorem step_of_integerMode (hm : (p.hybrid && h.pcc.mbit) = true) :
    step { params := p, hart := h } = .refused .integerMode := by
  simp [step, hl, hx, Hart.fetch, hk, hm]

/-- An allowed fetch of a word that stands for nothing (R57). -/
theorem step_of_undecodable (hm : (p.hybrid && h.pcc.mbit) = false) {e : DecodeError}
    (hd : p.decoder.decode p.format.mxlen (h.mem.wordAt h.pc.toNat) = .error e) :
    step { params := p, hart := h } = .refused (.undecodable e h.pc.toNat) := by
  have hbytes : decodeBytes p.decoder p.format.mxlen (h.mem.bytesAt h.pc.toNat 4) = .error e := decodeBytes_four_error hd
  have hf : h.fetch = .refuse (.undecodable e h.pc.toNat) := by simp [Hart.fetch, hk, hm, hbytes]
  simp [step, hl, hx, hf]

/-- An allowed fetch of a word that stands for an instruction runs it (R128). -/
theorem step_of_decoded (hm : (p.hybrid && h.pcc.mbit) = false) {i : Instr}
    (hd : p.decoder.decode p.format.mxlen (h.mem.wordAt h.pc.toNat) = .ok i) :
    step { params := p, hart := h } = exec i { params := p, hart := h } := by
  have hf : h.fetch = .instr i := (h.fetch_instr_iff i).2 ⟨hk, hm, [], (decodeBytes_four ..).2 hd⟩
  simp [step, hl, hx, hf]

end

end

/-- An aligned fetch ends inside the address space. -/
theorem Hart.pc_add_four_le {h : Hart p} (hmod : h.pc.toNat % 4 = 0) : h.pc.toNat + 4 ≤ 2 ^ p.format.mxlen.bits := by
  have hdvd : 4 ∣ 2 ^ p.format.mxlen.bits := by cases p.format.mxlen <;> decide
  have hlt := h.pc.isLt
  omega

/-- A fetch that pcc authorises passes its checks (R37, R128). -/
theorem Hart.Authorised.check_fetch {h : Hart p} (ha : h.Authorised h.pcc [.x] h.pc.toNat 4) :
    h.check .fetch h.pcc h.pc.toNat 4 = .pass :=
  (h.check_pass_iff ..).2 ⟨ha.tag, ha.unsealed, ha.perms, inBounds_iff.2 ⟨ha.low, ha.high⟩, Hart.pc_add_four_le ha.aligned,
    ha.aligned, (presentRange_iff ..).2 ha.present⟩

/-- Settles O6: the fetch passes its checks and the word decodes. -/
theorem stepRunsDecodedInstruction : Obligations.StepRunsDecodedInstruction :=
  fun _ _ _ hl hx ha hm hd => step_of_decoded hl hx ha.check_fetch hm hd

/-- Settles O7: the grant reports tag, seal and X; then the checks report the bounds, a misaligned pc and absent bytes; then come
the mode and the decoder. -/
theorem fetchIsCheckedThroughPcc : Obligations.FetchIsCheckedThroughPcc := by
  intro p h hl hx s pc word
  have hneeds : h.pcc.perms.x = true → ∀ q ∈ Access.fetch.needs p.withoutC, h.pcc.perms.has q = true := fun hxp q hq => by
    obtain rfl := List.mem_singleton.1 hq
    exact hxp
  refine ⟨fun ht => ?_, fun ht hct => ?_, fun ht hct hxp => ?_, fun ht hct hxp hbounds => ?_,
    fun ht hct hxp hlow hhigh hmod => ?_, fun ht hct hxp hlow hhigh hmod ⟨a, hla, hha, habsent⟩ => ?_,
    fun ha hhyb hmbit => ?_, fun ha hm e hd => step_of_undecodable hl hx ha.check_fetch hm hd,
    fun ha hm i hd => step_of_decoded hl hx ha.check_fetch hm hd⟩
  · exact step_of_check_fault hl hx (h.check_of_violation _ _ (grantViolation_tag _ ht))
  · exact step_of_check_fault hl hx (h.check_of_violation _ _ (grantViolation_seal _ ht hct))
  · have hfirst : (Access.fetch.needs p.withoutC).find? (fun q => !h.pcc.perms.has q) = some .x :=
      List.find?_cons_of_pos (by simp [Perms.has, hxp])
    exact step_of_check_fault hl hx (h.check_of_violation _ _ (grantViolation_permit ht hct hfirst))
  · rw [← inBounds_iff, Bool.not_eq_true] at hbounds
    exact step_of_check_fault hl hx (Hart.check_boundsViolation ht hct (hneeds hxp) nofun hbounds)
  · have hbounds := inBounds_iff.2 ⟨hlow, hhigh⟩
    by_cases hend : pc + 4 ≤ 2 ^ p.format.mxlen.bits
    · exact ⟨_, step_of_check_refuse hl hx (Hart.check_misaligned ht hct (hneeds hxp) hbounds rfl hend hmod)⟩
    · exact ⟨_, step_of_check_refuse hl hx
        (Hart.check_pastAddressSpace ht hct (hneeds hxp) hbounds rfl (Nat.lt_of_not_le hend))⟩
  · have hrange : h.mem.presentRange pc 4 = false := by
      rw [← Bool.not_eq_true, presentRange_iff]
      exact fun hall => absurd (hall a hla hha) (by simp [habsent])
    exact step_of_check_fault hl hx (Hart.check_stuck ht hct (hneeds hxp) (inBounds_iff.2 ⟨hlow, hhigh⟩)
      (Hart.pc_add_four_le hmod) hmod hrange)
  · exact step_of_integerMode hl hx ha.check_fetch (by rw [hhyb, hmbit]; rfl)

/-! ## A placed word (log 7) -/

@[simp] theorem placeWord_pcc (h : Hart p) (w : Nat) : (h.placeWord w).pcc = h.pcc := rfl
@[simp] theorem placeWord_pc (h : Hart p) (w : Nat) : (h.placeWord w).pc = h.pc := rfl
@[simp] theorem placeWord_xlen (h : Hart p) (w : Nat) : (h.placeWord w).xlen = h.xlen := rfl

/-- The four bytes of a placed word exist, whether or not they did before. -/
theorem placeWord_present (h : Hart p) (w : Nat) : (h.placeWord w).mem.presentRange h.pc.toNat 4 = true := by
  unfold Hart.placeWord
  rw [presentRange_map (write_map ..)]
  by_cases hp : h.mem.presentRange h.pc.toNat 4 = true
  · rwa [presentRange_map (m := h.mem) (if_pos hp)]
  · rw [if_neg hp, presentRange_iff]
    intro a hlow hhigh
    simp [Memory.present, hlow, hhigh]

/-- The placed word stands at pc. -/
theorem placeWord_wordAt {h : Hart p} (hm : h.mem.wf p.format.mxlen = true) (w : BitVec 32) :
    (h.placeWord w.toNat).mem.wordAt h.pc.toNat = w := by
  refine wordAt_of_bytes w fun k hk => ?_
  obtain ⟨hrise, -⟩ := (wf_iff _ _).1 hm
  simp only [Hart.placeWord]
  rw [readByte_write (hm := by exact hrise), if_pos (by omega), Nat.add_sub_cancel_left]

/-- Settles O11: the fetch of the placed word is authorised where pcc allows it, and the word is the one that was placed. -/
theorem placedWordIsFetched : Obligations.PlacedWordIsFetched := by
  intro p h w i hl hx hm hmode ht hct hxp hlow hhigh hmod hd
  have hplaced : State.withFetchWord { params := p, hart := h } 32 w =
      { params := p, hart := h.placeWord (BitVec.ofNat 32 w).toNat } := by
    rw [State.withFetchWord, BitVec.toNat_ofNat, Nat.mod_mod]
  have ha : (h.placeWord (BitVec.ofNat 32 w).toNat).Authorised h.pcc [.x] h.pc.toNat 4 :=
    { tag := ht, unsealed := hct, low := hlow, high := hhigh, aligned := hmod
      perms := fun q hq => by rwa [List.mem_singleton.1 hq]
      present := (presentRange_iff ..).1 (placeWord_present h _) }
  rw [hplaced]
  refine step_of_decoded (h := h.placeWord _) hl hx ha.check_fetch hmode ?_
  rwa [placeWord_pc, placeWord_wordAt hm]

/-! ## Sequential advance (R127) -/

/-- Checks before an advance from a hart with the old pcc: what completes has pc moved on by 4. -/
theorem pcc_of_andNext_advance {k : Check} {h g h' : Hart p}
    (hn : liftHart (k.andNext g.advance) = .next { params := p, hart := h' }) (hpcc : g.pcc = h.pcc) :
    h'.pcc = { h.pcc with address := h.pc + 4 } := by
  obtain ⟨-, rfl⟩ := Check.andNext_next_iff.1 (liftHart_eq_next hn)
  rw [Hart.advance_pcc, Hart.pc, hpcc, Hart.pc]

/-- Every instruction but JALR is checks, none for those on registers, before a write of a register or of memory and an advance. -/
theorem exec_pcc_of_not_jalr {h h' : Hart p} {i : Instr} (hi : ∀ cd cs1 imm, i ≠ .jalr cd cs1 imm)
    (hn : exec i { params := p, hart := h } = .next { params := p, hart := h' }) :
    h'.pcc = { h.pcc with address := h.pc + 4 } := by
  cases i with
  | jalr cd cs1 imm => exact absurd rfl (hi cd cs1 imm)
  | gcperm | gcbase => exact pcc_of_andNext_advance (k := .pass) hn (Hart.writeX_pcc ..)
  | acperm | cadd | caddi | scaddr | cbld => exact pcc_of_andNext_advance (k := .pass) hn (Hart.writeC_pcc ..)
  | lb | lh | lw | lbu | lhu => exact pcc_of_andNext_advance hn (Hart.writeX_pcc ..)
  | lwu | ld => exact pcc_of_andNext_advance (onlyRv64_next hn) (Hart.writeX_pcc ..)
  | sb | sh | sw | sc => exact pcc_of_andNext_advance hn rfl
  | sd => exact pcc_of_andNext_advance (onlyRv64_next hn) rfl
  | lc => exact pcc_of_andNext_advance hn (Hart.writeC_pcc ..)

/-- Settles O10: the address of `exec_pcc_of_not_jalr` as a number modulo 2^MXLEN. -/
theorem nonJumpsAdvancePccByFour : Obligations.NonJumpsAdvancePccByFour := by
  intro p h h' i hi hn
  have haddr : h.pc + 4 = BitVec.ofNat p.format.mxlen.bits ((h.pc.toNat + 4) % 2 ^ p.format.mxlen.bits) := by
    apply BitVec.eq_of_toNat_eq
    simp
  rw [exec_pcc_of_not_jalr hi hn, haddr]

end Machine

end Sys2Proof
end

section

/-! Address updates (42_address_and_sealing.md R110 to R115, R121 to R123): the representable range in closed form, and the
instructions that change an address. -/

namespace Sys2Proof

/-! ## The representable range (R110, R113, R114) -/

/-- The window of 2^(E+MW) bytes is four quarters. -/
theorem window_eq_four_quarters (x : Mxlen) (e : Nat) : 2 ^ (e + x.mw) = 4 * 2 ^ (e + x.mw - 2) := by
  have hmw : 2 ≤ x.mw := by cases x <;> decide
  rw [show 4 = 2 ^ 2 from rfl, ← pow_add, Nat.add_sub_cancel' (by omega)]

section
variable {f : Format} (c : Cap f)

/-- How far an address lies above the start of the window, a quarter of it below the base (R110). -/
def Cap.windowOffset (a : XWord f) : Int :=
  (a.toNat : Int) - ((c.bounds.base.toNat : Int) - 2 ^ (c.exponent.toNat + f.mxlen.mw - 2))

/-- An address that keeps the bounds lies in the window, modulo 2^MXLEN (R92, R96). -/
theorem windowOffset_lt_of_bounds_withAddress (hm : c.malformed = false)
    (he : c.exponent.toNat + f.mxlen.mw ≤ f.mxlen.bits) {a : XWord f} (hb : Cap.bounds { c with address := a } = c.bounds) :
    c.windowOffset a % 2 ^ f.mxlen.bits < 2 ^ (c.exponent.toNat + f.mxlen.mw) := by
  obtain ⟨-, -, k, d, hd, hsum⟩ := rawBase_spec f.mxlen c.exponent.toNat c.decB a.toNat he (decB_lt c)
  have hbase : c.bounds.base.toNat = rawBase f.mxlen c.exponent.toNat c.decB a.toNat := by
    rw [← hb]
    exact (bounds_small { c with address := a } hm he).1
  rw [← hbase] at hsum
  have hdX : d < 2 ^ f.mxlen.bits := Nat.lt_of_lt_of_le hd (Nat.pow_le_pow_right (by decide) he)
  have hoff : c.windowOffset a = d + 2 ^ f.mxlen.bits * (-k) := by
    unfold Cap.windowOffset
    linarith
  rw [hoff, Int.add_mul_emod_self_left, Int.emod_eq_of_lt (Int.natCast_nonneg d) (by exact_mod_cast hdX)]
  exact_mod_cast hd

/-- An address in the window, modulo 2^MXLEN, keeps the bounds. -/
theorem bounds_withAddress_of_windowOffset_lt (hm : c.malformed = false) {a : XWord f}
    (hwin : c.exponent.toNat + f.mxlen.mw ≤ f.mxlen.bits →
      c.windowOffset a % 2 ^ f.mxlen.bits < 2 ^ (c.exponent.toNat + f.mxlen.mw)) :
    Cap.bounds { c with address := a } = c.bounds := by
  have hdiv := Int.emod_add_mul_ediv (c.windowOffset a) (2 ^ f.mxlen.bits)
  have hpos : 0 ≤ c.windowOffset a % 2 ^ f.mxlen.bits := Int.emod_nonneg _ (by positivity)
  have hoff : c.windowOffset a =
      (a.toNat : Int) - ((c.bounds.base.toNat : Int) - 2 ^ (c.exponent.toNat + f.mxlen.mw - 2)) := rfl
  refine bounds_withAddress_of_window c hm
    (z := c.bounds.base.toNat - 2 ^ (c.exponent.toNat + f.mxlen.mw - 2) + c.windowOffset a % 2 ^ f.mxlen.bits)
    (k := c.windowOffset a / 2 ^ f.mxlen.bits) ?_ fun he => ?_
  · push_cast
    linarith
  · have hlt := hwin he
    push_cast
    constructor <;> linarith

end

/-- Settles O22: the two directions are the window lemmas; a window of 2^MXLEN bytes or more leaves no address out. -/
theorem representableRangeIsTheWindow : Obligations.RepresentableRangeIsTheWindow := by
  intro f c a' hm
  constructor
  · intro hrep
    by_cases he : f.mxlen.bits ≤ c.exponent.toNat + f.mxlen.mw
    · exact .inl he
    · exact .inr (windowOffset_lt_of_bounds_withAddress c hm (Nat.le_of_not_le he) (of_decide_eq_true hrep).symm)
  · intro hrange
    refine decide_eq_true (bounds_withAddress_of_windowOffset_lt c hm fun he => ?_).symm
    rcases hrange with hlarge | hwin
    · rw [Nat.le_antisymm he hlarge]
      exact Int.emod_lt_of_pos _ (by positivity)
    · exact hwin

/-- Settles O23: the next address is below the end of the window, since the top is less than two quarters of it above the base and
n is at most one. -/
theorem nextLinearInstructionIsRepresentable : Obligations.NextLinearInstructionIsRepresentable := by
  intro f pcc n hm hn hlow hhigh
  obtain ⟨k, hk⟩ := toNat_ofInt_eq_add_mul f.mxlen.bits ((pcc.address.toNat + n : Nat) : Int)
  rw [BitVec.ofInt_natCast, BitVec.ofNat_add, BitVec.ofNat_toNat, BitVec.setWidth_eq] at hk
  refine decide_eq_true (bounds_withAddress_of_window pcc hm hk fun he => ?_).symm
  have htop := top_lt_of_small pcc hm he
  have hquarters := window_eq_four_quarters f.mxlen pcc.exponent.toNat
  have hmw : 2 ≤ f.mxlen.mw := by cases f.mxlen <;> decide
  have hquarter : 2 ^ (f.mxlen.mw - 2) ≤ 2 ^ (pcc.exponent.toNat + f.mxlen.mw - 2) :=
    Nat.pow_le_pow_right (by decide) (by omega)
  rw [hquarters]
  omega

namespace Machine

/-! ## `set_addr` (R111, R112, R115, R117) -/

section
variable {f : Format} (c : Cap f) (a : XWord f)

/-- The tag stays exactly for a tagged, unsealed, well-formed source whose new address decodes the same bounds. -/
theorem setAddr_tag_iff : (c.setAddr a).tag = true ↔
    c.tag = true ∧ c.ct = false ∧ c.malformed = false ∧ (c.setAddr a).bounds = c.bounds := by
  have hb : (c.setAddr a).bounds = Cap.bounds { c with address := a } := rfl
  simp [setAddr_tag, hb, Cap.isSealed, Cap.representable, and_assoc, eq_comm (a := c.bounds)]

/-- Every field but the address and the tag is copied. -/
theorem setAddr_frame : { c.setAddr a with address := c.address, tag := c.tag } = c := rfl

/-- Outside the representable range the address is still the new one, untagged. -/
theorem setAddr_of_bounds_ne {c : Cap f} {a : XWord f} (hb : Cap.bounds { c with address := a } ≠ c.bounds) :
    c.setAddr a = { c with address := a, tag := false } := by
  have hrep : c.representable a = false := decide_eq_false (Ne.symm hb)
  rw [Cap.setAddr, hrep, Bool.and_false]

/-- Inside it a tagged, unsealed, well-formed source only moves. -/
theorem setAddr_of_bounds_eq {c : Cap f} {a : XWord f} (hb : Cap.bounds { c with address := a } = c.bounds)
    (ht : c.tag = true) (hct : c.ct = false) (hm : c.malformed = false) : c.setAddr a = { c with address := a } := by
  have htag : (c.setAddr a).tag = c.tag := ((setAddr_tag_iff c a).2 ⟨ht, hct, hm, hb⟩).trans ht.symm
  rw [Cap.setAddr, ← setAddr_tag, htag]

/-- A malformed source is untagged by any address (R112). -/
theorem setAddr_untagged_of_malformed {c : Cap f} (hm : c.malformed = true) : (c.setAddr a).tag = false := by
  simp [setAddr_tag, hm]

/-- A sealed source is untagged by any address, its own included (R117, log 28). -/
theorem setAddr_untagged_of_sealed {c : Cap f} (hct : c.ct = true) : (c.setAddr a).tag = false := by
  simp [setAddr_tag, Cap.isSealed, hct]

/-- The effective address: the immediate is added as a signed number (R56, R155). -/
theorem effectiveAddress_toNat (imm : Imm12) :
    ((effectiveAddress c imm).toNat : Int) = (c.address.toNat + imm.toInt) % 2 ^ f.mxlen.bits := by
  have hea : effectiveAddress c imm = BitVec.ofInt f.mxlen.bits (c.address.toNat + imm.toInt) := by
    rw [BitVec.ofInt_add, BitVec.ofInt_natCast, BitVec.ofNat_toNat, BitVec.setWidth_eq]
    rfl
  have hpos : (0 : Int) ≤ (c.address.toNat + imm.toInt) % 2 ^ f.mxlen.bits := Int.emod_nonneg _ (by positivity)
  rw [hea, BitVec.toNat_ofInt]
  push_cast
  exact Int.toNat_of_nonneg hpos

end

/-! ## CADD, CADDI and SCADDR (R121 to R123) -/

/-- Settles O35: CADD writes `set_addr` of the sum. -/
theorem caddMovesTheAddress : Obligations.CaddMovesTheAddress := fun _ h cd _ _ =>
  ⟨_, _, rfl, h.onlyWrites_writeC_advance cd _, BitVec.toNat_add .., setAddr_frame .., setAddr_tag_iff ..⟩

/-- Settles O36: CADDI writes `set_addr` of the effective address. -/
theorem caddiMovesTheAddress : Obligations.CaddiMovesTheAddress := fun _ h cd _ _ =>
  ⟨_, _, rfl, h.onlyWrites_writeC_advance cd _, effectiveAddress_toNat .., setAddr_frame .., setAddr_tag_iff ..⟩

/-- Settles O37: SCADDR writes `set_addr` of the register. -/
theorem scaddrReplacesTheAddress : Obligations.ScaddrReplacesTheAddress := fun _ h cd _ _ =>
  ⟨_, _, rfl, h.onlyWrites_writeC_advance cd _, rfl, setAddr_frame .., setAddr_tag_iff ..⟩

variable {p : Params}

/-- CADD, CADDI and SCADDR write `set_addr` of the address each makes. -/
theorem exec_addressUpdate (h : Hart p) {cd cs1 rs2 : Reg} {imm : Imm12} {i : Instr} {a : XWord p.format}
    (hi : (i, a) ∈ [(Instr.cadd cd cs1 rs2, (h.readC cs1).address + h.readX rs2),
      (Instr.caddi cd cs1 imm, (h.readC cs1).address + imm.signExtend p.format.mxlen.bits),
      (Instr.scaddr cd cs1 rs2, h.readX rs2)]) :
    exec i { params := p, hart := h } = .next { params := p, hart := (h.writeC cd ((h.readC cs1).setAddr a)).advance } := by
  simp only [List.mem_cons, Prod.mk.injEq, List.not_mem_nil, or_false] at hi
  obtain ⟨rfl, rfl⟩ | ⟨rfl, rfl⟩ | ⟨rfl, rfl⟩ := hi <;> rfl

/-- Settles O40: what is written is `set_addr` of the new address. -/
theorem leavingTheRepresentableRangeClearsTheTag : Obligations.LeavingTheRepresentableRangeClearsTheTag := by
  intro p h cd cs1 rs2 imm i a' hcd hi src
  have hread : (h.writeC cd (src.setAddr a')).advance.readC cd = src.setAddr a' := h.readC_writeC_same hcd _
  refine ⟨_, exec_addressUpdate h hi, fun hb => ?_, fun hb ht hct hm => ?_⟩
  · rw [hread, setAddr_of_bounds_ne hb]
  · rw [hread, setAddr_of_bounds_eq hb ht hct hm]

end Machine

end Sys2Proof
end

section

/-! Malformed and sealed sources, building and jumping (42_address_and_sealing.md R112, R117, R124 to R126). -/

namespace Sys2Proof.Machine

/-! ## Malformed and sealed sources of an address update (R112, R117) -/

section
variable {p : Params} {h h' : Hart p} {cd cs1 r2 : Reg} {imm : Imm12}

/-- CADD, CADDI and SCADDR that complete wrote an address update of cs1. -/
theorem exec_addressUpdate_next {i : Instr} (hi : i ∈ [Instr.cadd cd cs1 r2, .caddi cd cs1 imm, .scaddr cd cs1 r2])
    (hn : exec i { params := p, hart := h } = .next { params := p, hart := h' }) :
    ∃ a, h' = (h.writeC cd ((h.readC cs1).setAddr a)).advance := by
  have hpair : ∃ a, (i, a) ∈ [(Instr.cadd cd cs1 r2, (h.readC cs1).address + h.readX r2),
      (Instr.caddi cd cs1 imm, (h.readC cs1).address + imm.signExtend p.format.mxlen.bits),
      (Instr.scaddr cd cs1 r2, h.readX r2)] := by
    simp only [List.mem_cons, List.not_mem_nil, or_false] at hi
    rcases hi with rfl | rfl | rfl
    · exact ⟨_, List.mem_cons_self⟩
    · exact ⟨_, List.mem_cons_of_mem _ List.mem_cons_self⟩
    · exact ⟨_, List.mem_cons_of_mem _ (List.mem_cons_of_mem _ List.mem_cons_self)⟩
  obtain ⟨a, ha⟩ := hpair
  exact ⟨a, by simpa [exec_addressUpdate h ha, eq_comm] using hn⟩

/-- ACPERM that completes wrote the reduced cs1. -/
theorem exec_acperm_next (hn : exec (.acperm cd cs1 r2) { params := p, hart := h } = .next { params := p, hart := h' }) :
    h' = (h.writeC cd ((h.readC cs1).andPerms (h.readX r2))).advance :=
  (Host.Outcome.next.inj (liftHart_eq_next hn)).symm

end

/-! ## The target of a jump (R125) -/

/-- Clearing bit 0 gives the even number below or at it. -/
theorem clearBit0_toNat {w : Nat} (a : BitVec w) : (clearBit0 a).toNat = a.toNat / 2 * 2 := by
  apply Nat.eq_of_testBit_eq
  intro i
  rw [clearBit0, BitVec.testBit_toNat, Nat.mul_comm]
  cases i with
  | zero => simp [BitVec.getLsbD_one]
  | succ i =>
    rw [Nat.testBit_succ, Nat.mul_div_cancel_left _ (by decide), ← Nat.testBit_succ, BitVec.testBit_toNat]
    by_cases hi : i + 1 < w
    · simp [hi]
    · simp [BitVec.getLsbD_of_ge a (i + 1) (by omega)]

/-- Bit 0 is set in an odd number. -/
theorem getLsbD_zero_iff {w : Nat} (a : BitVec w) : a.getLsbD 0 = true ↔ a.toNat % 2 = 1 := by
  rw [BitVec.getLsbD, Nat.testBit_zero, decide_eq_true_eq]

section
variable {f : Format} {target : Cap f} {imm : Imm12}

/-- A sentry of odd address at offset 0 has no target. -/
theorem jumpTarget_odd (hct : target.ct = true) (himm : imm = 0) (hodd : target.address.toNat % 2 = 1) :
    jumpTarget target imm = none := by
  simp [jumpTarget, Cap.isSealed, hct, himm, (getLsbD_zero_iff _).2 hodd]

/-- Any other sentry at offset 0 is unsealed. -/
theorem jumpTarget_unseal (hct : target.ct = true) (himm : imm = 0) (heven : ¬ target.address.toNat % 2 = 1) :
    jumpTarget target imm = some { target with ct := false } := by
  rw [← getLsbD_zero_iff, Bool.not_eq_true] at heven
  simp [jumpTarget, Cap.isSealed, hct, himm, heven]

/-- What is no sentry at offset 0 moves as an address update, to an even address. -/
theorem jumpTarget_move (hmove : ¬ (target.ct = true ∧ imm = 0)) :
    jumpTarget target imm = some (target.setAddr (clearBit0 (effectiveAddress target imm))) := by
  simp only [jumpTarget, Cap.isSealed, Bool.and_eq_true, decide_eq_true_eq, if_neg hmove]

/-- Every jump but one to a sentry of odd address at offset 0 has a target: the unsealed sentry, or the moved capability. -/
theorem jumpTarget_exists (hnot : ¬ (target.ct = true ∧ imm = 0 ∧ target.address.toNat % 2 = 1)) :
    ∃ new, jumpTarget target imm = some new ∧ (target.ct = true → imm = 0 → new = { target with ct := false }) ∧
      (¬ (target.ct = true ∧ imm = 0) → new = target.setAddr (clearBit0 (effectiveAddress target imm))) := by
  by_cases hunseal : target.ct = true ∧ imm = 0
  · obtain ⟨hct, himm⟩ := hunseal
    exact ⟨_, jumpTarget_unseal hct himm fun hodd => hnot ⟨hct, himm, hodd⟩, fun _ _ => rfl, absurd ⟨hct, himm⟩⟩
  · exact ⟨_, jumpTarget_move hunseal, fun hct himm => absurd ⟨hct, himm⟩ hunseal, fun _ => rfl⟩

/-- The address a moving jump goes to. -/
theorem clearBit0_effectiveAddress_toNat : ((clearBit0 (effectiveAddress target imm)).toNat : Int) =
    (target.address.toNat + imm.toInt) % 2 ^ f.mxlen.bits / 2 * 2 := by
  rw [clearBit0_toNat, ← effectiveAddress_toNat]
  push_cast
  rfl

end

variable {p : Params}

/-- JALR to a target completes (R125, R126). -/
theorem exec_jalr_of_target {h : Hart p} {cd cs1 : Reg} {imm : Imm12} {new : Cap p.format}
    (hj : jumpTarget (h.readC cs1) imm = some new) :
    exec (.jalr cd cs1 imm) { params := p, hart := h } =
      .next { params := p, hart := { h.writeC cd (h.pcc.sealLink h.nextPc) with pcc := new } } := by
  simp only [exec, execJalr, hj, liftHart_next]

/-- JALR without a target is refused (log 23). -/
theorem exec_jalr_of_no_target {h : Hart p} {cd cs1 : Reg} {imm : Imm12} (hj : jumpTarget (h.readC cs1) imm = none) :
    exec (.jalr cd cs1 imm) { params := p, hart := h } = .refused (.oddSentry (h.readC cs1).address.toNat) := by
  simp only [exec, execJalr, hj]

/-- JALR that completes and does not unseal moved pcc to an address update of cs1. -/
theorem exec_jalr_move_next {h h' : Hart p} {cd cs1 : Reg} {imm : Imm12} (hmove : ¬ ((h.readC cs1).ct = true ∧ imm = 0))
    (hn : exec (.jalr cd cs1 imm) { params := p, hart := h } = .next { params := p, hart := h' }) :
    h'.pcc = (h.readC cs1).setAddr (clearBit0 (effectiveAddress (h.readC cs1) imm)) := by
  obtain ⟨new, hj, rfl⟩ := exec_jalr_next hn
  exact Option.some.inj (hj.symm.trans (jumpTarget_move hmove))

/-- Settles O39: the link is the one register written, and pcc is the jump's target. -/
theorem jalrJumpsAndLinks : Obligations.JalrJumpsAndLinks := by
  intro p h cd cs1 imm
  refine ⟨fun hct himm hodd => exec_jalr_of_no_target (jumpTarget_odd hct himm hodd), fun hnot => ?_⟩
  obtain ⟨new, hj, hunsealed, hmoved⟩ := jumpTarget_exists hnot
  refine ⟨_, exec_jalr_of_target hj, fun hcd => h.readC_writeC_same hcd _, fun r hr => h.readC_writeC_ne hr _,
    Hart.readC_zero _, Hart.writeC_mem .., Hart.writeC_tid .., Hart.writeC_xlen .., hunsealed, fun hmove => ?_⟩
  obtain rfl := hmoved hmove
  exact ⟨clearBit0_effectiveAddress_toNat, setAddr_frame .., setAddr_tag_iff ..⟩

/-- Settles O41: each of the four is an address update, which a malformed source does not survive. -/
theorem addressUpdatesOfMalformedSourcesAreUntagged : Obligations.AddressUpdatesOfMalformedSourcesAreUntagged := by
  intro p h h' cd cs1 r2 imm hm
  refine ⟨fun i hi hn => ?_, fun hmove hn => ?_⟩
  · obtain ⟨a, rfl⟩ := exec_addressUpdate_next hi hn
    exact h.readC_writeC_untagged cd (setAddr_untagged_of_malformed a hm)
  · rw [exec_jalr_move_next hmove hn]
    exact setAddr_untagged_of_malformed _ hm

/-- Settles O43: a reduction and an address update copy CT and lose the tag of a sealed source. -/
theorem sealedSourcesLoseTheTag : Obligations.SealedSourcesLoseTheTag := by
  intro p h h' cd cs1 r2 imm hct
  have hwritten : ∀ v : Cap p.format, v.tag = false → v.ct = true →
      ((h.writeC cd v).advance.readC cd).tag = false ∧ (cd ≠ 0 → ((h.writeC cd v).advance.readC cd).ct = true) :=
    fun v htag hv => ⟨h.readC_writeC_untagged cd htag, fun hcd => (congrArg Cap.ct (h.readC_writeC_same hcd v)).trans hv⟩
  refine ⟨fun i hi hn => ?_, fun himm hn => ?_⟩
  · rcases List.mem_cons.1 hi with rfl | hi
    · obtain rfl := exec_acperm_next hn
      have htag : ((h.readC cs1).andPerms (h.readX r2)).tag = false := by simp [Cap.andPerms, Cap.isSealed, hct]
      exact hwritten _ htag hct
    · obtain ⟨a, rfl⟩ := exec_addressUpdate_next hi hn
      exact hwritten _ (setAddr_untagged_of_sealed a hct) hct
  · rw [exec_jalr_move_next (fun hunseal => himm hunseal.2) hn]
    exact ⟨setAddr_untagged_of_sealed _ hct, hct⟩

/-! ## CBLD (R124) -/

/-- The conditions that follow from the source, in their parts. -/
theorem cbldNecessary_iff {f : Format} {hybrid : Bool} {auth src : Cap f} :
    cbldNecessary hybrid auth src = true ↔
      auth.tag = true ∧ auth.ct = false ∧ src.malformed = false ∧ src.reserved = 0 ∧ src.apLegal = true ∧
      (src.mbit = true → hybrid = true ∧ src.perms.x = true) ∧
      auth.bounds.base.toNat ≤ src.bounds.base.toNat ∧ src.bounds.top.toNat ≤ auth.bounds.top.toNat ∧
      (∀ q, src.perms.has q = true → auth.perms.has q = true) ∧ src.sdp &&& ~~~ auth.sdp = 0 := by
  simp [cbldNecessary, Cap.encodingLegal, Cap.mLegal, Cap.isSealed, Perms.subset_iff, BitVec.le_def, and_assoc,
    imp_iff_not_or]

/-- Settles O38: CBLD writes its source rebuilt, tagged under the necessary conditions and `cbld_extra`. -/
theorem cbldRebuildsWithinItsAuthority : Obligations.CbldRebuildsWithinItsAuthority := by
  intro p h cd cs1 cs2
  refine ⟨_, _, rfl, h.onlyWrites_writeC_advance cd _, rfl, rfl, ?_⟩
  simp only [Cap.build, Bool.and_eq_true, cbldNecessary_iff, and_assoc]

end Sys2Proof.Machine
end

section

/-! Loads and stores that complete (43_memory_access.md R155 to R159): an authorised access passes its checks; what is loaded is the
bytes at the address, the lowest the least significant, and what is stored is read back there. -/

namespace Sys2Proof.Machine

variable {p : Params}

/-! ## The forms for MXLEN=64 only (R156, R157) -/

theorem onlyRv64_of_rv32 {s : State} (hx : s.params.format.mxlen = .rv32) (o : Host.Outcome State Fault Refusal) :
    onlyRv64 s o = .refused .rv64Only := by
  rw [onlyRv64, hx]

theorem onlyRv64_of_rv64 {s : State} (hx : s.params.format.mxlen = .rv64) (o : Host.Outcome State Fault Refusal) :
    onlyRv64 s o = o := by
  rw [onlyRv64, hx]

/-- Settles O55: each of the three runs for MXLEN=64 only. -/
theorem doubleWordFormsNeedMxlen64 : Obligations.DoubleWordFormsNeedMxlen64 := by
  intro p h r cs1 imm i hx hi
  simp only [List.mem_cons, List.not_mem_nil, or_false] at hi
  rcases hi with rfl | rfl | rfl <;> exact onlyRv64_of_rv32 hx _

/-! ## Authorised accesses -/

/-- An aligned access of a size that divides the size of a capability ends inside the address space, whatever the access. -/
theorem aligned_end_le {n : Nat} (hn : n ∣ p.format.mxlen.capBytes) {ea : XWord p.format} (hmod : ea.toNat % n = 0) :
    ea.toNat + n ≤ 2 ^ p.format.mxlen.bits :=
  Access.Performs.end_le (access := .intLoad)
    (a := { kind := .load, integer := true, needs := [.r], auth := 0, off := 0, size := n }) ⟨rfl, rfl, rfl, by decide, hn⟩ hmod

/-- An authorised access whose authority grants all the access needs passes its checks (R37). -/
theorem Hart.Authorised.check_pass {h : Hart p} {auth : Cap p.format} {needs : List Perm} {ea : XWord p.format} {n : Nat}
    (ha : h.Authorised auth needs ea.toNat n) {access : Access}
    (hperms : ∀ q ∈ access.needs p.withoutC, auth.perms.has q = true) (hn : n ∣ p.format.mxlen.capBytes) :
    h.check access auth ea.toNat n = .pass :=
  (h.check_pass_iff ..).2 ⟨ha.tag, ha.unsealed, hperms, inBounds_iff.2 ⟨ha.low, ha.high⟩, aligned_end_le hn ha.aligned,
    ha.aligned, (presentRange_iff ..).2 ha.present⟩

/-- What a capability access needs is granted by one permission, and C where its lack faults (R39). -/
theorem has_of_mem_capability_needs {withoutC : WithoutC} {s : Perms} {q₀ : Perm} (h₀ : s.has q₀ = true)
    (hc : withoutC = .fault → s.c = true) : ∀ q ∈ if withoutC = .fault then [q₀, .c] else [q₀], s.has q = true := by
  split
  · rename_i hfault
    simpa using ⟨h₀, hc hfault⟩
  · simpa using h₀

/-- The tag of a moved capability, with or without C (R39). -/
theorem tagWithC_eq {f : Format} (auth v : Cap f) : tagWithC auth v = { v with tag := v.tag && auth.perms.c } := by
  unfold tagWithC
  cases auth.perms.c <;> simp

/-! ## The loaded number and its bytes (R41) -/

/-- A number loaded from a + 1 up beside the byte at a is the number loaded from a up. -/
theorem toNat_append_readByte {m : Memory} {a n w : Nat} {v : BitVec w} (hv : v.toNat = m.load (a + 1) n) :
    (v ++ m.readByte a).toNat = m.load a (n + 1) := by
  rw [BitVec.toNat_append, Nat.shiftLeft_eq, ← Nat.mul_comm (2 ^ 8), ← Nat.two_pow_add_eq_or_of_lt (m.readByte a).isLt, hv,
    Memory.load, Nat.add_comm]

theorem toNat_readByte_eq_load (m : Memory) (a : Nat) : (m.readByte a).toNat = m.load a 1 := rfl

theorem toNat_two_bytes (m : Memory) (a : Nat) : (m.readByte (a + 1) ++ m.readByte a).toNat = m.load a 2 :=
  toNat_append_readByte (toNat_readByte_eq_load m (a + 1))

theorem toNat_wordAt_eq_load (m : Memory) (a : Nat) : (m.wordAt a).toNat = m.load a 4 :=
  toNat_append_readByte (toNat_append_readByte (toNat_two_bytes m (a + 2)))

/-- A byte of the loaded number is the byte in memory. -/
theorem ofNat_load_div (m : Memory) (a : Nat) {n i : Nat} (hi : i < n) :
    BitVec.ofNat 8 (m.load a n / 256 ^ i) = m.readByte (a + i) := by
  obtain ⟨k, rfl⟩ := Nat.exists_eq_add_of_lt hi
  rw [Nat.add_assoc, load_add, Nat.add_mul_div_left _ _ (by positivity), Nat.div_eq_of_lt (load_lt m a i), Nat.zero_add,
    Memory.load]
  apply BitVec.eq_of_toNat_eq
  rw [BitVec.toNat_ofNat, Nat.add_mul_mod_self_left, Nat.mod_eq_of_lt (m.readByte (a + i)).isLt]

/-- A loaded number as n bytes of bits, extended as the load says. -/
theorem extendLoad_of_toNat (f : Format) {m : Memory} {a n : Nat} (signed : Bool) {v : BitVec (8 * n)}
    (hv : v.toNat = m.load a n) :
    extendLoad f n signed (m.load a n) = if signed then v.signExtend f.mxlen.bits else v.setWidth f.mxlen.bits := by
  rw [extendLoad, ← hv, BitVec.ofNat_toNat, BitVec.setWidth_eq]

/-- A load of MXLEN bits is not extended. -/
theorem extendLoad_toNat_of_full {f : Format} {n : Nat} (hn : 8 * n = f.mxlen.bits) (signed : Bool) {v : Nat}
    (hv : v < 256 ^ n) : (extendLoad f n signed v).toNat = v := by
  rw [show 256 = 2 ^ 8 from rfl, ← Nat.pow_mul] at hv
  have hle : f.mxlen.bits ≤ 8 * n := Nat.le_of_eq hn.symm
  cases signed <;> simp [extendLoad, BitVec.signExtend_eq_setWidth_of_le _ hle, ← hn, Nat.mod_eq_of_lt hv]

/-! ## Integer loads (R156) -/

/-- An authorised LoadInt completes and writes the extended number. -/
theorem Hart.loadInt_of_authorised {h : Hart p} {cs1 : Reg} {imm : Imm12} {n : Nat} (hn : n ∣ p.format.mxlen.capBytes)
    (ha : h.Authorised (h.readC cs1) [.r] (effectiveAddress (h.readC cs1) imm).toNat n) (rd : Reg) (signed : Bool) :
    h.loadInt rd cs1 imm n signed = .next
      (h.writeX rd (extendLoad p.format n signed (h.mem.load (effectiveAddress (h.readC cs1) imm).toNat n))).advance := by
  rw [Hart.loadInt, ha.check_pass (access := .intLoad) ha.perms hn, Check.pass_andNext]

/-- An authorised LoadInt of the bits v writes v extended, and nothing else. -/
theorem Hart.loadInt_onlyWrites {h : Hart p} {cs1 : Reg} {imm : Imm12} {n : Nat} (hn : n ∣ p.format.mxlen.capBytes)
    (ha : h.Authorised (h.readC cs1) [.r] (effectiveAddress (h.readC cs1) imm).toNat n) (rd : Reg) (signed : Bool)
    {v : BitVec (8 * n)} (hv : v.toNat = h.mem.load (effectiveAddress (h.readC cs1) imm).toNat n) :
    ∃ h', liftHart (h.loadInt rd cs1 imm n signed) = .next { params := p, hart := h' } ∧
      h.OnlyWrites h' rd
        (Cap.ofInt p.format (if signed then v.signExtend p.format.mxlen.bits else v.setWidth p.format.mxlen.bits)) := by
  rw [Hart.loadInt_of_authorised hn ha, extendLoad_of_toNat p.format signed hv]
  exact ⟨_, rfl, h.onlyWrites_writeC_advance rd _⟩

/-- Settles O44: a load of one byte. -/
theorem byteLoadsComplete : Obligations.ByteLoadsComplete := by
  intro p h rd cs1 imm ea ha
  obtain ⟨d1, -⟩ := size_dvd p.format.mxlen
  obtain ⟨h1, hx1, hw1⟩ := Hart.loadInt_onlyWrites d1 ha rd true (toNat_readByte_eq_load h.mem ea)
  obtain ⟨h2, hx2, hw2⟩ := Hart.loadInt_onlyWrites d1 ha rd false (toNat_readByte_eq_load h.mem ea)
  exact ⟨h1, h2, hx1, hw1, hx2, hw2⟩

/-- Settles O45: a load of two bytes. -/
theorem halfLoadsComplete : Obligations.HalfLoadsComplete := by
  intro p h rd cs1 imm ea v ha
  obtain ⟨-, d2, -⟩ := size_dvd p.format.mxlen
  obtain ⟨h1, hx1, hw1⟩ := Hart.loadInt_onlyWrites d2 ha rd true (toNat_two_bytes h.mem ea)
  obtain ⟨h2, hx2, hw2⟩ := Hart.loadInt_onlyWrites d2 ha rd false (toNat_two_bytes h.mem ea)
  exact ⟨h1, h2, hx1, hw1, hx2, hw2⟩

/-- Settles O46: a load of four bytes. -/
theorem wordLoadsComplete : Obligations.WordLoadsComplete := by
  intro p h rd cs1 imm ea v ha
  obtain ⟨-, -, d4, -⟩ := size_dvd p.format.mxlen
  refine ⟨Hart.loadInt_onlyWrites d4 ha rd true (toNat_wordAt_eq_load h.mem ea), fun hx => ?_⟩
  obtain ⟨h2, hx2, hw2⟩ := Hart.loadInt_onlyWrites d4 ha rd false (toNat_wordAt_eq_load h.mem ea)
  exact ⟨h2, (onlyRv64_of_rv64 hx _).trans hx2, hw2⟩

/-- Settles O47: a load of eight bytes is the whole number, whose bytes are those in memory. -/
theorem doubleLoadCompletes : Obligations.DoubleLoadCompletes := by
  intro p h rd cs1 imm hx ea ha
  obtain ⟨-, -, -, d8⟩ := size_dvd p.format.mxlen
  have hfull : 8 * 8 = p.format.mxlen.bits := by rw [hx]
  refine ⟨_, _, (onlyRv64_of_rv64 hx _).trans (congrArg liftHart (Hart.loadInt_of_authorised d8 ha rd false)),
    h.onlyWrites_writeC_advance rd _, fun i hi => ?_⟩
  rw [extractLsb'_byte, extendLoad_toNat_of_full hfull _ (load_lt ..), ofNat_load_div _ _ hi]

/-! ## Integer stores (R157) -/

/-- The bytes of an aligned access lie in the CLEN-aligned word that holds its address. -/
theorem word_of_aligned_byte {n size a y : Nat} (hn : n ∣ size) (hmod : a % n = 0) (hlow : a ≤ y) (hhigh : y < a + n) :
    y - y % size = a - a % size := by
  obtain ⟨j, rfl⟩ := hn
  obtain ⟨k, rfl⟩ := Nat.dvd_of_mod_eq_zero hmod
  have hy : y / n = k := Nat.div_eq_of_lt_le (by rwa [Nat.mul_comm]) (by rwa [Nat.mul_comm, Nat.mul_succ])
  have hk : n * k / n = k := Nat.mul_div_cancel_left k (by omega)
  have hblock : y / (n * j) = n * k / (n * j) := by rw [← Nat.div_div_eq_div_mul, ← Nat.div_div_eq_div_mul, hy, hk]
  have hy' := Nat.div_add_mod y (n * j)
  have ha' := Nat.div_add_mod (n * k) (n * j)
  rw [hblock] at hy'
  omega

/-- A byte of the low 8n bits is the byte of the whole. -/
theorem ofNat_low_bytes_div {w : Nat} (v : BitVec w) {n k : Nat} (hk : k < n) :
    BitVec.ofNat 8 (v.toNat % 2 ^ (8 * n) / 256 ^ k) = v.extractLsb' (8 * k) 8 := by
  rw [← BitVec.toNat_setWidth, ← extractLsb'_byte]
  apply BitVec.eq_of_getLsbD_eq
  intro i hi
  simp [hi, show 8 * k + i < 8 * n by omega]

/-- An aligned integer write changes its bytes and the tag of the one word that holds them (R33). -/
theorem Hart.onlyStores_write {h : Hart p} (hm : h.mem.wf p.format.mxlen = true) {a n : Nat}
    (hn : n ∣ p.format.mxlen.capBytes) (hmod : a % n = 0) (v : Nat) :
    h.OnlyStores (Hart.advance { h with mem := h.mem.write p.format.mxlen a n v }) a n := by
  obtain ⟨-, hbytes, -, htags⟩ := integerWriteClearsTags p.format.mxlen h.mem a n v hm
  refine { regs := fun _ => rfl, pcc := rfl, bytes := hbytes, tags := fun word hword => ?_, map := write_map .., tid := rfl,
           xlen := rfl }
  by_cases haligned : word % p.format.mxlen.capBytes = 0
  · exact htags word haligned fun y hlow hhigh hy => hword (hy.symm.trans (word_of_aligned_byte hn hmod hlow hhigh))
  · obtain ⟨-, -, -, hwords, -⟩ := (wf_iff _ h.mem).1 hm
    have hold : h.mem.tagAt word = false := by
      rw [← Bool.not_eq_true, tagAt_iff]
      exact fun hmem => haligned (hwords word hmem).1
    have hnew := tagAt_write h.mem p.format.mxlen a n v word
    rwa [hold, Bool.false_and, ← hold] at hnew

/-- SB, SH, SW and SD are StoreInt of a size that divides the size of a capability. -/
theorem exec_storeInt (h : Hart p) {rs2 cs1 : Reg} {imm : Imm12} {i : Instr} {n : Nat}
    (hi : (i, n) ∈ [(Instr.sb rs2 cs1 imm, 1), (Instr.sh rs2 cs1 imm, 2), (Instr.sw rs2 cs1 imm, 4),
      (Instr.sd rs2 cs1 imm, 8)])
    (hx : n = 8 → p.format.mxlen = .rv64) :
    (0 < n ∧ n ∣ p.format.mxlen.capBytes) ∧
      exec i { params := p, hart := h } = liftHart (h.storeInt rs2 cs1 imm n) := by
  obtain ⟨d1, d2, d4, d8⟩ := size_dvd p.format.mxlen
  simp only [List.mem_cons, Prod.mk.injEq, List.not_mem_nil, or_false] at hi
  obtain ⟨rfl, rfl⟩ | ⟨rfl, rfl⟩ | ⟨rfl, rfl⟩ | ⟨rfl, rfl⟩ := hi
  · exact ⟨⟨by decide, d1⟩, rfl⟩
  · exact ⟨⟨by decide, d2⟩, rfl⟩
  · exact ⟨⟨by decide, d4⟩, rfl⟩
  · exact ⟨⟨by decide, d8⟩, onlyRv64_of_rv64 (hx rfl) _⟩

/-- Settles O48: an authorised StoreInt writes the low bytes of the register, and the word that holds them loses its tag. -/
theorem integerStoresComplete : Obligations.IntegerStoresComplete := by
  intro p h rs2 cs1 imm i n hm hi hx ea ha
  obtain ⟨⟨hpos, hn⟩, hexec⟩ := exec_storeInt h hi hx
  obtain ⟨hbytes, -, htags, -⟩ :=
    integerWriteClearsTags p.format.mxlen h.mem ea n ((h.readX rs2).toNat % 2 ^ (8 * n)) hm
  refine ⟨_, ?_, Hart.onlyStores_write hm hn ha.aligned _, fun k hk => (hbytes k hk).trans (ofNat_low_bytes_div _ hk),
    htags ea (Nat.le_refl _) (Nat.lt_add_of_pos_right hpos)⟩
  rw [hexec, Hart.storeInt, ha.check_pass (access := .intStore) ha.perms hn, Check.pass_andNext, liftHart_next]

/-! ## Capabilities (R158, R159) -/

/-- Settles O49: an authorised LoadCap writes the word through the C rule and the load-mutable rule. -/
theorem capabilityLoadCompletes : Obligations.CapabilityLoadCompletes := by
  intro p h cd cs1 imm ea auth ha hc
  have hneeds := has_of_mem_capability_needs (ha.perms .r List.mem_cons_self) hc
  refine ⟨_, _, ?_, rfl, readCap_tag .., h.onlyWrites_writeC_advance cd _⟩
  rw [← tagWithC_eq]
  exact congrArg (fun k => liftHart (Check.andNext k _)) (ha.check_pass (access := .capLoad) hneeds dvd_rfl)

/-- A capability write changes the bytes and the tag of its word. -/
theorem Hart.onlyStores_writeCap {h : Hart p} (hm : h.mem.wf p.format.mxlen = true) {a : Nat}
    (hmod : a % p.format.mxlen.capBytes = 0) (c : Cap p.format) :
    h.OnlyStores (Hart.advance { h with mem := h.mem.writeCap p.layout a c }) a p.format.mxlen.capBytes := by
  obtain ⟨hrise, -⟩ := (wf_iff _ h.mem).1 hm
  refine { regs := fun _ => rfl, pcc := rfl, bytes := fun x hx => ?_, tags := fun word hword => ?_, map := writeCap_map ..,
           tid := rfl, xlen := rfl }
  · exact (readByte_writeCap _ _ hrise _ _ _).trans (if_neg hx)
  · rw [hmod, Nat.sub_zero] at hword
    rw [Bool.eq_iff_iff, tagAt_iff, tagAt_iff, Hart.advance_mem, Memory.writeCap, mem_setTag, if_neg hword, storeBytes_tags]

/-- Settles O50: an authorised StoreCap writes the register through the C rule, and the word reads back as written. -/
theorem capabilityStoreCompletes : Obligations.CapabilityStoreCompletes := by
  intro p h cs2 cs1 imm hp hm ea auth ha hc
  have hneeds := has_of_mem_capability_needs (ha.perms .w List.mem_cons_self) hc
  refine ⟨_, ?_, Hart.onlyStores_writeCap hm ha.aligned _,
    (readCap_writeCap_same (Params.wf_layout hp) hm ..).trans (tagWithC_eq auth (h.readC cs2))⟩
  exact congrArg (fun k => liftHart (Check.andNext k _)) (ha.check_pass (access := .capStore) hneeds dvd_rfl)

end Sys2Proof.Machine
end

section

/-! The reset state (70_reset_and_hazards.md R147, R149): whatever the parameters, its one tagged capability is Infinite in pcc. -/

namespace Sys2Proof.Machine

variable {p : Params}

/-- Every general register reads NULL after reset (log 3). -/
@[simp] theorem resetHart_readC (r : Reg) : (resetHart p).readC r = Cap.null p.format := by
  unfold Hart.readC
  split
  · rfl
  · exact Vector.getElem_replicate ..

/-- NULL registers, no TID registers and untagged memory leave pcc as the only holder of a tagged capability. -/
theorem resetHart_holds_iff {c : Cap p.format} : (resetHart p).Holds c ↔ c = Cap.infinite p.format p.hybrid := by
  constructor
  · rintro ⟨htag, hpcc | ⟨r, hreg⟩ | htid | ⟨a, ha, -⟩⟩
    · exact hpcc
    · rw [hreg, resetHart_readC] at htag
      exact absurd htag Bool.false_ne_true
    · exact absurd htid List.not_mem_nil
    · exact absurd ha List.not_mem_nil
  · rintro rfl
    exact Hart.Holds.pcc (h := resetHart p) rfl

theorem infinite_valid (f : Format) (hybrid : Bool) : (Cap.infinite f hybrid).valid hybrid = true := by
  obtain ⟨-, -, -, -, -, -, -, -, -, -, hvalid⟩ := infiniteGrantsEverything f hybrid
  exact hvalid

/-- With parameters the spec admits, the reset hart obeys the part of the launch premise that steps keep. -/
theorem resetHart_inv (hp : p.wf = true) : (resetHart p).Inv where
  params := hp
  mem := resetMemory_wf p.format.mxlen
  caps c hc := by
    rw [resetHart_holds_iff.1 hc]
    exact infinite_valid p.format p.hybrid

/-- Without HYBRID and LEVELS the reset hart is a launch state. HYBRID is excluded because it sets the M-bit of Infinite (R25), and
R147 item 3 asks for an M-bit of 0 in pcc. -/
theorem resetHart_launch (hp : p.wf = true) (hhybrid : p.hybrid = false) (hlevels : p.levels = false) :
    State.Launch { params := p, hart := resetHart p } :=
  ⟨resetHart_inv hp, Nat.zero_mod 4, fun _ => (infinite_mbit p.format p.hybrid).trans hhybrid, hlevels, rfl⟩

theorem resetParams_wf : resetParams.wf = true := by decide

/-- Settles O12: the parameters at reset are admitted, and have neither HYBRID nor LEVELS. -/
theorem resetMeetsLaunchPremise : Obligations.ResetMeetsLaunchPremise :=
  resetHart_launch resetParams_wf rfl rfl

end Sys2Proof.Machine
end

section

/-! The words of the spec's small programs (95_test_vectors.md section 6): what a word decodes to is settled by the encoder. -/

namespace Sys2Proof

/-- The decoder maps a word to an instruction exactly if the instruction has a word, and it is this one. -/
theorem decode_eq_ok_iff {x : Mxlen} {w : BitVec 32} {i : Instr} : decode x w = .ok i ↔ i.wf x = true ∧ encode x i = w := by
  constructor
  · exact encode_of_decode
  · rintro ⟨hwf, rfl⟩
    exact decode_encode hwf

/-- Settles O3: each instruction beside a word has a word, and its fields encode to the word written in the program. -/
theorem programWordsDecode : Obligations.ProgramWordsDecode := by
  unfold Obligations.ProgramWordsDecode
  simp only [decode_eq_ok_iff]
  decide

end Sys2Proof
end
